-- ==== Sys2Proof/Word.lean ====
section
/-! DEFINITION. The limb: the 64-bit unit of every bank, context array and command word (R6, R9, R53). -/

namespace Sys2Proof

/-- R6: a limb is "one fixed-size (64-bit) element". -/
abbrev Limb := BitVec 64

/-- R6: the limb base `B = 2^64`. -/
def limbBase : Nat := 2 ^ 64

theorem limbBase_eq : limbBase = 2 ^ 64 := rfl

theorem limbBase_pos : 0 < limbBase := by decide

/-- R7: the buffers are sized for the largest width, `LMAX = 64` limbs. -/
abbrev limbMax : Nat := 64

end Sys2Proof
end

