-- ==== Sys2Proof/Syntax.lean ====
section
/-! DEFINITION. The instructions (one constructor per row of spec/opcode_table.json), the host's bus transactions and the
host notation of 30_encoding.md section 3. -/

namespace Sys2Proof

/-- R2, R73: the one operation `divide`, instantiated per width. Operands are implicit (R71). -/
inductive Instr where
  | div256
  | div512
  | div1024
  | div2048
  | div4096
  deriving DecidableEq, Repr

/-- R51, R76: the registers the host can name. -/
inductive Reg where
  | u (i : Fin limbMax)
  | v (i : Fin limbMax)
  | q (i : Fin limbMax)
  | r (i : Fin limbMax)
  | cmd
  | status
  deriving DecidableEq, Repr

/-- What the world outside the block does to it, one item at a time: R76's transactions (kind, word address, data),
one turn of the host's own `WAIT` loop (R77), and the reset event (R270). -/
inductive HostOp where
  | write (addr : Nat) (data : Limb)
  | read (addr : Nat)
  | wait
  | reset
  deriving DecidableEq, Repr

/-- R76, R77: one line of the host notation. The instruction in `ldu` to `rdr` stands for the width `N` of the
pseudo-instruction's name. -/
inductive HostLine where
  | wr (reg : Reg) (data : Limb)
  | rd (reg : Reg)
  | div (i : Instr)
  | wait
  | ldu (width : Instr) (value : Nat)
  | ldv (width : Instr) (value : Nat)
  | rdq (width : Instr)
  | rdr (width : Instr)
  deriving DecidableEq, Repr

end Sys2Proof
end

