-- ==== Sys2Proof/Machine/State.lean ====
section
/-! DEFINITION. The state of the block (10_state.md), the environment it meets, the faults, and reset. -/

namespace Sys2Proof.Machine

/-- R240: the complete list of faults. Each ends the run; the step that raised it has no other effect. Every one is
SAFE: the source leaves the case undefined, and the model stops where a real block might go on. -/
inductive Fault where
  /-- R241, raised by a `CMD` write whose divisor is zero. Safe. -/
  | divisorZero
  /-- R242, raised by a `CMD` write of a word that is no command of this build. Safe. -/
  | illegalCommand
  /-- R243, raised by a write to `CMD`, `U` or `V` while `STATUS.BUSY = 1`. Safe. -/
  | busy
  /-- R244, raised by a `CMD` write (R180) or a host read (R187) that would read a limb that holds no value, which the spec
calls "a fault in the model" (R33; D9; U8: "`fault` `Uninit`; the limb holds *no value*, not zero"). Safe. -/
  | uninit
  /-- R245, raised by an engine step whose internal condition is false (shown unreachable by a statement). Safe. -/
  | contract
  /-- R246, raised by a host access of a reserved address or in the direction the register does not permit. Safe. -/
  | badAccess
  deriving DecidableEq, Repr

/-- Reasons for having no meaning. -/
inductive Refusal where
  /-- An instruction of the opcode table with no meaning in this model: raised by `exec`'s arm alone. Safe. No arm uses it. -/
  | notModelled (mnemonic : String)
  deriving DecidableEq, Repr

/-- R21: a bank of 64 limbs. `none` is the spec's own "no value" (R33): not zero and not any number. -/
abbrev Bank := Vector (Option Limb) limbMax

/-- R33: a bank whose every limb holds no value. -/
def Bank.noValue : Bank := Vector.replicate limbMax none

/-- R25: the sequencer's phase. -/
inductive Phase where
  | idle
  | norm
  | by1
  | by2
  | cf42
  | cf64
  | knuth
  | commit
  deriving DecidableEq, Repr

/-- R20: the two agents. -/
inductive Agent where
  | host
  | engine
  deriving DecidableEq, Repr

/-- R30: the normalized division context, from the `NORM` step to the commit. The arrays hold the limbs a call uses
(`UN[0 .. L]`, the others `[0 .. L-1]`); the limbs above hold no value and are never written or read (R108).
`rcp`, `rem1`, `rem0` and `j` hold no value until the chosen path's set-up writes them. R30's table has no `J`: that it
is kept and discarded with the context is the model's choice (log entry 22). -/
structure Context where
  /-- `UN`: the shifted numerator, `L + 1` limbs, overwritten in place by the paths. -/
  un : List Limb
  /-- `VN`: the shifted divisor, `L` limbs. -/
  vn : List Limb
  /-- `S`: the shift amount, 0 to 63. -/
  s : Nat
  /-- `M`: the numerator's significant limb count after the adjustment, 0 to 65. -/
  m : Nat
  /-- `ND`: the divisor's significant limb count, 1 to 64. -/
  nd : Nat
  /-- `RCP`: the reciprocal. -/
  rcp : Option Limb
  /-- `REM1`: the running remainder's high limb (double-limb path). -/
  rem1 : Option Limb
  /-- `REM0`: the running remainder's low limb (single- and double-limb paths). -/
  rem0 : Option Limb
  /-- R25: `J`, the loop index, -1 to 63, meaningful in the loop phases alone; elsewhere the model's choice (log entry 22). -/
  j : Option Int
  /-- `QA`: the quotient being assembled, `L` limbs. -/
  qa : List Limb
  /-- `RA`: the de-normalized remainder awaiting commit, `L` limbs. -/
  ra : List Limb
  deriving DecidableEq, Repr

/-- The block's state (10_state.md), then the environment's (R20, R58, R278). -/
structure State where
  /-- R21, R22: the numerator bank. -/
  u : Bank
  /-- R21, R22: the divisor bank. -/
  v : Bank
  /-- R21, R23: the quotient bank. -/
  q : Bank
  /-- R21, R23: the remainder bank. -/
  r : Bank
  /-- R27: `STATUS.BUSY`. -/
  busy : Bool
  /-- R27: `STATUS.DONE`. -/
  done : Bool
  /-- R25: `PHASE`. -/
  phase : Phase
  /-- R26, R30: `LW`, the limb count latched at the accepted command. -/
  lw : Option Nat
  /-- R29, R30: the context; `none` outside a call and before its `NORM` step. -/
  ctx : Option Context
  /-- What the host has still to do, in the order it issued it (R58). Of the model's environment, not of the block. -/
  pending : List HostOp
  /-- Whose turn it is, wherever host and engine could both take a step (R58; log entry 4). Of the environment. -/
  turns : List Agent
  /-- The values the host's reads returned, oldest first (R278). Of the environment. -/
  reads : List Limb
  deriving DecidableEq, Repr

/-- R33, R271: the state after reset, with an environment that does nothing. -/
def State.reset : State where
  u := Bank.noValue
  v := Bank.noValue
  q := Bank.noValue
  r := Bank.noValue
  busy := false
  done := false
  phase := .idle
  lw := none
  ctx := none
  pending := []
  turns := []
  reads := []

end Sys2Proof.Machine
end

