-- ==== Sys2Proof/Machine/Ops.lean ====
section
/-! DEFINITION. The named operations over limbs, limb arrays and banks; raising a fault; the reset event. -/

namespace Sys2Proof.Machine

/-! ## Limbs and limb arrays (R9, R10) -/

/-- R9: `lo64(x) = x mod B`. -/
def lo64 (x : Nat) : Limb := BitVec.ofNat 64 x

/-- R9: `hi64(x) = floor(x / B) mod B`. -/
def hi64 (x : Nat) : Limb := BitVec.ofNat 64 (x / limbBase)

/-- R10: the value of a limb array, least significant limb first. -/
def val : List Limb → Nat
  | [] => 0
  | x :: xs => x.toNat + limbBase * val xs

/-- R10: the value of the pair `(h, l)`, most significant limb written first. -/
def pairVal (h l : Limb) : Nat := h.toNat * limbBase + l.toNat

/-- R10: the value of the triple `(a, b, c)`. -/
def tripleVal (a b c : Limb) : Nat := pairVal a b * limbBase + c.toNat

/-- The lowest `len` limbs of a number. -/
def limbsOf (len x : Nat) : List Limb :=
  match len with
  | 0 => []
  | n + 1 => lo64 x :: limbsOf n (x / limbBase)

/-- R13: the significant limb count, the index of the highest nonzero limb plus one, 0 for an all-zero array. -/
def sigLimbs : List Limb → Nat
  | [] => 0
  | x :: xs =>
    match sigLimbs xs with
    | 0 => if x = 0 then 0 else 1
    | k + 1 => k + 2

/-- R217: read limbs `start .. start + len - 1`; none where an index is outside the array (R57, R245). -/
def readLimbs (xs : List Limb) (start len : Nat) : Option (List Limb) :=
  if start + len ≤ xs.length then some ((xs.drop start).take len) else none

/-- R217: write `ys` at limbs `start, start + 1, ...`; none where an index is outside the array (R57, R245). -/
def writeLimbs (xs : List Limb) (start : Nat) (ys : List Limb) : Option (List Limb) :=
  if start + ys.length ≤ xs.length then some (xs.take start ++ ys ++ xs.drop (start + ys.length)) else none

/-- R217: write one limb; none where the index is outside the array (R57, R245). -/
def writeLimb (xs : List Limb) (i : Nat) (x : Limb) : Option (List Limb) := writeLimbs xs i [x]

/-- Extend an array with zero limbs to `len` limbs. -/
def padLimbs (len : Nat) (xs : List Limb) : List Limb := xs ++ List.replicate (len - xs.length) 0

/-! ## Banks (R21) -/

/-- All the values, if every entry holds one. -/
def allSome : List (Option Limb) → Option (List Limb)
  | [] => some []
  | none :: _ => none
  | some x :: xs =>
    match allSome xs with
    | some ys => some (x :: ys)
    | none => none

/-- Limbs `0 .. len-1` of a bank; none if one of them holds no value (R244). -/
def Bank.readPrefix (b : Bank) (len : Nat) : Option (List Limb) := allSome (b.toList.take len)

/-- Write limbs `0, 1, ...` of a bank; the limbs above keep what they hold. -/
def Bank.writePrefix (b : Bank) (xs : List Limb) : Bank :=
  Vector.ofFn fun i : Fin limbMax => (xs[i.val]?).or b[i.val]

/-- R186: a bank limb takes a value. -/
def Bank.write (b : Bank) (i : Fin limbMax) (x : Limb) : Bank := b.set i.val (some x)

/-! ## Faults and reset -/

/-- R240, R249: `raise Fault(<name>)`. This is the block's whole exception mechanism: the run ends, nothing is saved, no
mode changes, no handler runs and there is no instruction that returns. -/
def raise (f : Fault) : Host.Outcome State Fault Refusal := .fault f

/-- R245: an engine step whose internal condition is false raises `Contract`; it never gives the case a value. -/
def orContract : Option State → Host.Outcome State Fault Refusal
  | some s => .next s
  | none => raise .contract

/-- R270, R271: the reset event. The block returns to its reset state, a call in progress is abandoned; what the
environment holds is not the block's and stays. -/
def State.applyReset (s : State) : State :=
  { State.reset with pending := s.pending, turns := s.turns, reads := s.reads }

end Sys2Proof.Machine
end

