-- ==== Sys2Proof/Machine/Primitives.lean ====
section
/-! DEFINITION. The units the engine consumes by contract (46_primitives.md) and the limb-array helpers `add` and
`submul` (44_knuth.md). A call outside a unit's precondition has no value (R220, R245). -/

namespace Sys2Proof.Machine

/-- R210: the number of leading zero bits of a limb; 64 for zero. -/
def leadingZeroCount (x : Limb) : Nat := if x = 0 then 64 else 63 - Nat.log2 x.toNat

/-- R212: 2-by-1 division by a normalized limb, exact. The reciprocal operand does not influence the result (R31). -/
def divide2by1 (u1 u0 d : Limb) (_rcp : Limb) : Option (Limb × Limb) :=
  if 2 ^ 63 ≤ d.toNat ∧ u1.toNat < d.toNat then
    some (lo64 (pairVal u1 u0 / d.toNat), lo64 (pairVal u1 u0 % d.toNat))
  else none

/-- R214: 3-by-2 division by a normalized limb pair, exact: the quotient and the remainder pair `(r1, r0)`. -/
def divide3by2 (u2 u1 u0 d1 d0 : Limb) (_rcp : Limb) : Option (Limb × Limb × Limb) :=
  if 2 ^ 63 ≤ d1.toNat ∧ pairVal u2 u1 < pairVal d1 d0 then
    let rem := tripleVal u2 u1 u0 % pairVal d1 d0
    some (lo64 (tripleVal u2 u1 u0 / pairVal d1 d0), hi64 rem, lo64 rem)
  else none

/-- R215: the closed-form 4-by-2 routine, exact: quotient and remainder as numbers. It is called only with `d1 >= 2^63`
and a quotient below `B^2` (R177). -/
def closedForm4by2 (a : List Limb) (d1 d0 : Limb) : Option (Nat × Nat) :=
  if 2 ^ 63 ≤ d1.toNat ∧ val a < pairVal d1 d0 * limbBase ^ 2 then
    some (val a / pairVal d1 d0, val a % pairVal d1 d0)
  else none

/-- R216: the closed-form 6-by-4 routine, exact. It is called only with `d[3] >= 2^63` and a quotient below `B^2` (R177). -/
def closedForm6by4 (a d : List Limb) : Option (Nat × Nat) :=
  match d[3]? with
  | some d3 =>
    if 2 ^ 63 ≤ d3.toNat ∧ val a < val d * limbBase ^ 2 then some (val a / val d, val a % val d) else none
  | none => none

/-- R151: the limb loop of `add`, from carry `c`: the sum limbs and the carry out. -/
def addLoop : List Limb → List Limb → Nat → List Limb × Nat
  | x :: xs, y :: ys, c =>
    let t := x.toNat + y.toNat + c
    let rest := addLoop xs ys (t / limbBase)
    (lo64 t :: rest.1, rest.2)
  | _, _, c => ([], c)

/-- R151: `add` over `len >= 2` limbs of `x` and `y`: the limbs written and the final carry. -/
def add (x y : List Limb) (len : Nat) : Option (List Limb × Nat) :=
  if 2 ≤ len ∧ len ≤ x.length ∧ len ≤ y.length then some (addLoop (x.take len) (y.take len) 0) else none

/-- R152: the limb loop of `submul`, from borrow `b`: the difference limbs and the borrow out, a full limb. -/
def submulLoop (mult : Limb) : List Limb → List Limb → Limb → List Limb × Limb
  | x :: xs, y :: ys, b =>
    let p := y.toNat * mult.toNat + b.toNat
    let borrow : Limb := if x.toNat < (lo64 p).toNat then 1 else 0
    let rest := submulLoop mult xs ys (hi64 p + borrow)
    ((x - lo64 p) :: rest.1, rest.2)
  | _, _, b => ([], b)

/-- R152: `submul` over `len >= 1` limbs: `x - y * mult`, the limbs written and the final borrow. -/
def submul (x y : List Limb) (len : Nat) (mult : Limb) : Option (List Limb × Limb) :=
  if 1 ≤ len ∧ len ≤ x.length ∧ len ≤ y.length then some (submulLoop mult (x.take len) (y.take len) 0) else none

/-- R104: the limbs of `X << s`, for `0 < s < 64`, where `low` is the limb below `X[0]`. -/
def shiftLeftLimbs (s : Nat) (low : Limb) : List Limb → List Limb
  | [] => []
  | x :: xs => ((x <<< s) + (low >>> (64 - s))) :: shiftLeftLimbs s x xs

/-- R176: the limbs of `X >> s`, for `0 < s < 64`; nothing enters at the top. -/
def shiftRightLimbs (s : Nat) : List Limb → List Limb
  | [] => []
  | [x] => [x >>> s]
  | x :: y :: ys => ((x >>> s) + (y <<< (64 - s))) :: shiftRightLimbs s (y :: ys)

/-- R176: the remainder de-normalizer on the limbs `X[0 .. n-1]`, extended with zeros to `L` limbs. The case `s = 0` is
separate, so that no shift by 64 is ever made (R188 (h)). -/
def denormalize (s len : Nat) (xs : List Limb) : List Limb :=
  padLimbs len (if s = 0 then xs else shiftRightLimbs s xs)

end Sys2Proof.Machine
end

