-- ==== Sys2Proof/Machine/ClosedForm.lean ====
section
/-! DEFINITION. The closed-form steps `CF42` and `CF64` (45_dispatch_div.md, R177). -/

namespace Sys2Proof.Machine

/-- R177: the `CF42` step of a call of `len` limbs. -/
def cf42 (len : Nat) (c : Context) : Option Context :=
  match readLimbs c.un 0 4, c.vn[1]?, c.vn[0]? with
  | some a, some d1, some d0 =>
    match closedForm4by2 a d1 d0 with
    | some (q, r) =>
      match writeLimbs c.qa 0 (limbsOf 2 q) with
      | some qa => some { c with qa := qa, ra := denormalize c.s len (limbsOf 2 r) }
      | none => none
    | none => none
  | _, _, _ => none

/-- R177: the `CF64` step of a call of `len` limbs. `UN6` is `UN[0 .. m-1]` extended with zero limbs to six. -/
def cf64 (len : Nat) (c : Context) : Option Context :=
  if 6 < c.m then none
  else
    match readLimbs c.un 0 c.m, readLimbs c.vn 0 4 with
    | some a, some d =>
      match closedForm6by4 (padLimbs 6 a) d with
      | some (q, r) =>
        match writeLimbs c.qa 0 (limbsOf 2 q) with
        | some qa => some { c with qa := qa, ra := denormalize c.s len (limbsOf 4 r) }
        | none => none
      | none => none
    | _, _ => none

end Sys2Proof.Machine
end

