-- ==== Sys2Proof/Config.lean ====
section
/-! DEFINITION. What one build of the block fixes (the widths it serves) and the two functions the spec leaves
open (the reciprocals). -/

namespace Sys2Proof

/-- R7, D2: the parameter `WIDTHS` of this build, in bits. "One block instance serves all five widths".
A build with fewer is the first argument of `Machine.startDivide`. -/
def Config.widths : List Nat := [256, 512, 1024, 2048, 4096]

/-- R211: the value of `reciprocal_for_1limb(d)`. The source gives no formula, so it is a FREE VALUE (log entry 3):
nothing in the model depends on what it is. -/
opaque Config.reciprocalFor1Limb : Limb → Limb

/-- R213: the value of `reciprocal_for_2limb((d1, d0))`, a FREE VALUE as above (log entry 3). -/
opaque Config.reciprocalFor2Limb : Limb → Limb → Limb

end Sys2Proof
end

