-- ==== Sys2Proof/Machine/DoubleLimb.lean ====
section
/-! DEFINITION. The double-limb division path, `BY2` (43_double_limb_path.md). -/

namespace Sys2Proof.Machine

/-- R131: the set-up, inside the `NORM` step. R245: the path requires `m >= 2`. -/
def by2Setup (c : Context) : Option Context :=
  if c.m < 2 then none
  else
    match c.vn[1]?, c.vn[0]?, c.un[c.m - 1]?, c.un[c.m - 2]? with
    | some d1, some d0, some r1, some r0 =>
      match writeLimbs c.un (c.m - 2) [0, 0] with
      | some un =>
        some { c with
          un := un, rcp := some (Config.reciprocalFor2Limb d1 d0), rem1 := some r1, rem0 := some r0
          j := some ((c.m : Int) - 3) }
      | none => none
    | _, _, _, _ => none

/-- R132: one iteration, `J = j >= 0`. -/
def by2Iterate (c : Context) (j : Nat) : Option Context :=
  match c.rem1, c.rem0, c.un[j]?, c.vn[1]?, c.vn[0]?, c.rcp with
  | some r1, some r0, some x, some d1, some d0, some rcp =>
    match divide3by2 r1 r0 x d1 d0 rcp with
    | some (q, t1, t0) =>
      match writeLimb c.un j q with
      | some un => some { c with un := un, rem1 := some t1, rem0 := some t0, j := some ((j : Int) - 1) }
      | none => none
    | none => none
  | _, _, _, _, _, _ => none

/-- R133: the exit, `J = -1`, of a call of `len` limbs: the remainder pair is shifted back as one 128-bit value. -/
def by2Exit (len : Nat) (c : Context) : Option Context :=
  match c.rem1, c.rem0, readLimbs c.un 0 len with
  | some r1, some r0, some qa =>
    let t := pairVal r1 r0 / 2 ^ c.s
    some { c with qa := qa, ra := padLimbs len [lo64 t, hi64 t] }
  | _, _, _ => none

end Sys2Proof.Machine
end

