-- ==== Sys2Proof/Machine/Flags.lean ====
section
/-! DEFINITION. The status register (R27). The block has no other flag: no carry, overflow or error flag is kept (R32). -/

namespace Sys2Proof.Machine

/-- R27, R187: the word a read of `STATUS` returns, `BUSY + 2*DONE`; bits 63:2 are hardwired zero. -/
def State.statusWord (s : State) : Limb :=
  (0 : BitVec 62) ++ BitVec.ofBool s.done ++ BitVec.ofBool s.busy

/-- R180: `STATUS.BUSY <- 1`, `STATUS.DONE <- 0`. -/
def State.flagsAccept (s : State) : State := { s with busy := true, done := false }

/-- R178: `STATUS.BUSY <- 0`, `STATUS.DONE <- 1`. -/
def State.flagsCommit (s : State) : State := { s with busy := false, done := true }

end Sys2Proof.Machine
end

