-- ==== Sys2Proof/Machine/Knuth.lean ====
section
/-! DEFINITION. The Knuth long-division loop (44_knuth.md). An iteration is one function of its window `UN[j .. j+n]`. -/

namespace Sys2Proof.Machine

/-- R141: the set-up, inside the `NORM` step. R140, R245: the path requires `n >= 3` and `m >= n`. -/
def knuthSetup (c : Context) : Option Context :=
  if c.nd < 3 ∨ c.m < c.nd then none
  else
    match c.vn[c.nd - 1]?, c.vn[c.nd - 2]? with
    | some d1, some d0 =>
      some { c with rcp := some (Config.reciprocalFor2Limb d1 d0), j := some ((c.m : Int) - c.nd - 1) }
    | _, _ => none

/-- R145: the overflow branch on the window `w` of `n + 1` limbs whose top limb is `u2`: the multiply-subtract of
`(B-1) * Vn` over `n` limbs, completed on the top limb by its borrow. -/
def knuthOverflow (w vn : List Limb) (n : Nat) (u2 : Limb) : Option (Limb × List Limb) :=
  let qhat : Limb := BitVec.allOnes 64
  match submul w vn n qhat with
  | some (low, bor) => some (qhat, low ++ [u2 - bor])
  | none => none

/-- R149: the add-back of the full divisor into the low `n` limbs `low ++ [top]`: `add` over `n - 1` limbs, then the top
limb by hand, its carry out discarded. -/
def knuthAddBack (low : List Limb) (top : Limb) (vn : List Limb) (n : Nat) (d1 : Limb) : Option (List Limb) :=
  match add low vn (n - 1) with
  | some (low', cy) => some (low' ++ [lo64 (top.toNat + d1.toNat + cy)])
  | none => none

/-- R146 to R149: the normal branch. The estimate's remainder `(rh, rl)` takes the borrow of the multiply-subtract over
`n - 2` limbs; a borrow out of the pair calls for the add-back. The window's top limb keeps `u2` (R155). -/
def knuthNormal (w vn : List Limb) (n : Nat) (rcp u2 u1 u0 d1 d0 : Limb) : Option (Limb × List Limb) :=
  match divide3by2 u2 u1 u0 d1 d0 rcp with
  | none => none
  | some (qhat, rh, rl) =>
    match submul w vn (n - 2) qhat with
    | none => none
    | some (low, bor) =>
      let c1 : Limb := if rl.toNat < bor.toNat then 1 else 0
      let mid := rl - bor
      let c2 := rh.toNat < c1.toNat
      let top := rh - c1
      if c2 then
        match knuthAddBack (low ++ [mid]) top vn n d1 with
        | some low' => some (qhat - 1, low' ++ [u2])
        | none => none
      else some (qhat, low ++ [mid, top, u2])

/-- R143: one iteration on its window `w = UN[j .. j+n]`: the quotient limb and the window after it. -/
def knuthWindow (w vn : List Limb) (n : Nat) (rcp : Limb) : Option (Limb × List Limb) :=
  if n < 3 then none
  else
    match w[n]?, w[n - 1]?, w[n - 2]?, vn[n - 1]?, vn[n - 2]? with
    | some u2, some u1, some u0, some d1, some d0 =>
      if u2 = d1 ∧ u1 = d0 then knuthOverflow w vn n u2 else knuthNormal w vn n rcp u2 u1 u0 d1 d0
    | _, _, _, _, _ => none

/-- R143, R150: one iteration, `J = j >= 0`. -/
def knuthIterate (c : Context) (j : Nat) : Option Context :=
  match readLimbs c.un j (c.nd + 1), c.rcp with
  | some w, some rcp =>
    match knuthWindow w c.vn c.nd rcp with
    | some (qhat, w') =>
      match writeLimbs c.un j w', writeLimb c.qa j qhat with
      | some un, some qa => some { c with un := un, qa := qa, j := some ((j : Int) - 1) }
      | _, _ => none
    | none => none
  | _, _ => none

/-- R153: the exit, `J = -1`, of a call of `len` limbs. -/
def knuthExit (len : Nat) (c : Context) : Option Context :=
  match readLimbs c.un 0 c.nd with
  | some x => some { c with ra := denormalize c.s len x }
  | none => none

end Sys2Proof.Machine
end

