-- ==== Sys2Proof/Machine/Normalize.lean ====
section
/-! DEFINITION. The normalization engine (41_normalization.md). -/

namespace Sys2Proof.Machine

/-- R104: the shifted divisor `VN[0 .. L-1]`. -/
def shiftedDivisor (s : Nat) (vs : List Limb) : List Limb :=
  if s = 0 then vs else shiftLeftLimbs s 0 vs

/-- R104: the shifted numerator `UN[0 .. L]`, whose top limb holds the bits shifted out of `U[L-1]`. -/
def shiftedNumerator (s : Nat) (us : List Limb) : List Limb :=
  if s = 0 then us ++ [0] else shiftLeftLimbs s 0 us ++ [us.getLastD 0 >>> (64 - s)]

/-- R105, R106: the numerator's limb count after the adjustment. The test is not made when `m0 = 0`. -/
def adjustedCount (un vn : List Limb) (m0 n : Nat) : Option Nat :=
  if m0 = 0 then some 0
  else
    match un[m0]?, un[m0 - 1]?, vn[n - 1]? with
    | some spill, some top, some d => some (if spill ≠ 0 ∨ d.toNat ≤ top.toNat then m0 + 1 else m0)
    | _, _, _ => none

/-- R108: what the `NORM` step writes before the dispatch. `n >= 1` is the data model's invariant (R30, R101). -/
def normalize (us vs : List Limb) : Option Context :=
  let n := sigLimbs vs
  if n = 0 then none
  else
    match vs[n - 1]? with
    | none => none
    | some top =>
      let s := leadingZeroCount top
      let vn := shiftedDivisor s vs
      let un := shiftedNumerator s us
      match adjustedCount un vn (sigLimbs us) n with
      | none => none
      | some m =>
        some
          { un := un, vn := vn, s := s, m := m, nd := n, rcp := none, rem1 := none, rem0 := none, j := none
            qa := List.replicate us.length 0, ra := List.replicate us.length 0 }

end Sys2Proof.Machine
end

