-- ==== Sys2Proof/Machine/Operands.lean ====
section
/-! DEFINITION. The operand forms: the implicit operands of a command (R71) and the host's one addressing mode, the
absolute word address (R51, R186). -/

namespace Sys2Proof.Machine

/-- R71: the numerator operand, `U[0 .. L-1]`; none if one of the limbs holds no value. -/
def State.numerator (s : State) (len : Nat) : Option (List Limb) := s.u.readPrefix len

/-- R71: the divisor operand, `V[0 .. L-1]`; none if one of the limbs holds no value. -/
def State.divisor (s : State) (len : Nat) : Option (List Limb) := s.v.readPrefix len

/-- R51: the register at a word address; none where the address is reserved. -/
def regAt (a : Nat) : Option Reg :=
  if h : a < 0x040 then some (.u ⟨a, h⟩)
  else if h : a - 0x040 < 0x040 then some (.v ⟨a - 0x040, h⟩)
  else if h : a - 0x080 < 0x040 then some (.q ⟨a - 0x080, h⟩)
  else if h : a - 0x0C0 < 0x040 then some (.r ⟨a - 0x0C0, h⟩)
  else if a = 0x100 then some .cmd
  else if a = 0x101 then some .status
  else none

end Sys2Proof.Machine
end

