-- ==== Sys2Proof/Machine/SingleLimb.lean ====
section
/-! DEFINITION. The single-limb division path, `BY1` (42_single_limb_path.md). -/

namespace Sys2Proof.Machine

/-- R121: the set-up, inside the `NORM` step. R245: the path requires `m >= 1`. -/
def by1Setup (c : Context) : Option Context :=
  if c.m < 1 then none
  else
    match c.vn[0]?, c.un[c.m - 1]? with
    | some d, some top =>
      match writeLimb c.un (c.m - 1) 0 with
      | some un =>
        some { c with un := un, rcp := some (Config.reciprocalFor1Limb d), rem0 := some top, j := some ((c.m : Int) - 2) }
      | none => none
    | _, _ => none

/-- R122: one iteration, `J = j >= 0`. -/
def by1Iterate (c : Context) (j : Nat) : Option Context :=
  match c.rem0, c.un[j]?, c.vn[0]?, c.rcp with
  | some r0, some x, some d, some rcp =>
    match divide2by1 r0 x d rcp with
    | some (q, r) =>
      match writeLimb c.un j q with
      | some un => some { c with un := un, rem0 := some r, j := some ((j : Int) - 1) }
      | none => none
    | none => none
  | _, _, _, _ => none

/-- R123: the exit, `J = -1`, of a call of `len` limbs. -/
def by1Exit (len : Nat) (c : Context) : Option Context :=
  match c.rem0, readLimbs c.un 0 len with
  | some r0, some qa => some { c with qa := qa, ra := padLimbs len [r0 >>> c.s] }
  | _, _ => none

end Sys2Proof.Machine
end

