-- ==== Sys2Proof/Machine/Engine.lean ====
section
/-! DEFINITION. The dispatcher, the commit and the engine's step relation (45_dispatch_div.md, R170 to R178, R189). -/

namespace Sys2Proof.Machine

/-- R170: the routes out of the dispatch. -/
inductive Route where
  | earlyExit
  | by1
  | by2
  | cf42
  | cf64
  | knuth
  deriving DecidableEq, Repr

/-- R170 to R175: the cases in the source's order, on the adjusted count `m`. -/
def selectRoute (n m : Nat) : Route :=
  if m < n then .earlyExit
  else if n = 1 then .by1
  else if n = 2 then (if m = 4 then .cf42 else .by2)
  else if n = 4 ∧ m ≤ 6 then .cf64
  else .knuth

/-- R189: the phase the `NORM` step leads to. -/
def Route.phase : Route → Phase
  | .earlyExit => .commit
  | .by1 => .by1
  | .by2 => .by2
  | .cf42 => .cf42
  | .cf64 => .cf64
  | .knuth => .knuth

/-- R171 to R175: what the `NORM` step writes for the chosen path. The early exit's remainder is the original `U`. -/
def setUpRoute (us : List Limb) (c : Context) : Route → Option Context
  | .earlyExit => some { c with ra := us }
  | .by1 => by1Setup c
  | .by2 => by2Setup c
  | .cf42 => some c
  | .cf64 => some c
  | .knuth => knuthSetup c

/-- R108, R170: the `NORM` step on the operand limbs: the context it builds and the next phase. -/
def normContext (us vs : List Limb) : Option (Context × Phase) :=
  match normalize us vs with
  | none => none
  | some c =>
    let route := selectRoute c.nd c.m
    match setUpRoute us c route with
    | none => none
    | some c' => some (c', route.phase)

/-- R108: the `NORM` step. -/
def normStep (s : State) : Option State :=
  match s.lw with
  | none => none
  | some len =>
    match s.numerator len, s.divisor len with
    | some us, some vs =>
      match normContext us vs with
      | some (c, p) => some { s with ctx := some c, phase := p }
      | none => none
    | _, _ => none

/-- A loop phase (R25): with `J >= 0` it performs iteration `J` and stays, with `J = -1` it leaves for the commit. -/
def loopStep (p : Phase) (iterate : Context → Nat → Option Context) (exit : Nat → Context → Option Context)
    (s : State) : Option State :=
  match s.lw, s.ctx with
  | some len, some c =>
    match c.j with
    | none => none
    | some j =>
      if 0 ≤ j then
        match iterate c j.toNat with
        | some c' => some { s with ctx := some c', phase := p }
        | none => none
      else if j = -1 then
        match exit len c with
        | some c' => some { s with ctx := some c', phase := .commit }
        | none => none
      else none
  | _, _ => none

/-- A closed-form phase (R177): one step, then the commit. -/
def routineStep (routine : Nat → Context → Option Context) (s : State) : Option State :=
  match s.lw, s.ctx with
  | some len, some c =>
    match routine len c with
    | some c' => some { s with ctx := some c', phase := .commit }
    | none => none
  | _, _ => none

/-- R178, R56: the commit, one atomic step: the results, both flags, the phase, and the end of the context. -/
def commitStep (s : State) : Option State :=
  match s.lw, s.ctx with
  | some len, some c =>
    match readLimbs c.qa 0 len, readLimbs c.ra 0 len with
    | some qa, some ra =>
      some { s.flagsCommit with
        q := s.q.writePrefix qa, r := s.r.writePrefix ra, phase := .idle, lw := none, ctx := none }
    | _, _ => none
  | _, _ => none

/-- R189: the engine's step relation, one row one step. At `IDLE` the engine has no enabled step (R20) and this is the
identity; `step` never asks for it there. -/
def engineStep (s : State) : Host.Outcome State Fault Refusal :=
  match s.phase with
  | .idle => .next s
  | .norm => orContract (normStep s)
  | .by1 => orContract (loopStep .by1 by1Iterate by1Exit s)
  | .by2 => orContract (loopStep .by2 by2Iterate by2Exit s)
  | .cf42 => orContract (routineStep cf42 s)
  | .cf64 => orContract (routineStep cf64 s)
  | .knuth => orContract (loopStep .knuth knuthIterate knuthExit s)
  | .commit => orContract (commitStep s)

end Sys2Proof.Machine
end

