-- ==== Sys2Proof/Decode.lean ====
section
/-! DEFINITION. The command word of R70: its fields, the decoder, the encoder. -/

namespace Sys2Proof

/-- R72: the width-select code of an instruction. -/
def Instr.wsel : Instr → BitVec 3
  | .div256 => 0
  | .div512 => 1
  | .div1024 => 2
  | .div2048 => 3
  | .div4096 => 4

/-- R72: the limb count `L = 4 << WSEL`. -/
def Instr.limbs (i : Instr) : Nat := 4 <<< i.wsel.toNat

/-- R72: the width `N = 64 * L` in bits. -/
def Instr.bits (i : Instr) : Nat := 64 * i.limbs

/-- R51, R76: the word address of a register. -/
def Reg.addr : Reg → Nat
  | .u i => i.val
  | .v i => 0x040 + i.val
  | .q i => 0x080 + i.val
  | .r i => 0x0C0 + i.val
  | .cmd => 0x100
  | .status => 0x101

/-- Why a word is no command word (R70, R72, R74): which field holds a reserved value. -/
inductive DecodeError where
  /-- a bit of `RSV1`, bits 63:8, is set -/
  | reservedHighBits
  /-- `OPC`, bits 7:4, is not `0001` -/
  | reservedOperation
  /-- `RSV0`, bit 3, is set -/
  | reservedBit3
  /-- `WSEL`, bits 2:0, is 101, 110 or 111 -/
  | reservedWidth
  deriving DecidableEq, Repr

/-- R70: bits 63:8. -/
def fieldRsv1 (w : Limb) : BitVec 56 := w.extractLsb' 8 56

/-- R70: bits 7:4. -/
def fieldOpc (w : Limb) : BitVec 4 := w.extractLsb' 4 4

/-- R70: bit 3. -/
def fieldRsv0 (w : Limb) : BitVec 1 := w.extractLsb' 3 1

/-- R70: bits 2:0. -/
def fieldWsel (w : Limb) : BitVec 3 := w.extractLsb' 0 3

/-- R70: the operation code of divide. -/
def opcDivide : BitVec 4 := 0b0001

/-- R72: the instruction a width-select code stands for; 101, 110 and 111 are reserved. -/
def widthOfWsel (x : BitVec 3) : Option Instr :=
  match x.toNat with
  | 0 => some .div256
  | 1 => some .div512
  | 2 => some .div1024
  | 3 => some .div2048
  | 4 => some .div4096
  | _ => none

/-- R73, R74: the decoder. Every word but the five of R73 is reserved. -/
def decode (w : Limb) : Except DecodeError Instr :=
  if fieldRsv1 w ≠ 0 then .error .reservedHighBits
  else if fieldOpc w ≠ opcDivide then .error .reservedOperation
  else if fieldRsv0 w ≠ 0 then .error .reservedBit3
  else match widthOfWsel (fieldWsel w) with
    | some i => .ok i
    | none => .error .reservedWidth

/-- R70, R73: the command word of an instruction, field by field from bit 63 down. -/
def encode (i : Instr) : Limb := (0 : BitVec 56) ++ opcDivide ++ (0 : BitVec 1) ++ i.wsel

/-- The 64-bit word that opcode-table bits `nbits` and `w` stand for: bits at `nbits` and above are 0. -/
def tableWord (nbits w : Nat) : Limb := BitVec.ofNat 64 (w % 2 ^ nbits)

/-- The instruction the decoder reads from a row's bits. A command is one word (R70): bits above the 64th make none. -/
def decodeTableWord (nbits w : Nat) : Option Instr :=
  if w % 2 ^ nbits < 2 ^ 64 then
    match decode (tableWord nbits w) with
    | .ok i => some i
    | .error _ => none
  else none

end Sys2Proof
end

