-- ==== Sys2Proof/WellFormed.lean ====
section
/-! DEFINITION. Which instructions and host lines are well formed. -/

namespace Sys2Proof

/-- R7, R74: an instruction exists in a build only if its width is one of the build's `WIDTHS`. -/
def Instr.wf (widths : List Nat) (i : Instr) : Bool := widths.contains i.bits

/-- R76, R77: the one condition on a line of the host notation, that a pseudo-instruction's literal is below `2^N`. A line may
name any register, in either direction (R76); whether the access then faults is the block's (R246). A line of a width the
build leaves out is a line all the same: R74 reserves the command, and that its `LDU` to `RDR` stay is the model's choice
(log entry 21). -/
def HostLine.wf : HostLine → Bool
  | .wr _ _ => true
  | .rd _ => true
  | .div _ => true
  | .wait => true
  | .ldu w x => decide (x < 2 ^ w.bits)
  | .ldv w x => decide (x < 2 ^ w.bits)
  | .rdq _ => true
  | .rdr _ => true

end Sys2Proof
end

