-- ==== Sys2Proof/Machine/Divide.lean ====
section
/-! DEFINITION. The DIV instructions (45_dispatch_div.md, R180 to R185): what the command write does. The division itself
is then the engine's (Engine.lean). -/

namespace Sys2Proof.Machine

/-- R180: DIV, generic over the width, in a build with the given `WIDTHS` (R7, R74). The checks stand in the order of
R248, `Uninit` where R180 has "if some U[i] or V[i], 0 <= i < L, holds no value" (R244 (b)); on acceptance the limb count is latched, every limb of `Q` and `R` loses its value, and the sequencer is at `NORM`. -/
def startDivide (widths : List Nat) (i : Instr) (s : State) : Host.Outcome State Fault Refusal :=
  if s.busy then raise .busy
  else if i.wf widths = false then raise .illegalCommand
  else
    match s.numerator i.limbs, s.divisor i.limbs with
    | some _, some vs =>
      if val vs = 0 then raise .divisorZero
      else
        .next { s.flagsAccept with
          lw := some i.limbs, q := Bank.noValue, r := Bank.noValue, phase := .norm }
    | _, _ => raise .uninit

/-- R181: DIV256, command word 0x10, `L = 4`. -/
def execDiv256 (s : State) : Host.Outcome State Fault Refusal := startDivide Config.widths .div256 s

/-- R182: DIV512, command word 0x11, `L = 8`. -/
def execDiv512 (s : State) : Host.Outcome State Fault Refusal := startDivide Config.widths .div512 s

/-- R183: DIV1024, command word 0x12, `L = 16`. -/
def execDiv1024 (s : State) : Host.Outcome State Fault Refusal := startDivide Config.widths .div1024 s

/-- R184: DIV2048, command word 0x13, `L = 32`. -/
def execDiv2048 (s : State) : Host.Outcome State Fault Refusal := startDivide Config.widths .div2048 s

/-- R185: DIV4096, command word 0x14, `L = 64`. -/
def execDiv4096 (s : State) : Host.Outcome State Fault Refusal := startDivide Config.widths .div4096 s

end Sys2Proof.Machine
end

