-- ==== Sys2Proof/Machine/Dispatch.lean ====
section
/-! DEFINITION. One arm per instruction. -/

namespace Sys2Proof.Machine

/-- R180: what the write of an instruction's command word does. -/
def exec (i : Instr) (s : State) : Host.Outcome State Fault Refusal :=
  match i with
  | .div256 => Sys2Proof.Machine.execDiv256 s
  | .div512 => Sys2Proof.Machine.execDiv512 s
  | .div1024 => Sys2Proof.Machine.execDiv1024 s
  | .div2048 => Sys2Proof.Machine.execDiv2048 s
  | .div4096 => Sys2Proof.Machine.execDiv4096 s

end Sys2Proof.Machine
end

