-- ==== Sys2Proof/Machine/HostAccess.lean ====
section
/-! DEFINITION. What the host does to the block: its word writes and reads (R186, R187), its `WAIT` loop (R77), the reset
event (R270), and the host notation (R76, R77). -/

namespace Sys2Proof.Machine

/-- R180, R242, R248: the write of a word to `CMD`: busy first, then whether the word is a command, then the command. -/
def writeCommand (w : Limb) (s : State) : Host.Outcome State Fault Refusal :=
  if s.busy then raise .busy
  else
    match decode w with
    | .ok i => exec i s
    | .error _ => raise .illegalCommand

/-- R186: `MemWrite(a, 1, x)`. -/
def hostWrite (a : Nat) (x : Limb) (s : State) : Host.Outcome State Fault Refusal :=
  match regAt a with
  | some .cmd => writeCommand x s
  | some (.u i) => if s.busy then raise .busy else .next { s with u := s.u.write i x }
  | some (.v i) => if s.busy then raise .busy else .next { s with v := s.v.write i x }
  | some (.q _) => raise .badAccess
  | some (.r _) => raise .badAccess
  | some .status => raise .badAccess
  | none => raise .badAccess

/-- R187: what `MemRead(a, 1)` returns, or the fault it raises: for a bank limb, "if the limb holds no value then
raise Fault(Uninit), else returns its 64 bits" (R244 (a)). -/
def State.readWord (s : State) (a : Nat) : Except Fault Limb :=
  match regAt a with
  | some .status => .ok s.statusWord
  | some (.u i) => match s.u[i.val] with | some x => .ok x | none => .error .uninit
  | some (.v i) => match s.v[i.val] with | some x => .ok x | none => .error .uninit
  | some (.q i) => match s.q[i.val] with | some x => .ok x | none => .error .uninit
  | some (.r i) => match s.r[i.val] with | some x => .ok x | none => .error .uninit
  | some .cmd => .error .badAccess
  | none => .error .badAccess

/-- R187: a host read. It changes nothing in the block; the value returned joins the run's outcome (R278). -/
def hostRead (a : Nat) (s : State) : Host.Outcome State Fault Refusal :=
  match s.readWord a with
  | .ok x => .next { s with reads := s.reads ++ [x] }
  | .error f => raise f

/-- R77: one turn of the host's `WAIT` loop: `RD STATUS`, and the loop again if `DONE` was 0. -/
def hostWait (s : State) : Host.Outcome State Fault Refusal :=
  let seen := { s with reads := s.reads ++ [s.statusWord] }
  .next (if s.done then seen else { seen with pending := .wait :: seen.pending })

/-- R20, R270: one item of what the outside does to the block. -/
def hostStep (op : HostOp) (s : State) : Host.Outcome State Fault Refusal :=
  match op with
  | .write a x => hostWrite a x s
  | .read a => hostRead a s
  | .wait => hostWait s
  | .reset => .next s.applyReset

/-- R77: the writes of `LDU<N>` and `LDV<N>`: limb `i` of the literal to address `base + i`, in increasing `i`. -/
def loadOps (base : Nat) (w : Instr) (x : Nat) : List HostOp :=
  (limbsOf w.limbs x).zipIdx.map fun p => .write (base + p.2) p.1

/-- R77: the reads of `RDQ<N>` and `RDR<N>`. -/
def readOps (base : Nat) (w : Instr) : List HostOp :=
  (List.range w.limbs).map fun k => .read (base + k)

/-- R76, R77: the bus transactions a line of the host notation stands for. -/
def expandLine : HostLine → List HostOp
  | .wr reg x => [.write reg.addr x]
  | .rd reg => [.read reg.addr]
  | .div i => [.write Reg.cmd.addr (encode i)]
  | .wait => [.wait]
  | .ldu w x => loadOps 0x000 w x
  | .ldv w x => loadOps 0x040 w x
  | .rdq w => readOps 0x080 w
  | .rdr w => readOps 0x0C0 w

/-- What a host program does, line after line. -/
def programOps (p : List HostLine) : List HostOp := p.flatMap expandLine

/-- The state with a host program still to run. -/
def State.withProgram (s : State) (p : List HostLine) : State := { s with pending := programOps p }

/-- `s` with the host about to write the word `w` to `CMD`, ahead of all it has still to do. Where the engine could move
too, the turn is the host's. -/
def State.issueCommand (s : State) (w : Limb) : State :=
  { s with
    pending := .write Reg.cmd.addr w :: s.pending
    turns := if s.phase = .idle then s.turns else .host :: s.turns }

end Sys2Proof.Machine
end

