-- ==== Sys2Proof/Machine/Schedule.lean ====
section
/-! DEFINITION. Whose step is next (R20, R58, R278), and several instances side by side (R252). -/

namespace Sys2Proof.Machine

/-- The next move of the one total order of steps (R58). -/
inductive Move where
  /-- no agent has an enabled step: the run has ended normally (R278) -/
  | ended
  /-- the engine moves, from this state -/
  | engine (s : State)
  /-- the host performs `op`, from this state -/
  | host (op : HostOp) (s : State)
  deriving DecidableEq, Repr

/-- R20, R58, R277: an agent with the only enabled step takes it; where both have one, the state's `turns` say whose it
is, and when they are used up the engine's, so that an enabled engine step is always taken eventually. -/
def State.nextMove (s : State) : Move :=
  match s.pending with
  | [] => if s.phase = .idle then .ended else .engine s
  | op :: rest =>
    if s.phase = .idle then .host op { s with pending := rest }
    else
      match s.turns with
      | .host :: ts => .host op { s with pending := rest, turns := ts }
      | .engine :: ts => .engine { s with turns := ts }
      | [] => .engine s

/-- The step a move makes. A run that has ended stays as it is. -/
def Move.run (s : State) : Move → Host.Outcome State Fault Refusal
  | .ended => .next s
  | .engine t => engineStep t
  | .host op t => hostStep op t

/-- One step of the one-instance machine; `Machine.step` is this. -/
def stepOnce (s : State) : Host.Outcome State Fault Refusal := s.nextMove.run s

/-! ## Several instances (R252) -/

/-- One instance in a system: what its run has come to, its state or the fault that ended it. -/
abbrev InstanceRun := Host.Outcome State Fault Refusal

/-- One more step of an instance. A run that has ended in a fault has no further step (R249). -/
def stepRun : InstanceRun → InstanceRun
  | .next s => stepOnce s
  | .fault f => .fault f
  | .refused x => .refused x

/-- R249, R270: the reset of an instance, its only way out of a fault. It is the reset event of a running block; after a
fault a new run begins, with nothing of the old one and an environment that does nothing (the model's, log entry 8). -/
def resetRun : InstanceRun → InstanceRun
  | .next s => .next s.applyReset
  | .fault _ => .next State.reset
  | .refused _ => .next State.reset

/-- What happens next in a system: instance `k` takes a step or is reset. -/
inductive SystemMove where
  /-- instance `k` takes a step of its own -/
  | step (k : Nat)
  /-- the platform resets instance `k` -/
  | reset (k : Nat)
  deriving DecidableEq, Repr

/-- The instance a move concerns. -/
def SystemMove.target : SystemMove → Nat
  | .step k => k
  | .reset k => k

/-- What a move does to the instance it concerns. -/
def SystemMove.act : SystemMove → InstanceRun → InstanceRun
  | .step _ => stepRun
  | .reset _ => resetRun

/-- R252: a system is the product of copies of the one-instance machine, so a move changes the instance it concerns and no
other; there being no such instance, nothing. Hence a fault ends the run of its own instance only and the others go on:
R252 says this by "product" and "share no state", without naming faults (log entry 20). -/
def systemStep (m : SystemMove) (sys : List InstanceRun) : List InstanceRun := sys.modify m.target m.act

/-- A system's moves, one after another, in any order the list gives. -/
def systemRun : List SystemMove → List InstanceRun → List InstanceRun
  | [], sys => sys
  | m :: ms, sys => systemRun ms (systemStep m sys)

/-- R252: each instance starts in the reset state. -/
def resetInstances (k : Nat) : List InstanceRun := List.replicate k (.next State.reset)

end Sys2Proof.Machine
end

