-- ==== Sys2Proof/Machine/Step.lean ====
section
/-! DEFINITION. The step, and how an instruction is put where the step takes its next one. -/

namespace Sys2Proof.Machine

/-- One step of the block and its host (R58). -/
def step (s : State) : Host.Outcome State Fault Refusal := stepOnce s

/-- The block fetches nothing (R61): an instruction reaches it as the host's write of its command word to `CMD`. So the
instruction stands where the step takes its next one when that write is the host's next access. -/
def State.withFetchWord (s : State) (nbits w : Nat) : State := s.issueCommand (tableWord nbits w)

end Sys2Proof.Machine
end

