-- ==== Sys2Proof/Machine/Realisation.lean ====
section
/-! DEFINITION. The one realisation of the reciprocal units the spec writes out (R219, from general knowledge, not from the
source). No engine step uses it: the engine's units are their contracts (Primitives.lean) and the reciprocals are free values
(Config.lean). All variables are limbs; limb arithmetic wraps modulo `B`. -/

namespace Sys2Proof.Machine

/-- R219: `reciprocal_for_1limb(d) = floor((B^2 - 1) / d) - B`, for `d >= 2^63`. -/
def realReciprocal1 (d : Limb) : Limb := lo64 ((limbBase ^ 2 - 1) / d.toNat - limbBase)

/-- R219: the 2-by-1 division steps with the reciprocal `v`. -/
def realDivide2by1 (u1 u0 d v : Limb) : Limb × Limb :=
  let t := v.toNat * u1.toNat + pairVal u1 u0
  let q0 := lo64 t
  let q := hi64 t + 1
  let r := u0 - q * d
  let a := if q0 < r then (q - 1, r + d) else (q, r)
  if d ≤ a.2 then (a.1 + 1, a.2 - d) else a

/-- R219: the part of `reciprocal_for_2limb` that takes `d0` into account: the reciprocal so far and `p`. -/
def realReciprocal2Low (d1 d0 v : Limb) : Limb × Limb :=
  let p := d1 * v + d0
  if p < d0 then
    let a := if d1 ≤ p then (v - 1 - 1, p - d1) else (v - 1, p)
    (a.1, a.2 - d1)
  else (v, p)

/-- R219: `reciprocal_for_2limb((d1, d0))`, for `d1 >= 2^63`. -/
def realReciprocal2 (d1 d0 : Limb) : Limb :=
  let a := realReciprocal2Low d1 d0 (realReciprocal1 d1)
  let v := a.1
  let t := v.toNat * d0.toNat
  let p := a.2 + hi64 t
  if p < hi64 t then
    if pairVal d1 d0 ≤ pairVal p (lo64 t) then v - 1 - 1 else v - 1
  else v

/-- R219: the 3-by-2 division steps with the reciprocal `v`. Limb pairs are values modulo `B^2`. -/
def realDivide3by2 (u2 u1 u0 d1 d0 v : Limb) : Limb × Limb × Limb :=
  let t := v.toNat * u2.toNat + pairVal u2 u1
  let q1 := hi64 t
  let q0 := lo64 t
  let r1 := u1 - q1 * d1
  let s : BitVec 128 := (r1 ++ u0) - BitVec.ofNat 128 (d0.toNat * q1.toNat) - (d1 ++ d0)
  let q := q1 + 1
  let a : Limb × BitVec 128 :=
    if q0 ≤ hi64 s.toNat then (q - 1, s + (d1 ++ d0)) else (q, s)
  let b : Limb × BitVec 128 :=
    if (d1 ++ d0) ≤ a.2 then (a.1 + 1, a.2 - (d1 ++ d0)) else a
  (b.1, hi64 b.2.toNat, lo64 b.2.toNat)

end Sys2Proof.Machine
end

