-- ==== Sys2Proof/Safety.lean ====
section
/-! DEFINITION. What a safe run is: the host's obligations (R273), the invariant of the machine (R27 to R29, R124, R134,
R154, R275) and the number of engine steps of a call (R276). -/

namespace Sys2Proof.Machine

/-! ## The host's obligations -/

/-- R241, R242, R244, R273: a word written to an idle block's `CMD` starts a call. -/
def CommandAllowed (w : Limb) (s : State) : Prop :=
  ∃ (i : Instr) (us vs : List Limb), w = encode i ∧ i.wf Config.widths = true ∧
    s.numerator i.limbs = some us ∧ s.divisor i.limbs = some vs ∧ val vs ≠ 0

/-- R273: what the host may do in a state, register by register of the address map. -/
def HostAllowed (op : HostOp) (s : State) : Prop :=
  match op with
  | .write a x =>
    match regAt a with
    | some (.u _) => s.busy = false
    | some (.v _) => s.busy = false
    | some .cmd => s.busy = false ∧ CommandAllowed x s
    | some (.q _) => False
    | some (.r _) => False
    | some .status => False
    | none => False
  | .read a =>
    match regAt a with
    | some (.u i) => s.u[i.val].isSome = true
    | some (.v i) => s.v[i.val].isSome = true
    | some (.q i) => s.q[i.val].isSome = true
    | some (.r i) => s.r[i.val].isSome = true
    | some .status => True
    | some .cmd => False
    | none => False
  | .wait => True
  | .reset => True

/-- A run of any length that meets no fault (R278). -/
def SafeFrom (s : State) : Prop := ∀ k, ∃ t, Sys2Proof.core.run k s = .next t

/-! ## The invariant of a call

In each phase `c` is the context and `c0` the context as normalization built it. -/

/-- R30, R108: what no engine step after `NORM` changes, and the sizes of the arrays. -/
structure SameCall (us vs : List Limb) (c0 c : Context) : Prop where
  built : normalize us vs = some c0
  vn_eq : c.vn = c0.vn
  s_eq : c.s = c0.s
  m_eq : c.m = c0.m
  nd_eq : c.nd = c0.nd
  un_length : c.un.length = us.length + 1
  qa_length : c.qa.length = us.length
  ra_length : c.ra.length = us.length

/-- R124, between two iterations of `BY1` with `J = k - 1`: the quotient limbs so far, the running remainder, and the
numerator limbs still to come make up the normalized numerator. -/
def By1Inv (c0 c : Context) : Prop :=
  ∃ (d r0 : Limb) (k : Nat),
    c.nd = 1 ∧ k + 1 ≤ c.m ∧ c.j = some ((k : Int) - 1) ∧ c.vn[0]? = some d ∧ c.rem0 = some r0 ∧
    c.rcp = some (Config.reciprocalFor1Limb d) ∧ r0.toNat < d.toNat ∧
    val c0.un = (val (c.un.drop k) * d.toNat + r0.toNat) * limbBase ^ k + val (c.un.take k)

/-- R134, the same for `BY2`, with the limb pairs `(d1, d0)` and `(r1, r0)`. -/
def By2Inv (c0 c : Context) : Prop :=
  ∃ (d1 d0 r1 r0 : Limb) (k : Nat),
    c.nd = 2 ∧ k + 2 ≤ c.m ∧ c.j = some ((k : Int) - 1) ∧ c.vn[1]? = some d1 ∧ c.vn[0]? = some d0 ∧
    c.rem1 = some r1 ∧ c.rem0 = some r0 ∧ c.rcp = some (Config.reciprocalFor2Limb d1 d0) ∧
    pairVal r1 r0 < pairVal d1 d0 ∧
    val c0.un = (val (c.un.drop k) * pairVal d1 d0 + pairVal r1 r0) * limbBase ^ k + val (c.un.take k)

/-- R154 (a), (e), between two iterations of `KNUTH` with `J = k - 1`: the partial remainder `UN[k .. k+n-1]` is below
the divisor. It says nothing of the limbs above it (R155). -/
def KnuthInv (c0 c : Context) : Prop :=
  ∃ (d1 d0 : Limb) (k : Nat),
    3 ≤ c.nd ∧ k + c.nd ≤ c.m ∧ c.j = some ((k : Int) - 1) ∧
    c.vn[c.nd - 1]? = some d1 ∧ c.vn[c.nd - 2]? = some d0 ∧ c.rcp = some (Config.reciprocalFor2Limb d1 d0) ∧
    val ((c.un.drop k).take c.nd) < val c.vn ∧ val (c.qa.take k) = 0 ∧
    val c0.un = val c.qa * val c.vn + val (c.un.take (k + c.nd))

/-- R173, R177: `CF42` is entered with the normalized operands and an empty quotient. -/
def Cf42Inv (c0 c : Context) : Prop := c.nd = 2 ∧ c.m = 4 ∧ c.un = c0.un ∧ val c.qa = 0

/-- R174, R177: the same for `CF64`. -/
def Cf64Inv (c0 c : Context) : Prop := c.nd = 4 ∧ 4 ≤ c.m ∧ c.m ≤ 6 ∧ c.un = c0.un ∧ val c.qa = 0

/-- R179: what awaits the commit is the quotient and the remainder of the operands. -/
def CommitInv (us vs : List Limb) (c : Context) : Prop :=
  val c.qa = val us / val vs ∧ val c.ra = val us % val vs

/-- The invariant of each phase that has a context. -/
def PhaseInv (p : Phase) (us vs : List Limb) (c0 c : Context) : Prop :=
  match p with
  | .idle => False
  | .norm => False
  | .by1 => By1Inv c0 c
  | .by2 => By2Inv c0 c
  | .cf42 => Cf42Inv c0 c
  | .cf64 => Cf64Inv c0 c
  | .knuth => KnuthInv c0 c
  | .commit => CommitInv us vs c

/-- A call in progress: its operands hold values and stay (R22, R274), its divisor is nonzero (R100), and its context is
what its phase says. -/
def CallInv (s : State) : Prop :=
  ∃ (i : Instr) (us vs : List Limb),
    s.lw = some i.limbs ∧ s.numerator i.limbs = some us ∧ s.divisor i.limbs = some vs ∧ val vs ≠ 0 ∧
    ((s.phase = .norm ∧ s.ctx = none) ∨
      ∃ c0 c : Context, s.ctx = some c ∧ SameCall us vs c0 c ∧ PhaseInv s.phase us vs c0 c)

/-- R275: limbs `0 .. len-1` of a bank hold values, the limbs above none. -/
def Bank.holdsExactly (b : Bank) (len : Nat) : Prop := ∀ k : Fin limbMax, b[k.val].isSome = decide (k.val < len)

/-- The invariant of the machine. -/
structure State.Inv (s : State) : Prop where
  /-- R28: `BUSY = 1` exactly while a call lasts. -/
  busy_iff : s.busy = true ↔ s.phase ≠ .idle
  /-- R27: `BUSY` and `DONE` are never both 1. -/
  not_both : ¬ (s.busy = true ∧ s.done = true)
  /-- R29, R178: outside a call no context item holds a value. -/
  no_context : s.phase = .idle → s.lw = none ∧ s.ctx = none
  /-- R23, R275: `Q` and `R` hold no value until a commit and during a call. -/
  no_results : s.done = false → s.q = Bank.noValue ∧ s.r = Bank.noValue
  /-- R27, R275: `DONE = 1` says limbs `0 .. L-1` of both hold values, and no limb above. -/
  results : s.done = true → ∃ i : Instr, s.q.holdsExactly i.limbs ∧ s.r.holdsExactly i.limbs
  /-- A call in progress is as its phase says. -/
  call : s.phase ≠ .idle → CallInv s

/-! ## Step counts -/

/-- R276: the engine steps of a call with counts `n` and `m`, from the accepted command (not counted) to the commit. -/
def callSteps (n m : Nat) : Nat :=
  match selectRoute n m with
  | .earlyExit => 2
  | .by1 => m + 2
  | .by2 => m + 1
  | .cf42 => 3
  | .cf64 => 3
  | .knuth => m - n + 3

/-- R189, R276: the engine steps a call in progress has still to take, its commit counted. In a loop phase these are the
iterations `J .. 0`, the exit and the commit. -/
def State.rowsLeft (s : State) : Nat :=
  match s.phase with
  | .idle => 0
  | .norm =>
    match s.lw with
    | none => 0
    | some len =>
      match s.numerator len, s.divisor len with
      | some us, some vs =>
        match normalize us vs with
        | some c => callSteps c.nd c.m
        | none => 0
      | _, _ => 0
  | .by1 => loopRowsLeft s.ctx
  | .by2 => loopRowsLeft s.ctx
  | .cf42 => 2
  | .cf64 => 2
  | .knuth => loopRowsLeft s.ctx
  | .commit => 1
where
  /-- The rows left in a loop phase. -/
  loopRowsLeft : Option Context → Nat
    | none => 0
    | some c =>
      match c.j with
      | none => 0
      | some j => (j + 3).toNat

end Sys2Proof.Machine
end

