-- ==== Sys2Proof/Certificates/Slice0/Obligations.lean ====
section
/-! DEFINITION. The statements for the provers, in the order of the spec: encoding, address map, reset, host accesses, the DIV
command, normalization and dispatch, the paths, the commit, the whole machine. -/

open Sys2Proof Sys2Proof.Machine

/-! ## Encoding (30_encoding.md) -/

/-- R72, R73: the five words, each written from the table of R73, and the limb counts and widths of R72. -/
def Obligations.CommandWordsDecodeToTheirWidths : Prop :=
  decode 0x0000000000000010#64 = .ok .div256 ∧ decode 0x0000000000000011#64 = .ok .div512 ∧
  decode 0x0000000000000012#64 = .ok .div1024 ∧ decode 0x0000000000000013#64 = .ok .div2048 ∧
  decode 0x0000000000000014#64 = .ok .div4096 ∧
  Instr.limbs .div256 = 4 ∧ Instr.limbs .div512 = 8 ∧ Instr.limbs .div1024 = 16 ∧ Instr.limbs .div2048 = 32 ∧
  Instr.limbs .div4096 = 64 ∧
  Instr.bits .div256 = 256 ∧ Instr.bits .div512 = 512 ∧ Instr.bits .div1024 = 1024 ∧ Instr.bits .div2048 = 2048 ∧
  Instr.bits .div4096 = 4096 ∧
  widthOfWsel 0b101 = none ∧ widthOfWsel 0b110 = none ∧ widthOfWsel 0b111 = none

/-- R73, R74: over all 64 bits, a word decodes to an instruction exactly when it is that instruction's word. -/
def Obligations.DecodeAcceptsExactlyTheEncodedWord : Prop :=
  ∀ (w : Limb) (i : Instr), decode w = .ok i ↔ w = encode i

/-- R74, R242: every other word written to `CMD` faults and starts no call, and so does, in a build with fewer widths, the
command of a width left out. -/
def Obligations.ReservedCommandFaults : Prop :=
  (∀ (s : State) (w : Limb), s.busy = false → (∀ i, w ≠ encode i) → hostWrite 0x100 w s = .fault .illegalCommand) ∧
  (∀ (widths : List Nat) (i : Instr) (s : State), s.busy = false → i.bits ∉ widths →
    startDivide widths i s = .fault .illegalCommand)

/-! ## The address map and the host's accesses (20_memory.md, R186, R187, 60_exceptions.md) -/

/-- R51: the register at every word address. -/
def Obligations.AddressMapNamesEveryRegister : Prop :=
  (∀ i : Fin limbMax, regAt (0x000 + i.val) = some (.u i) ∧ regAt (0x040 + i.val) = some (.v i) ∧
    regAt (0x080 + i.val) = some (.q i) ∧ regAt (0x0C0 + i.val) = some (.r i)) ∧
  regAt 0x100 = some .cmd ∧ regAt 0x101 = some .status ∧ (∀ a, 0x102 ≤ a → regAt a = none) ∧
  (∀ a reg, regAt a = some reg ↔ a = reg.addr)

/-- R246, R248: the address and the direction are checked first, whatever the block is doing. -/
def Obligations.WrongAccessFaultsFirst : Prop :=
  (∀ (a : Nat) (x : Limb) (s : State), (0x080 ≤ a ∧ a ≠ 0x100) → hostWrite a x s = .fault .badAccess) ∧
  (∀ (a : Nat) (s : State), (a = 0x100 ∨ 0x102 ≤ a) → hostRead a s = .fault .badAccess)

/-- R243: during a call a write to `CMD`, `U` or `V` faults; reads of `STATUS`, `U` and `V` go on, reads of `Q` and `R` fault
because those limbs hold no value. -/
def Obligations.BusyBlockRefusesWritesAndAllowsReads : Prop :=
  ∀ s : State, s.Inv → s.busy = true →
    (∀ (a : Nat) (x : Limb), (a < 0x080 ∨ a = 0x100) → hostWrite a x s = .fault .busy) ∧
    hostRead 0x101 s = .next { s with reads := s.reads ++ [1] } ∧
    (∀ (i : Fin limbMax) (x : Limb), s.u[i.val] = some x →
      hostRead (0x000 + i.val) s = .next { s with reads := s.reads ++ [x] }) ∧
    (∀ (i : Fin limbMax) (x : Limb), s.v[i.val] = some x →
      hostRead (0x040 + i.val) s = .next { s with reads := s.reads ++ [x] }) ∧
    (∀ i : Fin limbMax, hostRead (0x080 + i.val) s = .fault .uninit ∧ hostRead (0x0C0 + i.val) s = .fault .uninit)

/-- R186, R55: an idle block's operand limb takes the whole value written, and only that limb changes. -/
def Obligations.OperandWriteTakesEffectOnThatLimbOnly : Prop :=
  ∀ (s : State) (x : Limb) (i : Fin limbMax), s.busy = false →
    hostWrite (0x000 + i.val) x s = .next { s with u := s.u.set i.val (some x) } ∧
    hostWrite (0x040 + i.val) x s = .next { s with v := s.v.set i.val (some x) } ∧
    (∀ t : State, hostWrite (0x000 + i.val) x s = .next t →
      t.readWord (0x000 + i.val) = .ok x ∧ ∀ a, a ≠ 0x000 + i.val → t.readWord a = s.readWord a) ∧
    (∀ t : State, hostWrite (0x040 + i.val) x s = .next t →
      t.readWord (0x040 + i.val) = .ok x ∧ ∀ a, a ≠ 0x040 + i.val → t.readWord a = s.readWord a)

/-- R187, R244 (a): what a host read returns for every register of the map; it changes nothing but what the host has seen. -/
def Obligations.HostReadReturnsTheLimbOrFaults : Prop :=
  (∀ s : State, ∃ x : Limb, x.toNat = s.busy.toNat + 2 * s.done.toNat ∧
    hostRead 0x101 s = .next { s with reads := s.reads ++ [x] }) ∧
  (∀ (s : State) (i : Fin limbMax) (x : Limb),
    (s.u[i.val] = some x → hostRead (0x000 + i.val) s = .next { s with reads := s.reads ++ [x] }) ∧
    (s.v[i.val] = some x → hostRead (0x040 + i.val) s = .next { s with reads := s.reads ++ [x] }) ∧
    (s.q[i.val] = some x → hostRead (0x080 + i.val) s = .next { s with reads := s.reads ++ [x] }) ∧
    (s.r[i.val] = some x → hostRead (0x0C0 + i.val) s = .next { s with reads := s.reads ++ [x] })) ∧
  (∀ (s : State) (i : Fin limbMax),
    (s.u[i.val] = none → hostRead (0x000 + i.val) s = .fault .uninit) ∧
    (s.v[i.val] = none → hostRead (0x040 + i.val) s = .fault .uninit) ∧
    (s.q[i.val] = none → hostRead (0x080 + i.val) s = .fault .uninit) ∧
    (s.r[i.val] = none → hostRead (0x0C0 + i.val) s = .fault .uninit))

/-- R275, R187: `Q` and `R` are readable after a commit, exactly at the limbs below the last call's limb count. -/
def Obligations.ResultsReadableExactlyWhileDone : Prop :=
  ∀ s : State, s.Inv →
    (s.done = false → ∀ i : Fin limbMax,
      hostRead (0x080 + i.val) s = .fault .uninit ∧ hostRead (0x0C0 + i.val) s = .fault .uninit) ∧
    (s.done = true → ∃ w : Instr, ∀ i : Fin limbMax,
      (i.val < w.limbs → ∃ x y : Limb,
        hostRead (0x080 + i.val) s = .next { s with reads := s.reads ++ [x] } ∧
        hostRead (0x0C0 + i.val) s = .next { s with reads := s.reads ++ [y] }) ∧
      (w.limbs ≤ i.val →
        hostRead (0x080 + i.val) s = .fault .uninit ∧ hostRead (0x0C0 + i.val) s = .fault .uninit))

/-- R27: a read of `STATUS` gives 0, 1 or 2, and 1 exactly during a call (R28). -/
def Obligations.StatusIsZeroOneOrTwo : Prop :=
  ∀ s : State, s.Inv →
    (s.statusWord = 0 ∨ s.statusWord = 1 ∨ s.statusWord = 2) ∧ (s.statusWord = 1 ↔ s.phase ≠ .idle)

/-- R77 (a `WAIT` as a host item is the model's, log entry 7): a turn of `WAIT` reads `STATUS` and repeats while `DONE` reads 0. -/
def Obligations.WaitRepeatsUntilDone : Prop :=
  ∀ s : State,
    (s.done = true → hostStep .wait s = .next { s with reads := s.reads ++ [s.statusWord] }) ∧
    (s.done = false → hostStep .wait s =
      .next { s with reads := s.reads ++ [s.statusWord], pending := .wait :: s.pending })

/-- R77: the pseudo-instructions on an idle block. `LDU<N>` and `LDV<N>` write the literal's limbs to limbs `0 .. N/64 - 1` of
their bank, the zero ones too, and nothing else; `RDQ<N>` and `RDR<N>` read limbs `0 .. N/64 - 1` in that order, and fault
where one of them holds no value. -/
def Obligations.PseudoInstructionsLoadAndRead : Prop :=
  ∀ (w : Instr) (s : State), s.phase = .idle →
    (∀ x : Nat, x < 2 ^ w.bits → s.busy = false →
      (∃ t xs, Sys2Proof.core.run w.limbs (s.withProgram [.ldu w x]) = .next t ∧ t.numerator w.limbs = some xs ∧ val xs = x ∧
        (∀ k : Fin limbMax, w.limbs ≤ k.val → t.u[k.val] = s.u[k.val]) ∧ t = { s with u := t.u, pending := [] }) ∧
      (∃ t xs, Sys2Proof.core.run w.limbs (s.withProgram [.ldv w x]) = .next t ∧ t.divisor w.limbs = some xs ∧ val xs = x ∧
        (∀ k : Fin limbMax, w.limbs ≤ k.val → t.v[k.val] = s.v[k.val]) ∧ t = { s with v := t.v, pending := [] })) ∧
    (∀ xs : List Limb, s.q.readPrefix w.limbs = some xs →
      Sys2Proof.core.run w.limbs (s.withProgram [.rdq w]) = .next { s with reads := s.reads ++ xs, pending := [] }) ∧
    (∀ xs : List Limb, s.r.readPrefix w.limbs = some xs →
      Sys2Proof.core.run w.limbs (s.withProgram [.rdr w]) = .next { s with reads := s.reads ++ xs, pending := [] }) ∧
    (s.q.readPrefix w.limbs = none → Sys2Proof.core.run w.limbs (s.withProgram [.rdq w]) = .fault .uninit) ∧
    (s.r.readPrefix w.limbs = none → Sys2Proof.core.run w.limbs (s.withProgram [.rdr w]) = .fault .uninit)

/-! ## Reset (70_reset_and_hazards.md) -/

/-- R33: the reset state; reading or commanding it faults, and a host write gives a limb a value. That `J` too holds no value is
the model's (log entry 22). -/
def Obligations.ResetStateHoldsNoValue : Prop :=
  State.reset.busy = false ∧ State.reset.done = false ∧ State.reset.phase = .idle ∧
  State.reset.lw = none ∧ State.reset.ctx = none ∧
  (∀ i : Fin limbMax, State.reset.u[i.val] = none ∧ State.reset.v[i.val] = none ∧
    State.reset.q[i.val] = none ∧ State.reset.r[i.val] = none) ∧
  (∀ a, a < 0x100 → hostRead a State.reset = .fault .uninit) ∧
  (∀ i : Instr, exec i State.reset = .fault .uninit) ∧
  (∀ (a : Nat) (x : Limb), a < 0x080 → ∃ t, hostWrite a x State.reset = .next t ∧ t.readWord a = .ok x)

/-- R270: the reset event puts the block into the reset state from any state, a call in progress and a fault included. What the
host has still to do and has seen is not the block's and stays; after a fault it is empty (both the model's, log entry 8). -/
def Obligations.ResetEventFromAnyState : Prop :=
  (∀ s : State, ∃ t, hostStep .reset s = .next t ∧
    t = { State.reset with pending := s.pending, turns := s.turns, reads := s.reads }) ∧
  (∀ f : Fault, resetRun (.fault f) = .next State.reset)

/-! ## The DIV instructions (R180 to R185) -/

/-- A step runs the decoded command (that commands come as pending host writes is the model's, log entry 5): the host's next access being the write of an instruction's word to `CMD`, the step is
`exec` of that instruction with the access done. `withFetchWord` puts a word there. -/
def Obligations.StepRunsTheDecodedCommand : Prop :=
  (∀ (s : State) (w : Limb) (i : Instr) (rest : List HostOp),
    s.phase = .idle → s.busy = false → s.pending = .write 0x100 w :: rest → decode w = .ok i →
    step s = exec i { s with pending := rest }) ∧
  (∀ (s : State) (w : Limb) (rest : List HostOp) (ts : List Agent),
    s.phase ≠ .idle → s.pending = .write 0x100 w :: rest → s.turns = .host :: ts →
    step s = writeCommand w { s with pending := rest, turns := ts }) ∧
  (∀ (s : State) (nbits w : Nat), step (s.withFetchWord nbits w) = writeCommand (tableWord nbits w) s)

/-- R180 to R185: every DIV, its operands written and its divisor nonzero, is accepted by an idle block: the limb count is
latched, `Q` and `R` lose their values, `BUSY` is set and `DONE` cleared, the sequencer is at `NORM`; nothing else changes. -/
def Obligations.DivCommandIsAccepted : Prop :=
  ∀ (i : Instr) (s : State) (us vs : List Limb),
    s.busy = false → s.numerator i.limbs = some us → s.divisor i.limbs = some vs → val vs ≠ 0 →
    exec i s = .next { s with
      lw := some i.limbs, q := Bank.noValue, r := Bank.noValue, busy := true, done := false, phase := .norm }

/-- R180, R241, R243, R244 (b), R248: where a DIV faults, first match first. Only limbs `0 .. L-1` are looked at. -/
def Obligations.DivFaultsInOrder : Prop :=
  ∀ (i : Instr) (s : State),
    (s.busy = true → exec i s = .fault .busy) ∧
    (s.busy = false → (∃ k : Fin limbMax, k.val < i.limbs ∧ (s.u[k.val] = none ∨ s.v[k.val] = none)) →
      exec i s = .fault .uninit) ∧
    (s.busy = false →
      (∀ k : Fin limbMax, k.val < i.limbs → s.u[k.val].isSome = true ∧ s.v[k.val] = some 0) →
      exec i s = .fault .divisorZero)

/-- The frame of every DIV's command: each word of `U` and `V` reads as before, each word of `Q` and `R` holds no value,
`STATUS` reads 1, and the environment is as it was. -/
def Obligations.DivCommandFrame : Prop :=
  ∀ (i : Instr) (s t : State), exec i s = .next t →
    (∀ a, a < 0x080 → t.readWord a = s.readWord a) ∧
    (∀ a, 0x080 ≤ a → a < 0x100 → t.readWord a = .error .uninit) ∧
    t.readWord 0x101 = .ok 1 ∧ t.ctx = s.ctx ∧ t.pending = s.pending ∧ t.turns = s.turns ∧ t.reads = s.reads

/-! ## The consumed units (46_primitives.md) and the helpers (44_knuth.md) -/

/-- R210: 64 for zero; for a nonzero limb the count `z` with `2^63 <= x * 2^z < 2^64`. -/
def Obligations.LeadingZeroCountIsExact : Prop :=
  leadingZeroCount 0 = 64 ∧
  ∀ (x : Limb) (z : Nat), x ≠ 0 → (leadingZeroCount x = z ↔ z ≤ 63 ∧ 2 ^ (63 - z) ≤ x.toNat ∧ x.toNat < 2 ^ (64 - z))

/-- R212, R220: within the precondition, the unique quotient and remainder limbs, whatever the reciprocal's value; outside
it, no value. -/
def Obligations.Divide2by1IsExact : Prop :=
  ∀ u1 u0 d rcp : Limb,
    (2 ^ 63 ≤ d.toNat → u1.toNat < d.toNat → ∀ q r : Limb,
      divide2by1 u1 u0 d rcp = some (q, r) ↔
        (u1.toNat * limbBase + u0.toNat = q.toNat * d.toNat + r.toNat ∧ r.toNat < d.toNat)) ∧
    (¬ (2 ^ 63 ≤ d.toNat ∧ u1.toNat < d.toNat) → divide2by1 u1 u0 d rcp = none)

/-- R214, R220: the same for the 3-by-2 division by a limb pair. -/
def Obligations.Divide3by2IsExact : Prop :=
  ∀ u2 u1 u0 d1 d0 rcp : Limb,
    (2 ^ 63 ≤ d1.toNat → u2.toNat * limbBase + u1.toNat < d1.toNat * limbBase + d0.toNat → ∀ q r1 r0 : Limb,
      divide3by2 u2 u1 u0 d1 d0 rcp = some (q, r1, r0) ↔
        (u2.toNat * limbBase ^ 2 + u1.toNat * limbBase + u0.toNat =
            q.toNat * (d1.toNat * limbBase + d0.toNat) + (r1.toNat * limbBase + r0.toNat) ∧
          r1.toNat * limbBase + r0.toNat < d1.toNat * limbBase + d0.toNat)) ∧
    (¬ (2 ^ 63 ≤ d1.toNat ∧ u2.toNat * limbBase + u1.toNat < d1.toNat * limbBase + d0.toNat) →
      divide3by2 u2 u1 u0 d1 d0 rcp = none)

/-- R219 (general knowledge, which no step uses: log entry 18): the realisation written out in the spec meets the contract of
R212. -/
def Obligations.RealisedDivide2by1MeetsItsContract : Prop :=
  ∀ u1 u0 d rcp : Limb, 2 ^ 63 ≤ d.toNat → u1.toNat < d.toNat →
    divide2by1 u1 u0 d rcp = some (realDivide2by1 u1 u0 d (realReciprocal1 d))

/-- R219 (general knowledge, log entry 18): the realised reciprocal of a limb pair equals its closed form. -/
def Obligations.RealisedReciprocalOfAPairHasItsClosedForm : Prop :=
  ∀ d1 d0 : Limb, 2 ^ 63 ≤ d1.toNat →
    (realReciprocal2 d1 d0).toNat + limbBase = (limbBase ^ 3 - 1) / (d1.toNat * limbBase + d0.toNat)

/-- R219 (general knowledge, which no step uses: log entry 18): the realisation written out in the spec meets the contract of
R214. -/
def Obligations.RealisedDivide3by2MeetsItsContract : Prop :=
  ∀ u2 u1 u0 d1 d0 rcp : Limb, 2 ^ 63 ≤ d1.toNat → pairVal u2 u1 < pairVal d1 d0 →
    divide3by2 u2 u1 u0 d1 d0 rcp = some (realDivide3by2 u2 u1 u0 d1 d0 (realReciprocal2 d1 d0))

/-- R151: `add` writes `len` limbs and returns a carry in {0, 1}; the identity determines both. -/
def Obligations.AddHelperIsExact : Prop :=
  ∀ (x y : List Limb) (len : Nat), 2 ≤ len → len ≤ x.length → len ≤ y.length →
    ∀ (dst : List Limb) (c : Nat), add x y len = some (dst, c) ↔
      (dst.length = len ∧ c ≤ 1 ∧ val dst + c * limbBase ^ len = val (x.take len) + val (y.take len))

/-- R152: `submul` writes `len` limbs and returns a full-limb borrow; the identity determines both. -/
def Obligations.SubmulHelperIsExact : Prop :=
  ∀ (x y : List Limb) (len : Nat) (mult : Limb), 1 ≤ len → len ≤ x.length → len ≤ y.length →
    ∀ (dst : List Limb) (b : Limb), submul x y len mult = some (dst, b) ↔
      (dst.length = len ∧
        val dst + val (y.take len) * mult.toNat = val (x.take len) + b.toNat * limbBase ^ len)

/-! ## Normalization and dispatch (41_normalization.md, 45_dispatch_div.md) -/

/-- R101, R102, R105, R106: on operands of one length with a nonzero divisor, normalization gives the divisor's limb count,
the shift that brings the divisor's top bit up, and the adjusted numerator count. -/
def Obligations.NormalizationCounts : Prop :=
  ∀ us vs : List Limb, us.length = vs.length → val vs ≠ 0 →
    ∃ (c : Context) (m0 : Nat), normalize us vs = some c ∧
      (1 ≤ c.nd ∧ c.nd ≤ vs.length ∧ vs.getD (c.nd - 1) 0 ≠ 0 ∧ ∀ i, c.nd ≤ i → vs.getD i 0 = 0) ∧
      (m0 ≤ us.length ∧ (m0 = 0 ∨ us.getD (m0 - 1) 0 ≠ 0) ∧ ∀ i, m0 ≤ i → us.getD i 0 = 0) ∧
      (c.s = leadingZeroCount (vs.getD (c.nd - 1) 0) ∧ c.s ≤ 63) ∧
      (m0 = 0 → c.m = 0) ∧
      (1 ≤ m0 → c.m = if c.un.getD m0 0 ≠ 0 ∨ (c.vn.getD (c.nd - 1) 0).toNat ≤ (c.un.getD (m0 - 1) 0).toNat
        then m0 + 1 else m0) ∧
      c.m ≤ us.length + 1

/-- R103, R107 (a) to (g): what holds after normalization. -/
def Obligations.NormalizationFacts : Prop :=
  ∀ (us vs : List Limb) (c : Context), us.length = vs.length → normalize us vs = some c →
    (c.un.length = us.length + 1 ∧ c.vn.length = vs.length ∧
      val c.un = val us * 2 ^ c.s ∧ val c.vn = val vs * 2 ^ c.s) ∧
    (2 ^ 63 ≤ (c.vn.getD (c.nd - 1) 0).toNat ∧ ∀ i, c.nd ≤ i → c.vn.getD i 0 = 0) ∧
    (∀ i, c.m ≤ i → c.un.getD i 0 = 0) ∧
    (1 ≤ c.m → (c.un.getD (c.m - 1) 0).toNat < (c.vn.getD (c.nd - 1) 0).toNat) ∧
    (val us / val vs = val c.un / val c.vn ∧ val c.un % val c.vn = (val us % val vs) * 2 ^ c.s) ∧
    (c.m < c.nd → val us < val vs) ∧
    (c.nd ≤ c.m → val us / val vs < limbBase ^ (c.m - c.nd)) ∧
    c.m ≤ us.length + 1

/-- R104: the shifted copies limb by limb; with `s = 0` they are plain copies. The two summands of a limb share no bit, so
their sum is also their bitwise or. -/
def Obligations.ShiftedCopiesLimbByLimb : Prop :=
  ∀ (us vs : List Limb) (s : Nat), us ≠ [] → us.length = vs.length → s ≤ 63 →
    (s = 0 → shiftedDivisor s vs = vs ∧ shiftedNumerator s us = us ++ [0]) ∧
    (0 < s →
      (shiftedDivisor s vs).getD 0 0 = vs.getD 0 0 <<< s ∧ (shiftedNumerator s us).getD 0 0 = us.getD 0 0 <<< s ∧
      (∀ i, 1 ≤ i → i < us.length →
        (shiftedDivisor s vs).getD i 0 = (vs.getD i 0 <<< s) + (vs.getD (i - 1) 0 >>> (64 - s)) ∧
        (shiftedNumerator s us).getD i 0 = (us.getD i 0 <<< s) + (us.getD (i - 1) 0 >>> (64 - s))) ∧
      (shiftedNumerator s us).getD us.length 0 = us.getD (us.length - 1) 0 >>> (64 - s) ∧
      (∀ x y : Limb, (x <<< s) &&& (y >>> (64 - s)) = 0 ∧ (x <<< s) + (y >>> (64 - s)) = (x <<< s) ||| (y >>> (64 - s))))

/-- R170 to R175, the `NORM` rows of R189: the `NORM` step of a call completes, builds the context, and goes on by the limb
counts; it writes nothing but the context and `PHASE`. -/
def Obligations.NormStepFollowsTheDispatch : Prop :=
  ∀ s : State, s.Inv → s.phase = .norm → ∃ (c : Context) (p : Phase),
    engineStep s = .next { s with ctx := some c, phase := p } ∧
    (c.m < c.nd → p = .commit) ∧
    (c.nd = 1 → 1 ≤ c.m → p = .by1) ∧
    (c.nd = 2 → c.m = 4 → p = .cf42) ∧
    (c.nd = 2 → 2 ≤ c.m → c.m ≠ 4 → p = .by2) ∧
    (c.nd = 4 → 4 ≤ c.m → c.m ≤ 6 → p = .cf64) ∧
    ((c.nd = 3 ∨ (c.nd = 4 ∧ 7 ≤ c.m) ∨ 5 ≤ c.nd) → c.nd ≤ c.m → p = .knuth)

/-- R121, R131, R141, R171, and R108's zeroed `QA`, `RA`: what the `NORM` step adds to the normalized context for the chosen
path. That `J` holds no value before a loop path sets it is the model's (log entry 22). -/
def Obligations.NormStepSetsUpThePath : Prop :=
  ∀ (us vs : List Limb) (c0 c : Context) (p : Phase),
    normalize us vs = some c0 → normContext us vs = some (c, p) →
    (c0.qa = List.replicate us.length 0 ∧ c0.ra = List.replicate us.length 0 ∧
      c0.rcp = none ∧ c0.rem1 = none ∧ c0.rem0 = none ∧ c0.j = none) ∧
    (p = .commit → c = { c0 with ra := us }) ∧
    (p = .cf42 → c = c0) ∧
    (p = .cf64 → c = c0) ∧
    (p = .by1 → ∃ d top : Limb, c0.vn[0]? = some d ∧ c0.un[c0.m - 1]? = some top ∧
      c = { c0 with
        un := c0.un.set (c0.m - 1) 0, rcp := some (Config.reciprocalFor1Limb d), rem0 := some top
        j := some ((c0.m : Int) - 2) }) ∧
    (p = .by2 → ∃ d1 d0 r1 r0 : Limb, c0.vn[1]? = some d1 ∧ c0.vn[0]? = some d0 ∧
      c0.un[c0.m - 1]? = some r1 ∧ c0.un[c0.m - 2]? = some r0 ∧
      c = { c0 with
        un := (c0.un.set (c0.m - 1) 0).set (c0.m - 2) 0, rcp := some (Config.reciprocalFor2Limb d1 d0)
        rem1 := some r1, rem0 := some r0, j := some ((c0.m : Int) - 3) }) ∧
    (p = .knuth → ∃ d1 d0 : Limb, c0.vn[c0.nd - 1]? = some d1 ∧ c0.vn[c0.nd - 2]? = some d0 ∧
      c = { c0 with rcp := some (Config.reciprocalFor2Limb d1 d0), j := some ((c0.m : Int) - c0.nd - 1) })

/-! ## The single- and double-limb paths (42, 43) -/

/-- R122: one `BY1` iteration divides the remainder and the next limb by the divisor limb; it writes `UN[J]`, `REM0`, `J`. -/
def Obligations.By1IterationDividesOneLimb : Prop :=
  ∀ (s : State) (len j : Nat) (c : Context) (r0 x d rcp : Limb),
    s.phase = .by1 → s.lw = some len → s.ctx = some c → c.j = some (j : Int) → c.rem0 = some r0 → c.un[j]? = some x →
    c.vn[0]? = some d → c.rcp = some rcp → 2 ^ 63 ≤ d.toNat → r0.toNat < d.toNat →
    ∃ q r : Limb, r0.toNat * limbBase + x.toNat = q.toNat * d.toNat + r.toNat ∧ r.toNat < d.toNat ∧
      engineStep s = .next { s with
        ctx := some { c with un := c.un.set j q, rem0 := some r, j := some ((j : Int) - 1) } }

/-- R123: the `BY1` exit takes the quotient from `UN` and shifts the remainder limb back. -/
def Obligations.By1ExitCollectsTheResult : Prop :=
  ∀ (s : State) (len : Nat) (c : Context) (r0 : Limb),
    s.phase = .by1 → s.lw = some len → s.ctx = some c → c.j = some (-1) → c.rem0 = some r0 → 1 ≤ len →
    len ≤ c.un.length →
    engineStep s = .next { s with
      phase := .commit
      ctx := some { c with qa := c.un.take len, ra := (r0 >>> c.s) :: List.replicate (len - 1) 0 } }

/-- R132: one `BY2` iteration divides the remainder pair and the next limb by the divisor pair. -/
def Obligations.By2IterationDividesOneLimb : Prop :=
  ∀ (s : State) (len j : Nat) (c : Context) (r1 r0 x d1 d0 rcp : Limb),
    s.phase = .by2 → s.lw = some len → s.ctx = some c → c.j = some (j : Int) → c.rem1 = some r1 → c.rem0 = some r0 →
    c.un[j]? = some x → c.vn[1]? = some d1 → c.vn[0]? = some d0 → c.rcp = some rcp → 2 ^ 63 ≤ d1.toNat →
    pairVal r1 r0 < pairVal d1 d0 →
    ∃ q t1 t0 : Limb, pairVal r1 r0 * limbBase + x.toNat = q.toNat * pairVal d1 d0 + pairVal t1 t0 ∧
      pairVal t1 t0 < pairVal d1 d0 ∧
      engineStep s = .next { s with
        ctx := some { c with un := c.un.set j q, rem1 := some t1, rem0 := some t0, j := some ((j : Int) - 1) } }

/-- R133: the `BY2` exit takes the quotient from `UN` and shifts the remainder pair back, as a value and limb by limb. -/
def Obligations.By2ExitCollectsTheResult : Prop :=
  ∀ (s : State) (len : Nat) (c : Context) (r1 r0 : Limb),
    s.phase = .by2 → s.lw = some len → s.ctx = some c → c.j = some (-1) → c.rem1 = some r1 → c.rem0 = some r0 → c.s ≤ 63 →
    2 ≤ len → len ≤ c.un.length →
    ∃ a1 a0 : Limb, pairVal a1 a0 = pairVal r1 r0 / 2 ^ c.s ∧
      (c.s = 0 → a1 = r1 ∧ a0 = r0) ∧
      (0 < c.s → a1 = r1 >>> c.s ∧ a0 = (r0 >>> c.s) + (r1 <<< (64 - c.s))) ∧
      engineStep s = .next { s with
        phase := .commit
        ctx := some { c with qa := c.un.take len, ra := a0 :: a1 :: List.replicate (len - 2) 0 } }

/-! ## The Knuth loop (44_knuth.md) -/

/-- R145: the overflow branch. The candidate `B - 1` is the quotient limb, the borrow equals `u2`, the top limb becomes 0 and
the window's low limbs hold what is left. -/
def Obligations.KnuthOverflowBranchIsExact : Prop :=
  ∀ (w vn : List Limb) (n : Nat) (rcp u2 u1 : Limb),
    3 ≤ n → w.length = n + 1 → n ≤ vn.length → 2 ^ 63 ≤ (vn.getD (n - 1) 0).toNat → val (w.drop 1) < val (vn.take n) →
    w[n]? = some u2 → w[n - 1]? = some u1 → vn[n - 1]? = some u2 → vn[n - 2]? = some u1 →
    ∃ (low : List Limb) (bor : Limb), submul w vn n (BitVec.allOnes 64) = some (low, bor) ∧ bor = u2 ∧
      knuthWindow w vn n rcp = some (BitVec.allOnes 64, low ++ [0]) ∧
      val low + (limbBase - 1) * val (vn.take n) = val w

/-- R146 to R149, R155: the normal branch, on any window the estimate's precondition admits. The estimate's remainder takes
the borrow as one pair; where the pair is smaller than the borrow, one is taken from the estimate and the divisor added back.
The window's top limb keeps `u2`. -/
def Obligations.KnuthNormalBranchFollowsTheListing : Prop :=
  ∀ (w vn : List Limb) (n : Nat) (rcp u2 u1 u0 d1 d0 qhat rh rl bor : Limb) (low : List Limb),
    3 ≤ n → w.length = n + 1 → n ≤ vn.length → w[n]? = some u2 → w[n - 1]? = some u1 → w[n - 2]? = some u0 →
    vn[n - 1]? = some d1 → vn[n - 2]? = some d0 → ¬ (u2 = d1 ∧ u1 = d0) →
    divide3by2 u2 u1 u0 d1 d0 rcp = some (qhat, rh, rl) → submul w vn (n - 2) qhat = some (low, bor) →
    (bor.toNat ≤ pairVal rh rl →
      knuthWindow w vn n rcp = some (qhat, low ++ [lo64 (pairVal rh rl - bor.toNat), hi64 (pairVal rh rl - bor.toNat), u2])) ∧
    (pairVal rh rl < bor.toNat → ∃ low' : List Limb,
      knuthWindow w vn n rcp = some (qhat - 1, low' ++ [u2]) ∧ low'.length = n ∧
      val low' = (val (low ++ [lo64 (pairVal rh rl + limbBase ^ 2 - bor.toNat),
        hi64 (pairVal rh rl + limbBase ^ 2 - bor.toNat)]) + val (vn.take n)) % limbBase ^ n)

/-- R154 (b), (c): in the normal branch the estimate's precondition holds and the estimate is the quotient limb or one more. -/
def Obligations.KnuthEstimateIsAtMostOneTooHigh : Prop :=
  ∀ (w vn : List Limb) (n : Nat) (rcp u2 u1 u0 d1 d0 : Limb),
    3 ≤ n → w.length = n + 1 → n ≤ vn.length → 2 ^ 63 ≤ d1.toNat → val (w.drop 1) < val (vn.take n) →
    w[n]? = some u2 → w[n - 1]? = some u1 → w[n - 2]? = some u0 → vn[n - 1]? = some d1 → vn[n - 2]? = some d0 →
    ¬ (u2 = d1 ∧ u1 = d0) →
    ∃ qhat rh rl : Limb, divide3by2 u2 u1 u0 d1 d0 rcp = some (qhat, rh, rl) ∧
      val w / val (vn.take n) ≤ qhat.toNat ∧ qhat.toNat ≤ val w / val (vn.take n) + 1

/-- R143, R150, R154 (e): one `KNUTH` iteration leaves the window's quotient limb in `QA[J]` and its remainder in the window's
low limbs; it writes the window, `QA[J]` and `J`, nothing else. -/
def Obligations.KnuthIterationIsExact : Prop :=
  ∀ (s : State) (len j : Nat) (c : Context) (rcp : Limb) (w : List Limb),
    s.phase = .knuth → s.lw = some len → s.ctx = some c → c.j = some (j : Int) → c.rcp = some rcp →
    3 ≤ c.nd → c.nd ≤ c.vn.length → j < c.qa.length → readLimbs c.un j (c.nd + 1) = some w →
    2 ^ 63 ≤ (c.vn.getD (c.nd - 1) 0).toNat → val (w.drop 1) < val (c.vn.take c.nd) →
    ∃ (qhat : Limb) (w' : List Limb), w'.length = c.nd + 1 ∧
      qhat.toNat = val w / val (c.vn.take c.nd) ∧ val (w'.take c.nd) = val w % val (c.vn.take c.nd) ∧
      engineStep s = .next { s with
        ctx := some { c with
          un := c.un.take j ++ w' ++ c.un.drop (j + (c.nd + 1)), qa := c.qa.set j qhat, j := some ((j : Int) - 1) } }

/-- R153, R176: the `KNUTH` exit de-normalizes the low `n` limbs of `UN`. -/
def Obligations.KnuthExitDenormalizes : Prop :=
  ∀ (s : State) (len : Nat) (c : Context),
    s.phase = .knuth → s.lw = some len → s.ctx = some c → c.j = some (-1) → c.s ≤ 63 → c.nd ≤ c.un.length → c.nd ≤ len →
    ∃ ra : List Limb, ra.length = len ∧ val ra = val (c.un.take c.nd) / 2 ^ c.s ∧
      engineStep s = .next { s with phase := .commit, ctx := some { c with ra := ra } }

/-! ## De-normalizer, closed forms, commit (45_dispatch_div.md) -/

/-- R176: the de-normalizer limb by limb and as a value. -/
def Obligations.DenormalizerShiftsBack : Prop :=
  ∀ (x : List Limb) (s len : Nat), x ≠ [] → x.length ≤ len → s ≤ 63 →
    (denormalize s len x).length = len ∧ val (denormalize s len x) = val x / 2 ^ s ∧
    (∀ i, x.length ≤ i → (denormalize s len x).getD i 0 = 0) ∧
    (s = 0 → ∀ i, i < x.length → (denormalize s len x).getD i 0 = x.getD i 0) ∧
    (0 < s →
      (∀ i, i + 1 < x.length → (denormalize s len x).getD i 0 = (x.getD i 0 >>> s) + (x.getD (i + 1) 0 <<< (64 - s))) ∧
      (denormalize s len x).getD (x.length - 1) 0 = x.getD (x.length - 1) 0 >>> s)

/-- R177, R215: the `CF42` step. -/
def Obligations.Cf42StepIsExact : Prop :=
  ∀ (s : State) (len : Nat) (c : Context) (d1 d0 : Limb),
    s.phase = .cf42 → s.lw = some len → s.ctx = some c → 4 ≤ c.un.length → 2 ≤ c.qa.length → 2 ≤ len → c.s ≤ 63 →
    c.vn[1]? = some d1 → c.vn[0]? = some d0 → 2 ^ 63 ≤ d1.toNat → val (c.un.take 4) < pairVal d1 d0 * limbBase ^ 2 →
    ∃ (q0 q1 : Limb) (ra : List Limb),
      pairVal q1 q0 = val (c.un.take 4) / pairVal d1 d0 ∧
      ra.length = len ∧ val ra = val (c.un.take 4) % pairVal d1 d0 / 2 ^ c.s ∧
      engineStep s = .next { s with
        phase := .commit, ctx := some { c with qa := (c.qa.set 0 q0).set 1 q1, ra := ra } }

/-- R177, R216: the `CF64` step; `UN[0 .. m-1]`, at most six limbs, by `VN[0 .. 3]`. -/
def Obligations.Cf64StepIsExact : Prop :=
  ∀ (s : State) (len : Nat) (c : Context) (d3 : Limb),
    s.phase = .cf64 → s.lw = some len → s.ctx = some c → 4 ≤ c.m → c.m ≤ 6 → c.m ≤ c.un.length → 4 ≤ c.vn.length →
    2 ≤ c.qa.length → 4 ≤ len → c.s ≤ 63 → c.vn[3]? = some d3 → 2 ^ 63 ≤ d3.toNat →
    val (c.un.take c.m) < val (c.vn.take 4) * limbBase ^ (c.m - 4) →
    ∃ (q0 q1 : Limb) (ra : List Limb),
      pairVal q1 q0 = val (c.un.take c.m) / val (c.vn.take 4) ∧
      ra.length = len ∧ val ra = val (c.un.take c.m) % val (c.vn.take 4) / 2 ^ c.s ∧
      engineStep s = .next { s with
        phase := .commit, ctx := some { c with qa := (c.qa.set 0 q0).set 1 q1, ra := ra } }

/-- R178, R56: the commit, in one step: limbs `0 .. L-1` of `Q` and `R`, both flags, the phase, and the end of the context
(`LW` with it by log entry 15, DEDUCED, and `J` by log entry 22, DESIGN CHOICE). -/
def Obligations.CommitWritesBothResultsAtOnce : Prop :=
  ∀ (s : State) (len : Nat) (c : Context),
    s.phase = .commit → s.lw = some len → s.ctx = some c → c.qa.length = len → c.ra.length = len → len ≤ limbMax →
    ∃ t : State, engineStep s = .next t ∧
      (∀ k : Fin limbMax,
        (k.val < len → t.q[k.val] = some (c.qa.getD k.val 0) ∧ t.r[k.val] = some (c.ra.getD k.val 0)) ∧
        (len ≤ k.val → t.q[k.val] = s.q[k.val] ∧ t.r[k.val] = s.r[k.val])) ∧
      t = { s with q := t.q, r := t.r, busy := false, done := true, phase := .idle, lw := none, ctx := none }

/-- R179: whatever the host did meanwhile, a commit delivers the quotient and the remainder of the operands. -/
def Obligations.CommitDeliversQuotientAndRemainder : Prop :=
  ∀ s : State, s.Inv → s.phase = .commit →
    ∃ (i : Instr) (us vs qs rs : List Limb) (t : State),
      s.lw = some i.limbs ∧ s.numerator i.limbs = some us ∧ s.divisor i.limbs = some vs ∧ val vs ≠ 0 ∧
      engineStep s = .next t ∧ t.q.readPrefix i.limbs = some qs ∧ t.r.readPrefix i.limbs = some rs ∧
      val qs = val us / val vs ∧ val rs = val us % val vs

/-! ## The whole machine -/

/-- R189, the rows after `NORM`: in every phase of a call exactly one row applies, the engine completes it, and the next
phase is the row's. -/
def Obligations.EngineTakesItsTableRow : Prop :=
  ∀ s : State, s.Inv → s.phase ≠ .idle → ∃ t : State, engineStep s = .next t ∧
    ((s.phase = .by1 ∨ s.phase = .by2 ∨ s.phase = .knuth) → ∃ (c : Context) (j : Int), s.ctx = some c ∧ c.j = some j ∧
      -1 ≤ j ∧ (0 ≤ j → t.phase = s.phase) ∧ (j = -1 → t.phase = .commit)) ∧
    ((s.phase = .cf42 ∨ s.phase = .cf64) → t.phase = .commit) ∧
    (s.phase = .commit → t.phase = .idle)

/-- R20, R58, R278 (the schedule `turns` and the stutter of an ended run are the model's, log entries 4 and 6): whose step is
next, in every case. An idle block's host does its next access; a call's engine moves when the host has nothing to do or no
turn left; else the next turn says. -/
def Obligations.NextStepFollowsTheTurns : Prop :=
  ∀ s : State,
    (s.phase = .idle → s.pending = [] → step s = .next s) ∧
    (∀ op rest, s.phase = .idle → s.pending = op :: rest → step s = hostStep op { s with pending := rest }) ∧
    (s.phase ≠ .idle → s.pending = [] → step s = engineStep s) ∧
    (s.phase ≠ .idle → s.turns = [] → step s = engineStep s) ∧
    (∀ op rest ts, s.phase ≠ .idle → s.pending = op :: rest → s.turns = .engine :: ts →
      step s = engineStep { s with turns := ts }) ∧
    (∀ op rest ts, s.phase ≠ .idle → s.pending = op :: rest → s.turns = .host :: ts →
      step s = hostStep op { s with pending := rest, turns := ts })

/-- R22, R23, R55: the frame of every engine step: the operands and the environment stay, and before the commit so do the
results, the flags and the latched limb count. -/
def Obligations.EngineStepFrame : Prop :=
  ∀ s t : State, engineStep s = .next t →
    (t.u = s.u ∧ t.v = s.v ∧ t.pending = s.pending ∧ t.turns = s.turns ∧ t.reads = s.reads) ∧
    (s.phase ≠ .commit → t.q = s.q ∧ t.r = s.r ∧ t.busy = s.busy ∧ t.done = s.done ∧ t.lw = s.lw)

/-- R22: `U` and `V` are written only by the host (or emptied by reset). -/
def Obligations.OnlyTheHostWritesOperands : Prop :=
  ∀ s t : State, step s = .next t → (t.u ≠ s.u ∨ t.v ≠ s.v) →
    ∃ (op : HostOp) (rest : List HostOp), s.pending = op :: rest ∧
      (op = .reset ∨ (s.busy = false ∧ ∃ (a : Nat) (x : Limb), a < 0x080 ∧ op = .write a x))

/-- R23: `Q` and `R` change only in the commit step, in the acceptance of a command, or by reset. -/
def Obligations.OnlyCommitAcceptAndResetChangeResults : Prop :=
  ∀ s t : State, step s = .next t → (t.q ≠ s.q ∨ t.r ≠ s.r) →
    (s.phase = .commit ∧ t.phase = .idle ∧ t.done = true) ∨
    (∃ (op : HostOp) (rest : List HostOp), s.pending = op :: rest ∧
      (op = .reset ∨ (s.busy = false ∧ t.busy = true ∧ t.q = Bank.noValue ∧ t.r = Bank.noValue ∧
        ∃ i : Instr, op = .write 0x100 (encode i))))

/-- R33: the reset state meets the invariant. -/
def Obligations.ResetMeetsTheInvariant : Prop := State.reset.Inv

/-- R27 to R29, R124, R134, R154, R275: every step of the machine, the engine's and the host's in any interleaving, keeps the
invariant. -/
def Obligations.StepKeepsTheInvariant : Prop :=
  ∀ s t : State, s.Inv → step s = .next t → t.Inv

/-- R25, R30: in a call the context's scalars are inside the ranges of their registers, and its arrays have the sizes a call
uses. `J` is meaningful in the loop phases only. -/
def Obligations.ContextFitsItsRegisters : Prop :=
  ∀ (s : State) (c : Context) (len : Nat), s.Inv → s.ctx = some c → s.lw = some len →
    (len = 4 ∨ len = 8 ∨ len = 16 ∨ len = 32 ∨ len = 64) ∧ c.un.length = len + 1 ∧ c.vn.length = len ∧
    c.qa.length = len ∧ c.ra.length = len ∧ c.s ≤ 63 ∧ c.m ≤ 65 ∧ 1 ≤ c.nd ∧ c.nd ≤ 64 ∧
    ((s.phase = .by1 ∨ s.phase = .by2 ∨ s.phase = .knuth) → ∃ j : Int, c.j = some j ∧ -1 ≤ j ∧ j ≤ 63)

/-- R28, R75: a call begins only when the host writes a command word to an idle block's `CMD`, and ends only at its commit
(or by reset): there is no other way out of it. -/
def Obligations.CallBeginsAtCommandAndEndsAtCommit : Prop :=
  ∀ s t : State, step s = .next t →
    (s.busy = false → t.busy = true → ∃ (i : Instr) (rest : List HostOp), s.pending = .write 0x100 (encode i) :: rest) ∧
    (s.busy = true → t.busy = false →
      (s.phase = .commit ∧ t.phase = .idle ∧ t.done = true) ∨ ∃ rest, s.pending = .reset :: rest)

/-- R245: `Fault(Contract)` is unreachable. -/
def Obligations.ContractFaultIsUnreachable : Prop :=
  ∀ s : State, s.Inv → step s ≠ .fault .contract

/-- R273: the list of host obligations is complete: a step faults exactly where the host does what it may not do. -/
def Obligations.FaultsExactlyWhereTheHostBreaksAnObligation : Prop :=
  ∀ s : State, s.Inv →
    ((∃ f, step s = .fault f) ↔ ∃ (op : HostOp) (t : State), s.nextMove = .host op t ∧ ¬ HostAllowed op t)

/-- R276, R277: from an accepted command, the number of engine steps to the end of the commit, by path, and its bound. It is
the same in any interleaving (the interleaving as plain data is the model's, log entry 4): each engine step takes one from the
rows left and no host access changes them. So whatever the host does meanwhile, a call comes, in as many steps as rows and
turns are left, to its commit, unless the host is about to fault or to reset the block. -/
def Obligations.CallTakesTheListedSteps : Prop :=
  (∀ (i : Instr) (s t : State) (us vs : List Limb) (c : Context),
    s.Inv → s.numerator i.limbs = some us → s.divisor i.limbs = some vs → normalize us vs = some c → exec i s = .next t →
    ∃ steps : Nat,
      (c.m < c.nd → steps = 2) ∧ (c.nd = 1 → 1 ≤ c.m → steps = c.m + 2) ∧
      (c.nd = 2 → 2 ≤ c.m → c.m ≠ 4 → steps = c.m + 1) ∧ (c.nd = 2 → c.m = 4 → steps = 3) ∧
      (c.nd = 4 → 4 ≤ c.m → c.m ≤ 6 → steps = 3) ∧
      ((c.nd = 3 ∨ (c.nd = 4 ∧ 7 ≤ c.m) ∨ 5 ≤ c.nd) → c.nd ≤ c.m → steps = c.m - c.nd + 3) ∧
      steps ≤ i.limbs + 3 ∧ t.rowsLeft = steps ∧
      (∀ k, k < steps → ∃ t', Sys2Proof.core.run k { t with pending := [] } = .next t' ∧ t'.busy = true) ∧
      ∃ t', Sys2Proof.core.run steps { t with pending := [] } = .next t' ∧ t'.busy = false ∧ t'.done = true) ∧
  (∀ s t : State, s.Inv → s.phase ≠ .idle → step s = .next t →
    (∀ e, s.nextMove = .engine e → t.rowsLeft + 1 = s.rowsLeft) ∧
    (∀ op e, s.nextMove = .host op e → op ≠ .reset → t.rowsLeft = s.rowsLeft)) ∧
  (∀ s : State, s.Inv → s.phase ≠ .idle →
    ∃ (k : Nat) (e : State), k < s.rowsLeft + s.turns.length ∧ Sys2Proof.core.run k s = .next e ∧ e.phase ≠ .idle ∧
      ((∃ f, step e = .fault f) ∨
        (∃ rest ts, e.pending = .reset :: rest ∧ e.turns = .host :: ts) ∨
        (e.phase = .commit ∧ ∃ t, step e = .next t ∧ t.phase = .idle ∧ t.busy = false ∧ t.done = true)))

/-- R179, R188 (a), R190: the headline. Every DIV, its operands written and its divisor nonzero, is accepted and runs to a
commit that leaves the exact quotient and remainder in `Q` and `R`, and the operands as they were. -/
def Obligations.DivisionComputesQuotientAndRemainder : Prop :=
  ∀ (i : Instr) (s : State) (us vs : List Limb),
    s.Inv → s.busy = false → s.numerator i.limbs = some us → s.divisor i.limbs = some vs → val vs ≠ 0 →
    ∃ (t0 t : State) (k : Nat) (qs rs : List Limb),
      exec i { s with pending := [] } = .next t0 ∧ k ≤ i.limbs + 3 ∧ Sys2Proof.core.run k t0 = .next t ∧
      t.busy = false ∧ t.done = true ∧ t.phase = .idle ∧
      t.q.readPrefix i.limbs = some qs ∧ t.r.readPrefix i.limbs = some rs ∧
      val qs = val us / val vs ∧ val rs = val us % val vs ∧
      val us = val qs * val vs + val rs ∧ val rs < val vs ∧
      t.q.holdsExactly i.limbs ∧ t.r.holdsExactly i.limbs ∧ t.u = s.u ∧ t.v = s.v ∧ t.reads = s.reads

/-- R188 (i): a call depends on `U[0 .. L-1]`, `V[0 .. L-1]` and `L` alone: two blocks that agree on these are in lockstep,
whatever their other limbs and their earlier calls. -/
def Obligations.ResultDependsOnOperandsAlone : Prop :=
  ∀ (i : Instr) (s1 s2 t1 t2 u1 u2 : State) (k : Nat),
    s1.Inv → s2.Inv → s1.numerator i.limbs = s2.numerator i.limbs → s1.divisor i.limbs = s2.divisor i.limbs →
    exec i { s1 with pending := [] } = .next t1 → exec i { s2 with pending := [] } = .next t2 →
    Sys2Proof.core.run k t1 = .next u1 → Sys2Proof.core.run k t2 = .next u2 →
    u1.q = u2.q ∧ u1.r = u2.r ∧ u1.busy = u2.busy ∧ u1.done = u2.done ∧ u1.phase = u2.phase ∧ u1.ctx = u2.ctx

/-- R252, R249, R270: instances share no state. Whatever the moves of a system and their order, what becomes of an instance is
what its own moves make of it: a step is its own step, a fault ends its run and no other's (log entry 20), and its reset, which
concerns it alone, begins a new one (with an empty environment after a fault: the model's, log entry 8). Each starts in the
reset state. -/
def Obligations.InstancesAreIndependent : Prop :=
  (∀ (ms : List SystemMove) (sys : List InstanceRun),
    (systemRun ms sys).length = sys.length ∧
    ∀ l, (systemRun ms sys)[l]? = sys[l]?.map fun r => (ms.filter fun m => m.target = l).foldl (fun r' m => m.act r') r) ∧
  (∀ (k : Nat) (s : State), (SystemMove.step k).act (.next s) = step s ∧
    (SystemMove.reset k).act (.next s) = hostStep .reset s) ∧
  (∀ (k : Nat) (f : Fault), (SystemMove.step k).act (.fault f) = .fault f ∧
    (SystemMove.reset k).act (.fault f) = .next State.reset) ∧
  (∀ n l, l < n → (resetInstances n)[l]? = some (.next State.reset))
end

