-- ==== Sys2Proof/Laws/Limbs.lean ====
section
/-! SUPPORT. Laws of limbs, limb arrays and banks. -/

namespace Sys2Proof.Machine

@[simp] theorem lo64_toNat (x : Nat) : (lo64 x).toNat = x % limbBase := by simp [lo64, limbBase]

@[simp] theorem hi64_toNat (x : Nat) : (hi64 x).toNat = x / limbBase % limbBase := by simp [hi64, limbBase]

theorem limb_lt (x : Limb) : x.toNat < limbBase := x.isLt

theorem lo64_of_lt {x : Nat} (h : x < limbBase) : (lo64 x).toNat = x := by simp [Nat.mod_eq_of_lt h]

theorem hi64_of_lt {x : Nat} (h : x < limbBase ^ 2) : (hi64 x).toNat = x / limbBase := by
  rw [hi64_toNat, Nat.mod_eq_of_lt (Nat.div_lt_of_lt_mul (by rwa [pow_two] at h))]

theorem pairVal_lt (h l : Limb) : pairVal h l < limbBase ^ 2 := by
  have h1 := h.isLt; have h2 := l.isLt; simp only [pairVal, limbBase]; omega

/-- A number below `B^2` is the pair of its two limbs. -/
theorem pairVal_hi_lo {x : Nat} (h : x < limbBase ^ 2) : pairVal (hi64 x) (lo64 x) = x := by
  rw [pairVal, hi64_of_lt h, lo64_toNat, Nat.div_add_mod']

@[simp] theorem val_nil : val [] = 0 := rfl

@[simp] theorem val_cons (x : Limb) (xs : List Limb) : val (x :: xs) = x.toNat + limbBase * val xs := rfl

theorem val_append (xs ys : List Limb) : val (xs ++ ys) = val xs + limbBase ^ xs.length * val ys := by
  induction xs with
  | nil => simp
  | cons x xs ih => simp only [List.cons_append, val_cons, ih, List.length_cons, pow_succ]; ring

theorem val_lt (xs : List Limb) : val xs < limbBase ^ xs.length := by
  induction xs with
  | nil => simp
  | cons x xs ih =>
    have hx := limb_lt x
    have h1 : limbBase * (val xs + 1) ≤ limbBase * limbBase ^ xs.length := Nat.mul_le_mul_left _ ih
    rw [Nat.mul_add] at h1
    rw [val_cons, List.length_cons, pow_succ']
    omega

@[simp] theorem val_replicate_zero (n : Nat) : val (List.replicate n 0#64) = 0 := by
  induction n with
  | zero => rfl
  | succ n ih => simp [List.replicate_succ, ih]

/-- Cutting an array in two splits its value. -/
theorem val_take_drop (xs : List Limb) (k : Nat) :
    val xs = val (xs.take k) + limbBase ^ (xs.take k).length * val (xs.drop k) := by
  rw [← val_append, List.take_append_drop]

@[simp] theorem val_padLimbs (len : Nat) (xs : List Limb) : val (padLimbs len xs) = val xs := by
  simp [padLimbs, val_append]

theorem padLimbs_length {len : Nat} {xs : List Limb} (h : xs.length ≤ len) : (padLimbs len xs).length = len := by
  simp [padLimbs]; omega

@[simp] theorem limbsOf_length (len x : Nat) : (limbsOf len x).length = len := by
  induction len generalizing x with
  | zero => rfl
  | succ n ih => simp [limbsOf, ih]

theorem val_limbsOf (len x : Nat) : val (limbsOf len x) = x % limbBase ^ len := by
  induction len generalizing x with
  | zero => simp [limbsOf, Nat.mod_one]
  | succ n ih =>
    simp only [limbsOf, val_cons, ih, lo64_toNat, pow_succ]
    rw [Nat.mul_comm (limbBase ^ n) limbBase, Nat.mod_mul]

theorem val_limbsOf_of_lt {len x : Nat} (h : x < limbBase ^ len) : val (limbsOf len x) = x := by
  rw [val_limbsOf, Nat.mod_eq_of_lt h]

theorem val_eq_zero_iff (xs : List Limb) : val xs = 0 ↔ ∀ x ∈ xs, x = 0 := by
  induction xs with
  | nil => simp
  | cons x xs ih =>
    have hx : x.toNat = 0 ↔ x = 0 := by
      constructor
      · intro h; exact BitVec.eq_of_toNat_eq (by simpa using h)
      · rintro rfl; rfl
    simp [hx, ih, limbBase_pos.ne']

/-! ## Significant limb counts (R13, R101) -/

theorem sigLimbs_le_length (xs : List Limb) : sigLimbs xs ≤ xs.length := by
  induction xs with
  | nil => simp [sigLimbs]
  | cons x xs ih =>
    simp only [sigLimbs, List.length_cons]
    split
    · split <;> omega
    · omega

/-- The count is 0 exactly for an all-zero array. -/
theorem sigLimbs_eq_zero_iff (xs : List Limb) : sigLimbs xs = 0 ↔ val xs = 0 := by
  induction xs with
  | nil => simp [sigLimbs]
  | cons x xs ih =>
    rw [val_eq_zero_iff] at ih ⊢
    simp only [sigLimbs, List.forall_mem_cons]
    split
    · rename_i h; rw [← ih]; simp [h]
    · rename_i k h; rw [← ih]; simp [h]

/-- The limb below the count is nonzero and every limb from the count on is zero (R101). -/
theorem sigLimbs_spec (xs : List Limb) (h : sigLimbs xs ≠ 0) :
    (∃ x, xs[sigLimbs xs - 1]? = some x ∧ x ≠ 0) ∧ val (xs.drop (sigLimbs xs)) = 0 := by
  induction xs with
  | nil => simp [sigLimbs] at h
  | cons x xs ih =>
    simp only [sigLimbs] at h ⊢
    split
    · rename_i h0
      have hz : val xs = 0 := (sigLimbs_eq_zero_iff xs).mp h0
      by_cases hx : x = 0
      · simp [h0, hx] at h
      · rw [if_neg hx]; simpa [hz] using hx
    · rename_i k hk
      have := ih (by omega)
      simpa [hk] using this

theorem val_lt_pow_sigLimbs (xs : List Limb) : val xs < limbBase ^ sigLimbs xs := by
  by_cases h : sigLimbs xs = 0
  · rw [h, (sigLimbs_eq_zero_iff xs).mp h]; simp
  · have hd := (sigLimbs_spec xs h).2
    have ht := val_lt (xs.take (sigLimbs xs))
    have hl : (xs.take (sigLimbs xs)).length = sigLimbs xs := by
      simp [sigLimbs_le_length]
    have hv := val_take_drop xs (sigLimbs xs)
    rw [hd, Nat.mul_zero, Nat.add_zero] at hv
    rw [hl] at ht
    omega

/-! ## Reading and writing part of an array (R217) -/

theorem readLimbs_eq_some {xs ys : List Limb} {start len : Nat} :
    readLimbs xs start len = some ys ↔ start + len ≤ xs.length ∧ ys = (xs.drop start).take len := by
  simp only [readLimbs]
  split
  · rename_i h; simp [h, eq_comm]
  · rename_i h; simp [h]

theorem readLimbs_length {xs ys : List Limb} {start len : Nat} (h : readLimbs xs start len = some ys) :
    ys.length = len := by
  obtain ⟨h1, rfl⟩ := readLimbs_eq_some.mp h
  simp; omega

theorem writeLimbs_eq_some {xs ys zs : List Limb} {start : Nat} :
    writeLimbs xs start ys = some zs ↔
      start + ys.length ≤ xs.length ∧ zs = xs.take start ++ ys ++ xs.drop (start + ys.length) := by
  simp only [writeLimbs]
  split
  · rename_i h; simp only [Option.some.injEq, h, true_and]; exact eq_comm
  · rename_i h; simp [h]

theorem writeLimbs_length {xs ys zs : List Limb} {start : Nat} (h : writeLimbs xs start ys = some zs) :
    zs.length = xs.length := by
  obtain ⟨h1, rfl⟩ := writeLimbs_eq_some.mp h
  simp; omega

theorem writeLimb_eq_some {xs zs : List Limb} {i : Nat} {x : Limb} :
    writeLimb xs i x = some zs ↔ i < xs.length ∧ zs = xs.set i x := by
  rw [writeLimb, writeLimbs_eq_some]
  simp only [List.length_singleton]
  constructor
  · rintro ⟨h, rfl⟩
    refine ⟨by omega, ?_⟩
    rw [List.set_eq_take_append_cons_drop, if_pos (by omega)]; simp
  · rintro ⟨h, rfl⟩
    refine ⟨by omega, ?_⟩
    rw [List.set_eq_take_append_cons_drop, if_pos h]; simp

/-! ## Banks (R21) -/

theorem allSome_map_some (ys : List Limb) : allSome (ys.map some) = some ys := by
  induction ys with
  | nil => rfl
  | cons y ys ih => simp [allSome, ih]

/-- Every entry holds a value exactly when the list is the image of its values. -/
theorem allSome_eq_some {xs : List (Option Limb)} {ys : List Limb} : allSome xs = some ys ↔ xs = ys.map some := by
  refine ⟨fun h => ?_, fun h => h ▸ allSome_map_some ys⟩
  induction xs generalizing ys with
  | nil => rw [← Option.some.inj h]; rfl
  | cons x xs ih =>
    cases x with
    | none => simp [allSome] at h
    | some x =>
      cases hx : allSome xs with
      | none => simp [allSome, hx] at h
      | some zs =>
        simp only [allSome, hx, Option.some.injEq] at h
        rw [← h, ih hx]; rfl

/-- What reading the low limbs of a bank says: each holds the value read (R244). -/
theorem readPrefix_eq_some {b : Bank} {len : Nat} {xs : List Limb} :
    b.readPrefix len = some xs ↔ b.toList.take len = xs.map some := allSome_eq_some

theorem readPrefix_length {b : Bank} {len : Nat} {xs : List Limb} (h : b.readPrefix len = some xs)
    (hlen : len ≤ limbMax) : xs.length = len := by
  have := congrArg List.length (readPrefix_eq_some.mp h)
  simp [limbMax] at *; omega

/-- A written limb holds the value, every other limb what it held. -/
theorem bank_write_get (b : Bank) (i k : Fin limbMax) (x : Limb) :
    (b.write i x)[k.val] = if k = i then some x else b[k.val] := by
  by_cases h : k = i
  · subst h; simp [Bank.write]
  · have : i.val ≠ k.val := fun e => h (Fin.ext e.symm)
    simp [Bank.write, h, this]

theorem writePrefix_get (b : Bank) (xs : List Limb) (k : Fin limbMax) :
    (b.writePrefix xs)[k.val] = (xs[k.val]?).or b[k.val] := by
  simp [Bank.writePrefix]

@[simp] theorem noValue_get (k : Fin limbMax) : Bank.noValue[k.val] = none := by
  simp [Bank.noValue]

/-- What was committed is what is read back (R178). -/
theorem readPrefix_writePrefix (b : Bank) (xs : List Limb) (h : xs.length ≤ limbMax) :
    (b.writePrefix xs).readPrefix xs.length = some xs := by
  rw [readPrefix_eq_some]
  apply List.ext_getElem?
  intro k
  rw [List.getElem?_take, List.getElem?_map]
  split
  · rename_i hk
    have hk' : k < limbMax := by omega
    have := writePrefix_get b xs ⟨k, hk'⟩
    simp only at this
    simp [hk', this, List.getElem?_eq_getElem hk]
  · rename_i hk; simp [List.getElem?_eq_none (by omega : xs.length ≤ k)]

end Sys2Proof.Machine
end

