-- ==== Sys2Proof/Laws/Primitives.lean ====
section
/-! SUPPORT. One lemma per consumed unit and per limb loop that says all it does. -/

namespace Sys2Proof.Machine

/-! ## Shifts of limbs by part of a limb -/

theorem limbBase_split {s : Nat} (hs : s ≤ 64) : limbBase = 2 ^ (64 - s) * 2 ^ s := by
  rw [← pow_add, Nat.sub_add_cancel hs]; rfl

/-- The bits a left shift keeps in the limb. -/
theorem shl_toNat (x : Limb) {s : Nat} (hs : s ≤ 64) : (x <<< s).toNat = x.toNat % 2 ^ (64 - s) * 2 ^ s := by
  rw [BitVec.toNat_shiftLeft, Nat.shiftLeft_eq, show (2 : Nat) ^ 64 = 2 ^ (64 - s) * 2 ^ s from limbBase_split hs,
    Nat.mul_mod_mul_right]

theorem shr_toNat (x : Limb) (s : Nat) : (x >>> s).toNat = x.toNat / 2 ^ s := by
  rw [BitVec.toNat_ushiftRight, Nat.shiftRight_eq_div_pow]

/-- R104: the two summands of a shifted limb never overlap, so the sum does not wrap. -/
theorem shiftJoin_toNat (x y : Limb) {s : Nat} (hs : s ≤ 64) :
    ((x <<< s) + (y >>> (64 - s))).toNat = x.toNat % 2 ^ (64 - s) * 2 ^ s + y.toNat / 2 ^ (64 - s) := by
  rw [BitVec.toNat_add, shl_toNat x hs, shr_toNat]
  apply Nat.mod_eq_of_lt
  have h1 : x.toNat % 2 ^ (64 - s) + 1 ≤ 2 ^ (64 - s) := Nat.mod_lt _ (by positivity)
  have h2 : y.toNat / 2 ^ (64 - s) < 2 ^ s :=
    Nat.div_lt_of_lt_mul (by rw [← limbBase_split hs]; exact limb_lt y)
  have h3 := Nat.mul_le_mul_right (2 ^ s) h1
  rw [← limbBase_split hs, Nat.add_mul, limbBase] at h3
  omega

@[simp] theorem shiftLeftLimbs_length (s : Nat) (low : Limb) (xs : List Limb) :
    (shiftLeftLimbs s low xs).length = xs.length := by
  induction xs generalizing low with
  | nil => rfl
  | cons x xs ih => simp [shiftLeftLimbs, ih]

/-- R103, R104: the shifted limbs and the bits shifted out of the top limb are the value times `2^s`, above the bits that
enter from the limb below. -/
theorem val_shiftLeftLimbs (s : Nat) (low : Limb) (xs : List Limb) (hs : s ≤ 64) :
    val (shiftLeftLimbs s low xs) + limbBase ^ xs.length * ((xs.getLastD low).toNat / 2 ^ (64 - s)) =
      val xs * 2 ^ s + low.toNat / 2 ^ (64 - s) := by
  induction xs generalizing low with
  | nil => simp [shiftLeftLimbs]
  | cons x xs ih =>
    have hx := Nat.div_add_mod x.toNat (2 ^ (64 - s))
    have := ih x
    rw [List.getLastD_cons, shiftLeftLimbs, val_cons, val_cons, shiftJoin_toNat x low hs, List.length_cons, pow_succ']
    calc _ = x.toNat % 2 ^ (64 - s) * 2 ^ s + low.toNat / 2 ^ (64 - s) +
          limbBase * (val (shiftLeftLimbs s x xs) + limbBase ^ xs.length * ((xs.getLastD x).toNat / 2 ^ (64 - s))) := by ring
      _ = x.toNat % 2 ^ (64 - s) * 2 ^ s + low.toNat / 2 ^ (64 - s) +
          (limbBase * val xs * 2 ^ s + limbBase * (x.toNat / 2 ^ (64 - s))) := by rw [this]; ring
      _ = (x.toNat % 2 ^ (64 - s) + 2 ^ (64 - s) * (x.toNat / 2 ^ (64 - s))) * 2 ^ s + low.toNat / 2 ^ (64 - s) +
          limbBase * val xs * 2 ^ s := by
            rw [show limbBase * (x.toNat / 2 ^ (64 - s)) = 2 ^ (64 - s) * 2 ^ s * (x.toNat / 2 ^ (64 - s)) by
              rw [← limbBase_split hs]]
            ring
      _ = _ := by rw [Nat.add_comm (x.toNat % _), hx]; ring

@[simp] theorem shiftRightLimbs_length (s : Nat) (xs : List Limb) : (shiftRightLimbs s xs).length = xs.length := by
  induction xs with
  | nil => rfl
  | cons x xs ih =>
    cases xs with
    | nil => rfl
    | cons y ys => simpa [shiftRightLimbs] using ih

/-- R176: shifting the limbs right divides the value by `2^s`. -/
theorem val_shiftRightLimbs (s : Nat) (xs : List Limb) (hs : s ≤ 64) :
    val (shiftRightLimbs s xs) = val xs / 2 ^ s := by
  induction xs with
  | nil => simp [shiftRightLimbs]
  | cons x xs ih =>
    cases xs with
    | nil => simp [shiftRightLimbs, Nat.shiftRight_eq_div_pow]
    | cons y ys =>
      have hj : ((x >>> s) + (y <<< (64 - s))).toNat = x.toNat / 2 ^ s + y.toNat % 2 ^ s * 2 ^ (64 - s) := by
        have h := shiftJoin_toNat y x (s := 64 - s) (by omega)
        rw [show 64 - (64 - s) = s by omega] at h
        rw [BitVec.add_comm, h, Nat.add_comm]
      have hy : val (y :: ys) % 2 ^ s = y.toNat % 2 ^ s := by
        rw [val_cons, limbBase_split hs, Nat.mul_comm (2 ^ (64 - s)), Nat.mul_assoc, Nat.add_mul_mod_self_left]
      have hY := Nat.div_add_mod (val (y :: ys)) (2 ^ s)
      rw [shiftRightLimbs, val_cons, ih, hj, val_cons x]
      have : x.toNat + limbBase * val (y :: ys) = x.toNat +
          2 ^ s * (y.toNat % 2 ^ s * 2 ^ (64 - s) + limbBase * (val (y :: ys) / 2 ^ s)) := by
        rw [hy] at hY
        conv_lhs => rw [← hY]
        conv_lhs => rw [Nat.mul_add, limbBase_split hs]
        conv_rhs => rw [limbBase_split hs]
        ring
      rw [this, Nat.add_mul_div_left _ _ (by positivity)]
      ring

/-! ## The helpers `add` and `submul` -/

@[simp] theorem addLoop_length (xs ys : List Limb) (c : Nat) : (addLoop xs ys c).1.length = min xs.length ys.length := by
  induction xs generalizing ys c with
  | nil => simp [addLoop]
  | cons x xs ih => cases ys <;> simp [addLoop, ih]

/-- R151: the sum limbs and the carry out, from carry `c`. -/
theorem addLoop_val (xs ys : List Limb) (c : Nat) (h : xs.length = ys.length) :
    val (addLoop xs ys c).1 + (addLoop xs ys c).2 * limbBase ^ xs.length = val xs + val ys + c := by
  induction xs generalizing ys c with
  | nil => cases ys <;> simp_all [addLoop]
  | cons x xs ih =>
    cases ys with
    | nil => simp at h
    | cons y ys =>
      have := ih ys ((x.toNat + y.toNat + c) / limbBase) (by simpa using h)
      have hm := Nat.div_add_mod (x.toNat + y.toNat + c) limbBase
      simp only [addLoop, val_cons, lo64_toNat, List.length_cons, pow_succ']
      linear_combination hm + limbBase * this

/-- R151: the carry is a carry: at most 1 if the carry in is. -/
theorem addLoop_carry_le (xs ys : List Limb) (c : Nat) (hc : c ≤ 1) : (addLoop xs ys c).2 ≤ 1 := by
  induction xs generalizing ys c with
  | nil => simpa [addLoop] using hc
  | cons x xs ih =>
    cases ys with
    | nil => simpa [addLoop] using hc
    | cons y ys =>
      refine ih ys _ ?_
      have := limb_lt x; have := limb_lt y
      simp only [limbBase] at *; omega

theorem add_eq_some {x y : List Limb} {len : Nat} {r : List Limb × Nat} :
    add x y len = some r ↔
      (2 ≤ len ∧ len ≤ x.length ∧ len ≤ y.length) ∧ r = addLoop (x.take len) (y.take len) 0 := by
  simp only [add]
  split
  · rename_i h; simp only [Option.some.injEq, h, true_and, and_self]; exact eq_comm
  · rename_i h; simp [h]

@[simp] theorem submulLoop_length (mult : Limb) (xs ys : List Limb) (b : Limb) :
    (submulLoop mult xs ys b).1.length = min xs.length ys.length := by
  induction xs generalizing ys b with
  | nil => simp [submulLoop]
  | cons x xs ih => cases ys <;> simp [submulLoop, ih]

/-- R152: one limb of `submul`: the limb written, the new borrow, which stays below `B`, and what they amount to. -/
theorem submul_limb (x y mult b : Limb) :
    (x - lo64 (y.toNat * mult.toNat + b.toNat)).toNat + (y.toNat * mult.toNat + b.toNat) =
      x.toNat + limbBase * (hi64 (y.toNat * mult.toNat + b.toNat) +
        (if x.toNat < (lo64 (y.toNat * mult.toNat + b.toNat)).toNat then 1 else 0 : Limb)).toNat := by
  have hx := limb_lt x
  have hb := limb_lt b
  have hp : y.toNat * mult.toNat + b.toNat ≤ limbBase * limbBase - limbBase := by
    have h := Nat.mul_le_mul (Nat.le_pred_of_lt (limb_lt y)) (Nat.le_pred_of_lt (limb_lt mult))
    simp only [limbBase, Nat.pred_eq_sub_one] at *; omega
  generalize y.toNat * mult.toNat + b.toNat = p at *
  have hd := Nat.div_add_mod p limbBase
  have hm := Nat.mod_lt p limbBase_pos
  have hh : p / limbBase < limbBase - 1 ∨ p / limbBase = limbBase - 1 ∧ p % limbBase = 0 := by
    simp only [limbBase] at *; omega
  rw [BitVec.toNat_sub, BitVec.toNat_add, hi64_toNat, lo64_toNat]
  split <;> simp only [limbBase, BitVec.ofNat_eq_ofNat, BitVec.toNat_ofNat] at * <;> omega

/-- R152: the difference limbs and the borrow out, from borrow `b`. -/
theorem submulLoop_val (mult : Limb) (xs ys : List Limb) (b : Limb) (h : xs.length = ys.length) :
    val (submulLoop mult xs ys b).1 + val ys * mult.toNat + b.toNat =
      val xs + (submulLoop mult xs ys b).2.toNat * limbBase ^ xs.length := by
  induction xs generalizing ys b with
  | nil => cases ys <;> simp_all [submulLoop]
  | cons x xs ih =>
    cases ys with
    | nil => simp at h
    | cons y ys =>
      have h1 := ih ys (hi64 (y.toNat * mult.toNat + b.toNat) +
        (if x.toNat < (lo64 (y.toNat * mult.toNat + b.toNat)).toNat then 1 else 0 : Limb)) (by simpa using h)
      have h2 := submul_limb x y mult b
      simp only [submulLoop, val_cons, List.length_cons, pow_succ']
      linear_combination h2 + limbBase * h1

theorem submul_eq_some {x y : List Limb} {len : Nat} {mult : Limb} {r : List Limb × Limb} :
    submul x y len mult = some r ↔
      (1 ≤ len ∧ len ≤ x.length ∧ len ≤ y.length) ∧ r = submulLoop mult (x.take len) (y.take len) 0 := by
  simp only [submul]
  split
  · rename_i h; simp only [Option.some.injEq, h, true_and, and_self]; exact eq_comm
  · rename_i h; simp [h]

/-! ## The division units -/

/-- What a quotient and a remainder by a limb pair amount to. -/
theorem divide2by1_eq_some {u1 u0 d rcp q r : Limb} :
    divide2by1 u1 u0 d rcp = some (q, r) ↔
      2 ^ 63 ≤ d.toNat ∧ u1.toNat < d.toNat ∧
        q = lo64 (pairVal u1 u0 / d.toNat) ∧ r = lo64 (pairVal u1 u0 % d.toNat) := by
  simp only [divide2by1]
  split
  · rename_i h; simp only [Option.some.injEq, Prod.mk.injEq, h, true_and, eq_comm (b := q), eq_comm (b := r)]
  · rename_i h
    simp only [reduceCtorEq, false_iff]
    rintro ⟨h1, h2, -⟩; exact h ⟨h1, h2⟩

theorem divide3by2_eq_some {u2 u1 u0 d1 d0 rcp q r1 r0 : Limb} :
    divide3by2 u2 u1 u0 d1 d0 rcp = some (q, r1, r0) ↔
      2 ^ 63 ≤ d1.toNat ∧ pairVal u2 u1 < pairVal d1 d0 ∧
        q = lo64 (tripleVal u2 u1 u0 / pairVal d1 d0) ∧
        r1 = hi64 (tripleVal u2 u1 u0 % pairVal d1 d0) ∧ r0 = lo64 (tripleVal u2 u1 u0 % pairVal d1 d0) := by
  simp only [divide3by2]
  split
  · rename_i h
    simp only [Option.some.injEq, Prod.mk.injEq, h, true_and, eq_comm (b := q), eq_comm (b := r1), eq_comm (b := r0)]
  · rename_i h
    simp only [reduceCtorEq, false_iff]
    rintro ⟨h1, h2, -⟩; exact h ⟨h1, h2⟩

/-- A quotient by `d` of a number below `d * B` fits a limb (R212, R214). -/
theorem div_lt_limbBase {a d : Nat} (h : a < d * limbBase) : a / d < limbBase :=
  Nat.div_lt_of_lt_mul h

theorem tripleVal_lt {u2 u1 u0 : Limb} {d : Nat} (h : pairVal u2 u1 < d) : tripleVal u2 u1 u0 < d * limbBase := by
  have h0 := limb_lt u0
  have h1 := Nat.mul_le_mul_right limbBase h
  rw [Nat.succ_mul] at h1
  rw [tripleVal]; omega

end Sys2Proof.Machine
end

