-- ==== Sys2Proof/Laws/Normalize.lean ====
section
/-! SUPPORT. What the normalization engine's parts do. -/

namespace Sys2Proof.Machine

@[simp] theorem shiftedDivisor_length (s : Nat) (vs : List Limb) : (shiftedDivisor s vs).length = vs.length := by
  simp only [shiftedDivisor]; split <;> simp

@[simp] theorem shiftedNumerator_length (s : Nat) (us : List Limb) :
    (shiftedNumerator s us).length = us.length + 1 := by
  simp only [shiftedNumerator]; split <;> simp

/-- R103: no bit of the numerator is lost. -/
theorem val_shiftedNumerator (s : Nat) (us : List Limb) (hs : s ≤ 64) :
    val (shiftedNumerator s us) = val us * 2 ^ s := by
  simp only [shiftedNumerator]
  split
  · rename_i h; simp [h, val_append]
  · have := val_shiftLeftLimbs s 0 us hs
    simp only [BitVec.ofNat_eq_ofNat, BitVec.toNat_ofNat, Nat.zero_mod, Nat.zero_div, Nat.add_zero] at this
    rw [val_append, shiftLeftLimbs_length, val_cons, val_nil, shr_toNat, Nat.mul_zero, Nat.add_zero]
    exact this

/-- R103: the divisor's shifted copy, and what its top limb loses (nothing where the shift is the leading-zero count). -/
theorem val_shiftedDivisor (s : Nat) (vs : List Limb) (hs : s ≤ 64) :
    val (shiftedDivisor s vs) + limbBase ^ vs.length * ((vs.getLastD 0).toNat * 2 ^ s / limbBase) = val vs * 2 ^ s := by
  have hsplit : (vs.getLastD 0).toNat * 2 ^ s / limbBase = (vs.getLastD 0).toNat / 2 ^ (64 - s) := by
    rw [limbBase_split hs, Nat.mul_div_mul_right _ _ (by positivity)]
  simp only [shiftedDivisor]
  split
  · rename_i h; subst h
    rw [hsplit, Nat.div_eq_of_lt (by simpa [limbBase] using limb_lt (vs.getLastD 0))]; simp
  · have := val_shiftLeftLimbs s 0 vs hs
    simp only [BitVec.ofNat_eq_ofNat, BitVec.toNat_ofNat, Nat.zero_mod, Nat.zero_div, Nat.add_zero] at this
    rw [hsplit]; exact this

/-- R210: a nonzero limb has at most 63 leading zeros, and shifted left by them has its top bit set. -/
theorem leadingZeroCount_spec {x : Limb} (h : x ≠ 0) :
    leadingZeroCount x ≤ 63 ∧ 2 ^ 63 ≤ x.toNat * 2 ^ leadingZeroCount x ∧
      x.toNat * 2 ^ leadingZeroCount x < 2 ^ 64 := by
  have hx : x.toNat ≠ 0 := fun e => h (BitVec.eq_of_toNat_eq (by simpa using e))
  have hlog : Nat.log2 x.toNat < 64 := (Nat.log2_lt hx).mpr x.isLt
  have hle := Nat.log2_self_le hx
  have hlt := Nat.lt_log2_self (n := x.toNat)
  rw [leadingZeroCount, if_neg h]
  refine ⟨by omega, ?_, ?_⟩
  · calc 2 ^ 63 = 2 ^ Nat.log2 x.toNat * 2 ^ (63 - Nat.log2 x.toNat) := by rw [← pow_add]; congr 1; omega
      _ ≤ _ := Nat.mul_le_mul_right _ hle
  · calc _ < 2 ^ (Nat.log2 x.toNat + 1) * 2 ^ (63 - Nat.log2 x.toNat) :=
          Nat.mul_lt_mul_of_pos_right hlt (by positivity)
      _ = 2 ^ 64 := by rw [← pow_add]; congr 1; omega

/-- What `NORM`'s context is made of (R101 to R106, R108). -/
theorem normalize_eq_some {us vs : List Limb} {c : Context} (h : normalize us vs = some c) :
    sigLimbs vs ≠ 0 ∧ ∃ top, vs[sigLimbs vs - 1]? = some top ∧
      c.s = leadingZeroCount top ∧ c.nd = sigLimbs vs ∧ c.vn = shiftedDivisor c.s vs ∧ c.un = shiftedNumerator c.s us ∧
      adjustedCount c.un c.vn (sigLimbs us) c.nd = some c.m ∧
      c.qa = List.replicate us.length 0 ∧ c.ra = List.replicate us.length 0 ∧
      c.rcp = none ∧ c.rem1 = none ∧ c.rem0 = none ∧ c.j = none := by
  simp only [normalize] at h
  split at h
  · cases h
  · rename_i hn
    split at h
    · cases h
    · rename_i top ht
      split at h
      · cases h
      · rename_i m hm
        cases h
        exact ⟨hn, top, ht, rfl, rfl, rfl, rfl, hm, rfl, rfl, rfl, rfl, rfl, rfl⟩

end Sys2Proof.Machine
end

