-- ==== Sys2Proof/Laws/PerInstr.lean ====
section
/-! SUPPORT. What holds of every instruction as syntax, one lemma per constructor. -/

namespace Sys2Proof.Laws.CommandWord

/-- An instruction is well formed in this build, its word decodes to it, and its width is 64 bits for each limb. -/
def Statement (i : Instr) : Prop :=
  i.wf Config.widths = true ∧ decode (encode i) = .ok i ∧ decodeTableWord 64 (encode i).toNat = some i ∧
    i.bits = 64 * i.limbs

theorem div256 : Statement .div256 := ⟨rfl, rfl, rfl, rfl⟩
theorem div512 : Statement .div512 := ⟨rfl, rfl, rfl, rfl⟩
theorem div1024 : Statement .div1024 := ⟨rfl, rfl, rfl, rfl⟩
theorem div2048 : Statement .div2048 := ⟨rfl, rfl, rfl, rfl⟩
theorem div4096 : Statement .div4096 := ⟨rfl, rfl, rfl, rfl⟩

end Sys2Proof.Laws.CommandWord
end

