-- ==== Sys2Proof/Laws/State.lean ====
section
/-! SUPPORT. One lemma per field per named update of the state, so that no later proof unfolds an update. -/

namespace Sys2Proof.Machine

@[simp] theorem flagsAccept_u (s : State) : s.flagsAccept.u = s.u := rfl
@[simp] theorem flagsAccept_v (s : State) : s.flagsAccept.v = s.v := rfl
@[simp] theorem flagsAccept_q (s : State) : s.flagsAccept.q = s.q := rfl
@[simp] theorem flagsAccept_r (s : State) : s.flagsAccept.r = s.r := rfl
@[simp] theorem flagsAccept_busy (s : State) : s.flagsAccept.busy = true := rfl
@[simp] theorem flagsAccept_done (s : State) : s.flagsAccept.done = false := rfl
@[simp] theorem flagsAccept_phase (s : State) : s.flagsAccept.phase = s.phase := rfl
@[simp] theorem flagsAccept_lw (s : State) : s.flagsAccept.lw = s.lw := rfl
@[simp] theorem flagsAccept_ctx (s : State) : s.flagsAccept.ctx = s.ctx := rfl
@[simp] theorem flagsAccept_pending (s : State) : s.flagsAccept.pending = s.pending := rfl
@[simp] theorem flagsAccept_turns (s : State) : s.flagsAccept.turns = s.turns := rfl
@[simp] theorem flagsAccept_reads (s : State) : s.flagsAccept.reads = s.reads := rfl

@[simp] theorem flagsCommit_u (s : State) : s.flagsCommit.u = s.u := rfl
@[simp] theorem flagsCommit_v (s : State) : s.flagsCommit.v = s.v := rfl
@[simp] theorem flagsCommit_q (s : State) : s.flagsCommit.q = s.q := rfl
@[simp] theorem flagsCommit_r (s : State) : s.flagsCommit.r = s.r := rfl
@[simp] theorem flagsCommit_busy (s : State) : s.flagsCommit.busy = false := rfl
@[simp] theorem flagsCommit_done (s : State) : s.flagsCommit.done = true := rfl
@[simp] theorem flagsCommit_phase (s : State) : s.flagsCommit.phase = s.phase := rfl
@[simp] theorem flagsCommit_lw (s : State) : s.flagsCommit.lw = s.lw := rfl
@[simp] theorem flagsCommit_ctx (s : State) : s.flagsCommit.ctx = s.ctx := rfl
@[simp] theorem flagsCommit_pending (s : State) : s.flagsCommit.pending = s.pending := rfl
@[simp] theorem flagsCommit_turns (s : State) : s.flagsCommit.turns = s.turns := rfl
@[simp] theorem flagsCommit_reads (s : State) : s.flagsCommit.reads = s.reads := rfl

@[simp] theorem applyReset_u (s : State) : s.applyReset.u = Bank.noValue := rfl
@[simp] theorem applyReset_v (s : State) : s.applyReset.v = Bank.noValue := rfl
@[simp] theorem applyReset_q (s : State) : s.applyReset.q = Bank.noValue := rfl
@[simp] theorem applyReset_r (s : State) : s.applyReset.r = Bank.noValue := rfl
@[simp] theorem applyReset_busy (s : State) : s.applyReset.busy = false := rfl
@[simp] theorem applyReset_done (s : State) : s.applyReset.done = false := rfl
@[simp] theorem applyReset_phase (s : State) : s.applyReset.phase = .idle := rfl
@[simp] theorem applyReset_lw (s : State) : s.applyReset.lw = none := rfl
@[simp] theorem applyReset_ctx (s : State) : s.applyReset.ctx = none := rfl
@[simp] theorem applyReset_pending (s : State) : s.applyReset.pending = s.pending := rfl
@[simp] theorem applyReset_turns (s : State) : s.applyReset.turns = s.turns := rfl
@[simp] theorem applyReset_reads (s : State) : s.applyReset.reads = s.reads := rfl

@[simp] theorem issueCommand_u (s : State) (w : Limb) : (s.issueCommand w).u = s.u := rfl
@[simp] theorem issueCommand_v (s : State) (w : Limb) : (s.issueCommand w).v = s.v := rfl
@[simp] theorem issueCommand_q (s : State) (w : Limb) : (s.issueCommand w).q = s.q := rfl
@[simp] theorem issueCommand_r (s : State) (w : Limb) : (s.issueCommand w).r = s.r := rfl
@[simp] theorem issueCommand_busy (s : State) (w : Limb) : (s.issueCommand w).busy = s.busy := rfl
@[simp] theorem issueCommand_done (s : State) (w : Limb) : (s.issueCommand w).done = s.done := rfl
@[simp] theorem issueCommand_phase (s : State) (w : Limb) : (s.issueCommand w).phase = s.phase := rfl
@[simp] theorem issueCommand_lw (s : State) (w : Limb) : (s.issueCommand w).lw = s.lw := rfl
@[simp] theorem issueCommand_ctx (s : State) (w : Limb) : (s.issueCommand w).ctx = s.ctx := rfl
@[simp] theorem issueCommand_reads (s : State) (w : Limb) : (s.issueCommand w).reads = s.reads := rfl
@[simp] theorem issueCommand_pending (s : State) (w : Limb) :
    (s.issueCommand w).pending = .write Reg.cmd.addr w :: s.pending := rfl
@[simp] theorem issueCommand_turns (s : State) (w : Limb) :
    (s.issueCommand w).turns = if s.phase = .idle then s.turns else .host :: s.turns := rfl

@[simp] theorem withProgram_u (s : State) (p : List HostLine) : (s.withProgram p).u = s.u := rfl
@[simp] theorem withProgram_v (s : State) (p : List HostLine) : (s.withProgram p).v = s.v := rfl
@[simp] theorem withProgram_q (s : State) (p : List HostLine) : (s.withProgram p).q = s.q := rfl
@[simp] theorem withProgram_r (s : State) (p : List HostLine) : (s.withProgram p).r = s.r := rfl
@[simp] theorem withProgram_busy (s : State) (p : List HostLine) : (s.withProgram p).busy = s.busy := rfl
@[simp] theorem withProgram_done (s : State) (p : List HostLine) : (s.withProgram p).done = s.done := rfl
@[simp] theorem withProgram_phase (s : State) (p : List HostLine) : (s.withProgram p).phase = s.phase := rfl
@[simp] theorem withProgram_lw (s : State) (p : List HostLine) : (s.withProgram p).lw = s.lw := rfl
@[simp] theorem withProgram_ctx (s : State) (p : List HostLine) : (s.withProgram p).ctx = s.ctx := rfl
@[simp] theorem withProgram_turns (s : State) (p : List HostLine) : (s.withProgram p).turns = s.turns := rfl
@[simp] theorem withProgram_reads (s : State) (p : List HostLine) : (s.withProgram p).reads = s.reads := rfl
@[simp] theorem withProgram_pending (s : State) (p : List HostLine) : (s.withProgram p).pending = programOps p := rfl

/-- The operands are read from their banks alone. -/
theorem numerator_congr {s t : State} (h : t.u = s.u) (len : Nat) : t.numerator len = s.numerator len := by
  simp [State.numerator, h]

theorem divisor_congr {s t : State} (h : t.v = s.v) (len : Nat) : t.divisor len = s.divisor len := by
  simp [State.divisor, h]

end Sys2Proof.Machine
end

