-- ==== Sys2Proof/Laws/Step.lean ====
section
/-! SUPPORT. What each step function can do, said once: if it answers a next state, then one of these holds. -/

namespace Sys2Proof.Machine

/-! ## The command -/

/-- Every width of the table is one of this build's. -/
@[simp] theorem wf_all_widths (i : Instr) : i.wf Config.widths = true := by cases i <;> decide

/-- Every arm is the generic DIV of its instruction (R180 to R185). -/
theorem exec_eq_startDivide (i : Instr) (s : State) : exec i s = startDivide Config.widths i s := by
  cases i <;> rfl

/-- R180: when a command is accepted, and the state after. -/
theorem startDivide_eq_next {widths : List Nat} {i : Instr} {s t : State} :
    startDivide widths i s = .next t ↔
      s.busy = false ∧ i.wf widths = true ∧
        (∃ us vs, s.numerator i.limbs = some us ∧ s.divisor i.limbs = some vs ∧ val vs ≠ 0) ∧
        t = { s.flagsAccept with lw := some i.limbs, q := Bank.noValue, r := Bank.noValue, phase := .norm } := by
  unfold startDivide raise
  cases hb : s.busy <;> cases hw : i.wf widths <;>
    cases hu : s.numerator i.limbs <;> cases hv : s.divisor i.limbs <;> simp
  rename_i us vs
  by_cases hz : val vs = 0
  · simp [hz]
  · simp [hz, eq_comm]

theorem limbs_le_max (i : Instr) : i.limbs ≤ limbMax := by cases i <;> decide

theorem limbs_ge_four (i : Instr) : 4 ≤ i.limbs := by cases i <;> decide

/-! ## The host's accesses -/

/-- R186: what a host write can do. -/
theorem hostWrite_next {a : Nat} {x : Limb} {s t : State} (h : hostWrite a x s = .next t) :
    (∃ i, regAt a = some (.u i) ∧ s.busy = false ∧ t = { s with u := s.u.write i x }) ∨
    (∃ i, regAt a = some (.v i) ∧ s.busy = false ∧ t = { s with v := s.v.write i x }) ∨
    (regAt a = some .cmd ∧ s.busy = false ∧ ∃ i, decode x = .ok i ∧ exec i s = .next t) := by
  unfold hostWrite raise at h
  split at h
  · rename_i ha
    unfold writeCommand raise at h
    cases hb : s.busy with
    | true => simp [hb] at h
    | false =>
      cases hd : decode x with
      | error e => simp [hb, hd] at h
      | ok i => exact .inr (.inr ⟨ha, rfl, i, rfl, by simpa [hb, hd] using h⟩)
  · rename_i i ha
    cases hb : s.busy with
    | true => simp [hb] at h
    | false => exact .inl ⟨i, ha, rfl, by simpa [hb, eq_comm] using h⟩
  · rename_i i ha
    cases hb : s.busy with
    | true => simp [hb] at h
    | false => exact .inr (.inl ⟨i, ha, rfl, by simpa [hb, eq_comm] using h⟩)
  all_goals simp at h

/-- R187: a host read returns a word and changes nothing in the block. -/
theorem hostRead_eq_next {a : Nat} {s t : State} :
    hostRead a s = .next t ↔ ∃ x, s.readWord a = .ok x ∧ t = { s with reads := s.reads ++ [x] } := by
  unfold hostRead raise
  cases s.readWord a <;> simp [eq_comm]

/-- R77: what one turn of the `WAIT` loop does. -/
theorem hostWait_eq (s : State) :
    hostWait s = .next { s with
      reads := s.reads ++ [s.statusWord], pending := if s.done then s.pending else .wait :: s.pending } := by
  unfold hostWait
  cases s.done <;> simp

/-! ## The engine -/

@[simp] theorem orContract_eq_next {o : Option State} {t : State} : orContract o = .next t ↔ o = some t := by
  cases o <;> simp [orContract, raise]

theorem orContract_fault {o : Option State} {f : Fault} (h : orContract o = .fault f) : f = .contract ∧ o = none := by
  cases o <;> simp [orContract, raise] at h
  exact ⟨h.symm, rfl⟩

theorem normContext_eq_some {us vs : List Limb} {c : Context} {p : Phase} :
    normContext us vs = some (c, p) ↔
      ∃ c0, normalize us vs = some c0 ∧ setUpRoute us c0 (selectRoute c0.nd c0.m) = some c ∧
        p = (selectRoute c0.nd c0.m).phase := by
  unfold normContext
  cases normalize us vs with
  | none => simp
  | some c0 => cases h : setUpRoute us c0 (selectRoute c0.nd c0.m) <;> simp [h, eq_comm]

theorem normStep_eq_some {s t : State} :
    normStep s = some t ↔
      ∃ len us vs c p, s.lw = some len ∧ s.numerator len = some us ∧ s.divisor len = some vs ∧
        normContext us vs = some (c, p) ∧ t = { s with ctx := some c, phase := p } := by
  unfold normStep
  cases hl : s.lw with
  | none => simp
  | some len =>
    cases hu : s.numerator len <;> cases hv : s.divisor len <;> simp [hu, hv]
    rename_i us vs
    rcases hc : normContext us vs with - | ⟨c, p⟩
    · simp
    · simp only [Option.some.injEq, Prod.mk.injEq]
      constructor
      · rintro rfl; exact ⟨c, p, ⟨rfl, rfl⟩, rfl⟩
      · rintro ⟨_, _, ⟨rfl, rfl⟩, rfl⟩; rfl

theorem loopStep_eq_some {p : Phase} {iterate : Context → Nat → Option Context}
    {exit : Nat → Context → Option Context} {s t : State} :
    loopStep p iterate exit s = some t ↔
      ∃ len c c', s.lw = some len ∧ s.ctx = some c ∧
        ((∃ j : Nat, c.j = some (j : Int) ∧ iterate c j = some c' ∧ t = { s with ctx := some c', phase := p }) ∨
          (c.j = some (-1) ∧ exit len c = some c' ∧ t = { s with ctx := some c', phase := .commit })) := by
  unfold loopStep
  cases hl : s.lw with
  | none => simp
  | some len =>
    cases hc : s.ctx with
    | none => simp
    | some c =>
      cases hj : c.j with
      | none => simp [hj]
      | some j =>
        by_cases h0 : 0 ≤ j
        · obtain ⟨k, rfl⟩ := Int.eq_ofNat_of_zero_le h0
          have hk : (k : Int) ≠ -1 := by omega
          cases hi : iterate c k <;> simp [hj, hi, hk, eq_comm]
        · have hn : ∀ k : Nat, j ≠ (k : Int) := by intro k; omega
          by_cases h1 : j = -1
          · subst h1
            cases he : exit len c <;> simp [hj, he, eq_comm]
          · simp [hj, h0, h1, hn]

theorem routineStep_eq_some {routine : Nat → Context → Option Context} {s t : State} :
    routineStep routine s = some t ↔
      ∃ len c c', s.lw = some len ∧ s.ctx = some c ∧ routine len c = some c' ∧
        t = { s with ctx := some c', phase := .commit } := by
  unfold routineStep
  cases hl : s.lw <;> cases hc : s.ctx <;> simp
  rename_i len c
  cases hr : routine len c <;> simp [eq_comm]

theorem commitStep_eq_some {s t : State} :
    commitStep s = some t ↔
      ∃ len c qa ra, s.lw = some len ∧ s.ctx = some c ∧ readLimbs c.qa 0 len = some qa ∧ readLimbs c.ra 0 len = some ra ∧
        t = { s.flagsCommit with
          q := s.q.writePrefix qa, r := s.r.writePrefix ra, phase := .idle, lw := none, ctx := none } := by
  unfold commitStep
  cases hl : s.lw <;> cases hc : s.ctx <;> simp
  rename_i len c
  cases hq : readLimbs c.qa 0 len <;> cases hr : readLimbs c.ra 0 len <;> simp [eq_comm]

/-- R189: an engine step is the step of its phase. -/
theorem engineStep_next {s t : State} (h : engineStep s = .next t) :
    (s.phase = .idle ∧ t = s) ∨ (s.phase = .norm ∧ normStep s = some t) ∨
    (s.phase = .by1 ∧ loopStep .by1 by1Iterate by1Exit s = some t) ∨
    (s.phase = .by2 ∧ loopStep .by2 by2Iterate by2Exit s = some t) ∨
    (s.phase = .cf42 ∧ routineStep cf42 s = some t) ∨ (s.phase = .cf64 ∧ routineStep cf64 s = some t) ∨
    (s.phase = .knuth ∧ loopStep .knuth knuthIterate knuthExit s = some t) ∨
    (s.phase = .commit ∧ commitStep s = some t) := by
  unfold engineStep at h
  cases hp : s.phase <;> simp [hp] at h ⊢ <;> first | exact h | exact h.symm

/-! ## The schedule -/

/-- R20, R58: whose move is next. -/
theorem nextMove_cases (s : State) :
    (s.nextMove = .ended ∧ s.pending = [] ∧ s.phase = .idle) ∨
    (∃ t, s.nextMove = .engine t ∧ s.phase ≠ .idle ∧ ∃ ts, t = { s with turns := ts }) ∨
    (∃ op rest ts, s.pending = op :: rest ∧ s.nextMove = .host op { s with pending := rest, turns := ts }) := by
  unfold State.nextMove
  cases hq : s.pending with
  | nil =>
    by_cases hp : s.phase = .idle
    · simp [hp]
    · exact .inr (.inl ⟨s, by simp [hp], hp, s.turns, by rw [← hq]⟩)
  | cons op rest =>
    by_cases hp : s.phase = .idle
    · exact .inr (.inr ⟨op, rest, s.turns, rfl, by simp [hp]⟩)
    · rcases ht : s.turns with - | ⟨- | -, ts⟩
      · exact .inr (.inl ⟨s, by simp [hp], hp, s.turns, by rw [← hq]⟩)
      · exact .inr (.inr ⟨op, rest, ts, rfl, by simp [hp]⟩)
      · exact .inr (.inl ⟨_, by simp [hp]; rfl, hp, ts, by rw [← hq]⟩)

/-- A step is the step of the move that is next. -/
theorem step_eq (s : State) : step s = s.nextMove.run s := rfl

/-- With nothing pending from the host, a call's next step is the engine's. -/
theorem step_of_busy_alone {s : State} (hp : s.phase ≠ .idle) (hq : s.pending = []) : step s = engineStep s := by
  have : s.nextMove = .engine s := by simp [State.nextMove, hq, hp]
  rw [step_eq, this]; rfl

/-- An idle block's next step is the host's next access. -/
theorem step_of_idle {s : State} {op : HostOp} {rest : List HostOp} (hp : s.phase = .idle) (hq : s.pending = op :: rest) :
    step s = hostStep op { s with pending := rest } := by
  have : s.nextMove = .host op { s with pending := rest } := by simp [State.nextMove, hq, hp]
  rw [step_eq, this]; rfl

/-- Before the engine's turn, turns aside, a state is the same to the engine. -/
theorem step_next_cases {s t : State} (h : step s = .next t) :
    (s.pending = [] ∧ s.phase = .idle ∧ t = s) ∨
    (s.phase ≠ .idle ∧ ∃ ts, engineStep { s with turns := ts } = .next t) ∨
    (∃ op rest ts, s.pending = op :: rest ∧ hostStep op { s with pending := rest, turns := ts } = .next t) := by
  rw [step_eq] at h
  rcases nextMove_cases s with ⟨hm, hq, hp⟩ | ⟨s', hm, hp, ts, rfl⟩ | ⟨op, rest, ts, hq, hm⟩
  · rw [hm] at h; cases h; exact .inl ⟨hq, hp, rfl⟩
  · rw [hm] at h; exact .inr (.inl ⟨hp, ts, h⟩)
  · rw [hm] at h; exact .inr (.inr ⟨op, rest, ts, hq, h⟩)

/-! ## Several instances -/

@[simp] theorem stepRun_next (s : State) : stepRun (.next s) = step s := rfl
@[simp] theorem stepRun_fault (f : Fault) : stepRun (.fault f) = .fault f := rfl
@[simp] theorem resetRun_next (s : State) : resetRun (.next s) = .next s.applyReset := rfl
@[simp] theorem resetRun_fault (f : Fault) : resetRun (.fault f) = .next State.reset := rfl
@[simp] theorem systemStep_length (m : SystemMove) (sys : List InstanceRun) :
    (systemStep m sys).length = sys.length := by simp [systemStep]

/-- A move acts on the instance it concerns and leaves the others. -/
theorem systemStep_getElem? (m : SystemMove) (sys : List InstanceRun) (l : Nat) :
    (systemStep m sys)[l]? = if m.target = l then sys[l]?.map m.act else sys[l]? := by
  by_cases h : m.target = l <;> simp [systemStep, h]

/-! ## The invariant -/

/-- The invariant is about the block: nothing of it concerns what the environment holds. -/
theorem State.Inv.withEnvironment {s : State} (h : s.Inv) (ops : List HostOp) (ts : List Agent) (xs : List Limb) :
    { s with pending := ops, turns := ts, reads := xs }.Inv where
  busy_iff := h.busy_iff
  not_both := h.not_both
  no_context := h.no_context
  no_results := h.no_results
  results := h.results
  call := h.call

end Sys2Proof.Machine
end

