-- ==== Sys2Proof/Tests/Slice0.lean ====
section
/-! SUPPORT. Tests with results taken from the spec, and for each statement with hypotheses a concrete state and operands
that meet them. -/

namespace Sys2Proof.Tests

open Sys2Proof Sys2Proof.Machine

/-! ## Small states -/

/-- After reset, with operand limbs written from limb 0 up. -/
def operands (us vs : List Limb) : State :=
  { State.reset with u := Bank.noValue.writePrefix us, v := Bank.noValue.writePrefix vs }

/-- The same, with a call of `len` limbs in the given phase and context. -/
def inCall (us vs : List Limb) (len : Nat) (p : Phase) (c : Option Context) : State :=
  { operands us vs with busy := true, phase := p, lw := some len, ctx := c }

/-- The answer's next state satisfies a check. -/
def nextIs (o : Host.Outcome State Fault Refusal) (check : State → Bool) : Bool :=
  match o with
  | .next s => check s
  | .fault _ => false
  | .refused _ => false

/-- The answer is a given fault. -/
def faultIs (o : Host.Outcome State Fault Refusal) (f : Fault) : Bool :=
  match o with
  | .next _ => false
  | .fault g => decide (g = f)
  | .refused _ => false

/-! ## Well-formedness: an ill-formed term for each check -/

theorem test_wf_width_left_out : Instr.wf [256] .div512 = false := by decide
theorem test_wf_ldu_literal_too_long : HostLine.wf (.ldu .div256 (2 ^ 256)) = false := by decide
theorem test_wf_ldv_literal_too_long : HostLine.wf (.ldv .div256 (2 ^ 256)) = false := by decide
theorem test_wf_ldu_literal_fits : HostLine.wf (.ldu .div256 (2 ^ 256 - 1)) = true := by decide
/-- 95_test_vectors.md section 3.7 writes these three as lines; each faults as an access. -/
theorem test_wf_lines_in_the_wrong_direction :
    ([.wr (.q 0) 1, .wr .status 0, .rd .cmd] : List HostLine).all
      (fun l => l.wf && faultIs (step (State.reset.withProgram [l])) .badAccess) = true := by decide

/-! ## Decoding: words written out from the fields of R70 (RSV1, OPC, RSV0, WSEL) -/

theorem test_decode_div256 : decode ((0 : BitVec 56) ++ (0b0001 : BitVec 4) ++ (0b0 : BitVec 1) ++ (0b000 : BitVec 3)) = .ok .div256 := by decide
theorem test_decode_div512 : decode ((0 : BitVec 56) ++ (0b0001 : BitVec 4) ++ (0b0 : BitVec 1) ++ (0b001 : BitVec 3)) = .ok .div512 := by decide
theorem test_decode_div1024 : decode ((0 : BitVec 56) ++ (0b0001 : BitVec 4) ++ (0b0 : BitVec 1) ++ (0b010 : BitVec 3)) = .ok .div1024 := by decide
theorem test_decode_div2048 : decode ((0 : BitVec 56) ++ (0b0001 : BitVec 4) ++ (0b0 : BitVec 1) ++ (0b011 : BitVec 3)) = .ok .div2048 := by decide
theorem test_decode_div4096 : decode ((0 : BitVec 56) ++ (0b0001 : BitVec 4) ++ (0b0 : BitVec 1) ++ (0b100 : BitVec 3)) = .ok .div4096 := by decide
/-- R73's words, for the encoder. -/
theorem test_encode_words : encode .div256 = 0x10 ∧ encode .div512 = 0x11 ∧ encode .div1024 = 0x12 ∧
    encode .div2048 = 0x13 ∧ encode .div4096 = 0x14 := by decide
/-- 95_test_vectors.md section 3.7, the five reserved words. -/
theorem test_decode_zero : decode 0x0 = .error .reservedOperation := by decide
theorem test_decode_wsel_101 : decode 0x15 = .error .reservedWidth := by decide
theorem test_decode_bit3 : decode 0x18 = .error .reservedBit3 := by decide
theorem test_decode_bit8 : decode 0x110 = .error .reservedHighBits := by decide
theorem test_decode_opc_2 : decode 0x20 = .error .reservedOperation := by decide
theorem test_table_word : decodeTableWord 64 0x13 = some .div2048 ∧ decodeTableWord 8 0x14 = some .div4096 ∧
    decodeTableWord 64 0x15 = none ∧ decodeTableWord 128 (2 ^ 64 + 0x10) = none := by decide

/-! ## Host accesses: 95_test_vectors.md section 3.7 -/

theorem test_read_status_at_reset : nextIs (hostRead 0x101 State.reset) (fun t => t.reads == [0]) = true := by decide
theorem test_read_u0_at_reset : faultIs (hostRead 0x000 State.reset) .uninit = true := by decide
theorem test_write_then_read : nextIs (hostWrite 0x000 5 State.reset) (fun t => nextIs (hostRead 0x000 t) (fun t' => t'.reads == [5])) = true := by decide
theorem test_read_q0_at_reset : faultIs (hostRead 0x080 State.reset) .uninit = true := by decide
theorem test_write_q0 : faultIs (hostWrite 0x080 1 State.reset) .badAccess = true := by decide
theorem test_write_status : faultIs (hostWrite 0x101 0 State.reset) .badAccess = true := by decide
theorem test_read_cmd : faultIs (hostRead 0x100 State.reset) .badAccess = true := by decide
theorem test_reserved_address : faultIs (hostRead 0x102 State.reset) .badAccess = true ∧
    faultIs (hostWrite 0x102 0 State.reset) .badAccess = true := by decide
theorem test_illegal_command : faultIs (hostWrite 0x100 0x15 State.reset) .illegalCommand = true := by decide
theorem test_div_nothing_written : faultIs (step (State.reset.withFetchWord 64 0x10)) .uninit = true := by decide
theorem test_div_top_divisor_limb_unwritten :
    faultIs (exec .div256 (operands [1, 2, 3, 4] [1, 2, 3])) .uninit = true := by decide
theorem test_div_by_zero : faultIs (exec .div256 (operands [1, 2, 3, 4] [0, 0, 0, 0])) .divisorZero = true := by decide
theorem test_div_by_zero_limb4_not_seen :
    faultIs (exec .div256 (operands [0, 0, 0, 0] [0, 0, 0, 0, 1])) .divisorZero = true := by decide
theorem test_div512_sees_limb4 :
    nextIs (exec .div512 (operands [0, 0, 0, 0, 0, 0, 0, 0] [0, 0, 0, 0, 1, 0, 0, 0])) (fun t => t.lw == some 8) = true := by decide
theorem test_div_while_busy : faultIs (exec .div256 (inCall [1, 0, 0, 0] [1, 0, 0, 0] 4 .norm none)) .busy = true := by decide
theorem test_write_u_while_busy : faultIs (hostWrite 0x000 1 (inCall [1, 0, 0, 0] [1, 0, 0, 0] 4 .norm none)) .busy = true := by decide

/-! ## The DIV commands: each runs as the next step and latches its own limb count (R72, R181 to R185) -/

/-- Operands of the widest call. -/
def wide : State := operands (List.replicate 64 7) (List.replicate 64 5)

theorem test_div256_accepted : nextIs (step (wide.withFetchWord 64 0x10))
    (fun t => t.lw == some 4 && t.busy && !t.done && t.phase == .norm && t.q == Bank.noValue) = true := by decide
theorem test_div512_accepted : nextIs (step (wide.withFetchWord 64 0x11)) (fun t => t.lw == some 8 && t.busy) = true := by decide
theorem test_div1024_accepted : nextIs (step (wide.withFetchWord 64 0x12)) (fun t => t.lw == some 16 && t.busy) = true := by decide
theorem test_div2048_accepted : nextIs (step (wide.withFetchWord 64 0x13)) (fun t => t.lw == some 32 && t.busy) = true := by decide
theorem test_div4096_accepted : nextIs (step (wide.withFetchWord 64 0x14)) (fun t => t.lw == some 64 && t.busy) = true := by decide

/-! ## The consumed units: 95_test_vectors.md section 2 -/

theorem test_lzc : leadingZeroCount 0 = 64 ∧ leadingZeroCount 1 = 63 ∧ leadingZeroCount 0x0000000100000000 = 31 ∧
    leadingZeroCount 0x00ffffffffffffff = 8 ∧ leadingZeroCount 0x8000000000000000 = 0 := by decide
theorem test_divide2by1_largest : divide2by1 0xfffffffffffffffe 0xffffffffffffffff 0xffffffffffffffff 0 =
    some (0xffffffffffffffff, 0xfffffffffffffffe) := by decide
theorem test_divide2by1_mixed : divide2by1 0x123456789abcdef0 0xfedcba9876543210 0xc000000000000000 0 =
    some (0x1845c8a0ce512941, 0x3edcba9876543210) := by decide
theorem test_divide3by2_largest : divide3by2 0xffffffffffffffff 0xfffffffffffffffe 0xffffffffffffffff
    0xffffffffffffffff 0xffffffffffffffff 0 = some (0xffffffffffffffff, 0xffffffffffffffff, 0xfffffffffffffffe) := by decide
theorem test_divide3by2_small : divide3by2 1 2 3 0xc000000000000000 0x0123456789abcdef 0 =
    some (1, 0x4000000000000001, 0xfedcba9876543214) := by decide
theorem test_add_ripple : add [0xffffffffffffffff, 0, 0xffffffffffffffff] [1, 0xffffffffffffffff, 0] 3 =
    some ([0, 0, 0], 1) := by decide
theorem test_submul_full_borrow : submul [0, 0, 0] [0xffffffffffffffff, 0xffffffffffffffff, 0xffffffffffffffff] 3
    0xffffffffffffffff = some ([0xffffffffffffffff, 0, 0], 0xffffffffffffffff) := by decide
theorem test_submul_seventh : submul [3, 7, 0x8000000000000000] [5, 7, 0x8000000000000000] 3 0xffffffffffffffff =
    some ([8, 9, 0xfffffffffffffff9], 0x8000000000000000) := by decide
theorem test_closed4by2 : closedForm4by2 [2, 4, 6, 8] 0x8000000000000000 0x12 =
    some (val [0xb, 0x10], val [0xffffffffffffff3c, 0x7ffffffffffffee3]) := by decide
theorem test_closed6by4 : closedForm6by4
    [0xffffffffffffffff, 0x7606000000000007, 0xfeffff4200000076, 0xffffffffffffff00, 0, 0]
    [0x2b00000000008000, 3, 0, 0xffff000000000000] =
    some (1, val [0xd4ffffffffff7fff, 0x7606000000000004, 0xfeffff4200000076, 0x0000ffffffffff00]) := by decide

/-- Sections 2.2 and 2.4, the realisation's own vectors. -/
theorem test_real_reciprocals : realReciprocal1 0x8123456789abcdef = 0xfb7d2e3ce60fc9e2 ∧
    realReciprocal1 0x8000000000000001 = 0xfffffffffffffffc ∧
    realReciprocal2 0x8000000000000000 0xffffffffffffffff = 0xfffffffffffffffc ∧
    realReciprocal2 0xc000000000000000 0x4000000000000000 = 0x5555555555555554 ∧
    realReciprocal2 0xffffffffffffffff 0xffffffffffffffff = 0 := by decide
theorem test_real_divisions :
    realDivide2by1 0x123456789abcdef0 0xfedcba9876543210 0xc000000000000000 0x5555555555555555 =
      (0x1845c8a0ce512941, 0x3edcba9876543210) ∧
    realDivide3by2 1 2 3 0xc000000000000000 0x0123456789abcdef 0x5555555555555555 =
      (1, 0x4000000000000001, 0xfedcba9876543214) := by decide

/-! ## Normalization and dispatch: 95_test_vectors.md sections 3.1 and 3.5 -/

/-- The counts and arrays of a normalization, for comparing with a row of the table. -/
def normRow (us vs : List Limb) : Option (Nat × Nat × Nat × List Limb × List Limb) :=
  (normalize us vs).map fun c => (c.s, c.m, c.nd, c.un, c.vn)

theorem test_norm_128_by_1 : normRow [0x80, 0, 0, 0] [1, 0, 0, 0] =
    some (63, 2, 1, [0, 0x40, 0, 0, 0], [0x8000000000000000, 0, 0, 0]) := by decide
theorem test_norm_increment_by_comparison : normRow [0, 3, 7, 0x8000000000000000] [5, 7, 0x8000000000000000, 0] =
    some (0, 5, 3, [0, 3, 7, 0x8000000000000000, 0], [5, 7, 0x8000000000000000, 0]) := by decide
theorem test_norm_overflow_limb : normRow [0, 0, 0, 0xffffffffffffffff] [0, 1, 0, 0] =
    some (63, 5, 2, [0, 0, 0, 0x8000000000000000, 0x7fffffffffffffff], [0, 0x8000000000000000, 0, 0]) := by decide
theorem test_norm_zero : normRow [0, 0, 0, 0] [0, 0, 9, 0] =
    some (60, 0, 3, [0, 0, 0, 0, 0], [0, 0, 0x9000000000000000, 0]) := by decide
theorem test_norm_bits_carried : normRow [0x8000000000000001, 0xc000000000000000, 0, 0] [0, 0x4000000000000000, 0, 0] =
    some (1, 3, 2, [2, 0x8000000000000001, 1, 0, 0], [0, 0x8000000000000000, 0, 0]) := by decide
theorem test_routes : selectRoute 4 3 = .earlyExit ∧ selectRoute 1 5 = .by1 ∧ selectRoute 2 3 = .by2 ∧
    selectRoute 2 4 = .cf42 ∧ selectRoute 2 5 = .by2 ∧ selectRoute 3 3 = .knuth ∧ selectRoute 4 4 = .cf64 ∧
    selectRoute 4 6 = .cf64 ∧ selectRoute 4 7 = .knuth ∧ selectRoute 5 5 = .knuth := by decide
/-- P4, the early exit: the remainder is the original numerator. -/
theorem test_norm_early_exit : nextIs (engineStep (inCall [1, 2, 3, 0] [1, 2, 3, 4] 4 .norm none))
    (fun t => t.phase == .commit && (t.ctx.map (·.ra)) == some [1, 2, 3, 0]) = true := by decide

/-! ## One engine step in each phase: 42 R126, 43 R136, 44 R157, 45 R177 -/

/-- A context with the call's counts; the fields a test does not need are zero or without value. -/
def ctxOf (un vn : List Limb) (s m nd : Nat) (rem1 rem0 : Option Limb) (j : Option Int) : Context :=
  { un := un, vn := vn, s := s, m := m, nd := nd, rcp := some 0, rem1 := rem1, rem0 := rem0, j := j
    qa := List.replicate 4 0, ra := List.replicate 4 0 }

def by1Ctx (j : Int) : Context :=
  ctxOf [0xcafebabe00000000, 0x89abcdefdeadbeef, 0x7654321001234567, 0, 0] [0xffffffff00000000, 0, 0, 0] 32 4 1
    none (some 0x00000000fedcba98) (some j)

/-- R126 (2), iteration `J = 2`. -/
theorem test_by1_iteration : nextIs (engineStep (inCall [] [] 4 .by1 (some (by1Ctx 2))))
    (fun t => (t.ctx.map fun c => (c.un[2]?, c.rem0, c.j)) ==
      some (some 0x00000000fedcba99, some 0x7530eca901234567, some 1)) = true := by decide

def by2Ctx (j : Int) : Context :=
  ctxOf [5, 0, 0, 0, 0] [1, 0x8000000000000000, 0, 0] 0 3 2 (some 7) (some 6) (some j)

/-- R136 (1), its one iteration. -/
theorem test_by2_iteration : nextIs (engineStep (inCall [] [] 4 .by2 (some (by2Ctx 0))))
    (fun t => (t.ctx.map fun c => (c.un[0]?, c.rem1, c.rem0, c.j)) ==
      some (some 0xe, some 5, some 0xfffffffffffffff7, some (-1))) = true := by decide

def knuthCtx (j : Int) : Context :=
  ctxOf [0, 3, 7, 0x8000000000000000, 0] [5, 7, 0x8000000000000000, 0] 0 5 3 none none (some j)

/-- R157, iteration `j = 1`: the add-back. -/
theorem test_knuth_add_back : nextIs (engineStep (inCall [] [] 4 .knuth (some (knuthCtx 1))))
    (fun t => (t.ctx.map fun c => (c.un, c.qa, c.j)) ==
      some ([0, 3, 7, 0x8000000000000000, 0], [0, 0, 0, 0], some 0)) = true := by decide
/-- R157, iteration `j = 0`: the overflow branch. -/
theorem test_knuth_overflow : nextIs (engineStep (inCall [] [] 4 .knuth (some (knuthCtx 0))))
    (fun t => (t.ctx.map fun c => (c.un, c.qa, c.j)) ==
      some ([5, 5, 0x8000000000000000, 0, 0], [0xffffffffffffffff, 0, 0, 0], some (-1))) = true := by decide
/-- R158, iteration `j = 1`: the stale top limb. -/
theorem test_knuth_stale_limb :
    knuthWindow [0xffffffffffffffff, 0xffffffffffffffff, 0xffffffffffffffff, 0x7fffffffffffffff]
      [0, 0, 0x8000000000000000, 0] 3 0 =
    some (0xffffffffffffffff, [0xffffffffffffffff, 0xffffffffffffffff, 0x7fffffffffffffff, 0x7fffffffffffffff]) := by decide

def cf42Ctx : Context := ctxOf [2, 4, 6, 8, 0] [0x12, 0x8000000000000000, 0, 0] 1 4 2 none none none

/-- Section 2.8: the remainder shifted back by 1. -/
theorem test_cf42 : nextIs (engineStep (inCall [] [] 4 .cf42 (some cf42Ctx)))
    (fun t => (t.ctx.map fun c => (c.qa, c.ra)) ==
      some ([0xb, 0x10, 0, 0], [0xffffffffffffff9e, 0x3fffffffffffff71, 0, 0])) = true := by decide

def cf64Ctx : Context :=
  ctxOf [0xffffffffffffffff, 0x7606000000000007, 0xfeffff4200000076, 0xffffffffffffff00, 0]
    [0x2b00000000008000, 3, 0, 0xffff000000000000] 0 5 4 none none none

/-- P2, the source's 256-bit example. -/
theorem test_cf64 : nextIs (engineStep (inCall [] [] 4 .cf64 (some cf64Ctx)))
    (fun t => (t.ctx.map fun c => (c.qa, c.ra)) == some ([1, 0, 0, 0],
      [0xd4ffffffffff7fff, 0x7606000000000004, 0xfeffff4200000076, 0x0000ffffffffff00])) = true := by decide

/-- R158's de-normalization. -/
theorem test_denormalize : denormalize 63 4 [0x8000000000000000, 0xffffffffffffffff, 0x7fffffffffffffff] =
    [0xffffffffffffffff, 0xffffffffffffffff, 0, 0] := by decide

/-- P1: the commit. -/
def commitCtx : Context :=
  { ctxOf [0x80, 0, 0, 0, 0] [0x8000000000000000, 0, 0, 0] 63 2 1 none (some 0) (some (-1)) with qa := [0x80, 0, 0, 0] }

theorem test_commit : nextIs (engineStep (inCall [0x80, 0, 0, 0] [1, 0, 0, 0] 4 .commit (some commitCtx)))
    (fun t => t.q.readPrefix 4 == some [0x80, 0, 0, 0] && t.r.readPrefix 4 == some [0, 0, 0, 0] &&
      t.q[4] == none && t.statusWord == 2 && t.phase == .idle && t.ctx == none) = true := by decide

/-- P1's lines expand to its bus transactions. -/
theorem test_program_lines : programOps [.ldu .div256 0x80, .div .div256, .rd (.r 3)] =
    [.write 0x000 0x80, .write 0x001 0, .write 0x002 0, .write 0x003 0, .write 0x100 0x10, .read 0x0C3] := by decide

/-! ## Witnesses of hypotheses -/

/-- An idle block with operands meets the invariant. -/
theorem operands_inv (us vs : List Limb) : (operands us vs).Inv where
  busy_iff := by simp [operands, State.reset]
  not_both := by simp [operands, State.reset]
  no_context := fun _ => ⟨rfl, rfl⟩
  no_results := fun _ => ⟨rfl, rfl⟩
  results := fun h => by simp [operands, State.reset] at h
  call := fun h => absurd rfl h

/-- A block in a call meets the invariant where the call is as its phase says. -/
theorem inCall_inv (us vs : List Limb) (len : Nat) (p : Phase) (c : Option Context) (hp : p ≠ .idle)
    (h : CallInv (inCall us vs len p c)) : (inCall us vs len p c).Inv where
  busy_iff := by simp [inCall, hp]
  not_both := by simp [inCall, operands, State.reset]
  no_context := fun h' => absurd h' hp
  no_results := fun _ => ⟨rfl, rfl⟩
  results := fun h' => by simp [inCall, operands, State.reset] at h'
  call := fun _ => h

/-- P1 right after its command. -/
def p1Norm : State := inCall [0x80, 0, 0, 0] [1, 0, 0, 0] 4 .norm none

theorem p1Norm_inv : p1Norm.Inv :=
  inCall_inv _ _ _ _ _ (by decide)
    ⟨.div256, [0x80, 0, 0, 0], [1, 0, 0, 0], rfl, by decide, by decide, by decide, .inl ⟨rfl, rfl⟩⟩

/-- A block in a 256-bit call after its `NORM` step meets the invariant, given what its phase asks. -/
theorem inCall4_inv (us vs : List Limb) (p : Phase) (c0 c : Context) (hp : p ≠ .idle)
    (hu : (operands us vs).numerator 4 = some us) (hv : (operands us vs).divisor 4 = some vs) (hz : val vs ≠ 0)
    (hc : SameCall us vs c0 c) (h : PhaseInv p us vs c0 c) : (inCall us vs 4 p (some c)).Inv :=
  inCall_inv _ _ _ _ _ hp ⟨.div256, us, vs, rfl, hu, hv, hz, .inr ⟨c0, c, rfl, hc, h⟩⟩

/-- P1 right before its commit. -/
def p1Commit : State := inCall [0x80, 0, 0, 0] [1, 0, 0, 0] 4 .commit (some commitCtx)

theorem p1Commit_inv : p1Commit.Inv :=
  inCall4_inv _ _ _
    { commitCtx with un := [0, 0x40, 0, 0, 0], rcp := none, rem0 := none, j := none, qa := List.replicate 4 0 } _
    (by decide) (by decide) (by decide) (by decide) ⟨by decide, rfl, rfl, rfl, rfl, rfl, rfl, rfl⟩
    (show CommitInv _ _ _ from ⟨by decide, by decide⟩)

/-- P1 between its `NORM` step and its one iteration. -/
def inBy1 : State := inCall [0x80, 0, 0, 0] [1, 0, 0, 0] 4 .by1 (some
  { ctxOf [0, 0, 0, 0, 0] [0x8000000000000000, 0, 0, 0] 63 2 1 none (some 0x40) (some 0) with
    rcp := some (Config.reciprocalFor1Limb 0x8000000000000000) })

theorem inBy1_inv : inBy1.Inv :=
  inCall4_inv _ _ _
    { ctxOf [0, 0x40, 0, 0, 0] [0x8000000000000000, 0, 0, 0] 63 2 1 none none none with rcp := none } _
    (by decide) (by decide) (by decide) (by decide) ⟨rfl, rfl, rfl, rfl, rfl, rfl, rfl, rfl⟩
    (show By1Inv _ _ from
      ⟨0x8000000000000000, 0x40, 1, rfl, by decide, rfl, rfl, rfl, rfl, by decide, by decide⟩)

/-- R136 (1) before its one iteration. -/
def inBy2 : State := inCall [5, 6, 7, 0] [1, 0x8000000000000000, 0, 0] 4 .by2 (some
  { by2Ctx 0 with rcp := some (Config.reciprocalFor2Limb 0x8000000000000000 1) })

theorem inBy2_inv : inBy2.Inv :=
  inCall4_inv _ _ _
    { ctxOf [5, 6, 7, 0, 0] [1, 0x8000000000000000, 0, 0] 0 3 2 none none none with rcp := none } _
    (by decide) (by decide) (by decide) (by decide) ⟨rfl, rfl, rfl, rfl, rfl, rfl, rfl, rfl⟩
    (show By2Inv _ _ from
      ⟨0x8000000000000000, 1, 7, 6, 1, rfl, by decide, rfl, rfl, rfl, rfl, rfl, rfl, by decide, by decide⟩)

/-- Four limbs by two, the top limb of the numerator below the divisor's: `m = 4`. -/
def inCf42 : State := inCall [2, 4, 6, 8] [0x12, 0x8000000000000000, 0, 0] 4 .cf42 (some { cf42Ctx with s := 0, rcp := none })

theorem inCf42_inv : inCf42.Inv :=
  inCall4_inv _ _ _ { cf42Ctx with s := 0, rcp := none } _
    (by decide) (by decide) (by decide) (by decide) ⟨rfl, rfl, rfl, rfl, rfl, rfl, rfl, rfl⟩
    (show Cf42Inv _ _ from ⟨rfl, rfl, rfl, by decide⟩)

/-- P2 before its one step. -/
def inCf64 : State :=
  inCall [0xffffffffffffffff, 0x7606000000000007, 0xfeffff4200000076, 0xffffffffffffff00]
    [0x2b00000000008000, 3, 0, 0xffff000000000000] 4 .cf64 (some { cf64Ctx with rcp := none })

theorem inCf64_inv : inCf64.Inv :=
  inCall4_inv _ _ _ { cf64Ctx with rcp := none } _
    (by decide) (by decide) (by decide) (by decide) ⟨rfl, rfl, rfl, rfl, rfl, rfl, rfl, rfl⟩
    (show Cf64Inv _ _ from ⟨rfl, by decide, by decide, rfl, by decide⟩)

/-- R157 before its first iteration, `J = 1`. -/
def inKnuth : State := inCall [0, 3, 7, 0x8000000000000000] [5, 7, 0x8000000000000000, 0] 4 .knuth (some
  { knuthCtx 1 with rcp := some (Config.reciprocalFor2Limb 0x8000000000000000 7) })

theorem inKnuth_inv : inKnuth.Inv :=
  inCall4_inv _ _ _
    { ctxOf [0, 3, 7, 0x8000000000000000, 0] [5, 7, 0x8000000000000000, 0] 0 5 3 none none none with rcp := none } _
    (by decide) (by decide) (by decide) (by decide) ⟨rfl, rfl, rfl, rfl, rfl, rfl, rfl, rfl⟩
    (show KnuthInv _ _ from
      ⟨0x8000000000000000, 7, 2, by decide, by decide, rfl, rfl, rfl, rfl, by decide, by decide, by decide⟩)

/-- P1 after its commit: `DONE = 1`. -/
def p1Done : State :=
  { operands [0x80, 0, 0, 0] [1, 0, 0, 0] with
    q := Bank.noValue.writePrefix [0x80, 0, 0, 0], r := Bank.noValue.writePrefix [0, 0, 0, 0], done := true }

theorem p1Done_inv : p1Done.Inv where
  busy_iff := by simp [p1Done, operands, State.reset]
  not_both := by simp [p1Done, operands, State.reset]
  no_context := fun _ => ⟨rfl, rfl⟩
  no_results := fun h => by simp [p1Done] at h
  results := fun _ => ⟨.div256, by unfold Bank.holdsExactly; decide, by unfold Bank.holdsExactly; decide⟩
  call := fun h => absurd rfl h

theorem witness_ReservedCommandFaults :
    State.reset.busy = false ∧ (∀ i, (0x15 : Limb) ≠ encode i) ∧ Instr.bits .div512 ∉ [256] :=
  ⟨rfl, by intro i; cases i <;> decide, by decide⟩

theorem witness_WrongAccessFaultsFirst :
    regAt 0x080 = some (.q 0) ∧ regAt 0x0FF = some (.r 63) ∧ regAt 0x101 = some .status ∧ regAt 0x102 = none ∧
    regAt 0x07F = some (.v 63) ∧ regAt 0x100 = some .cmd := by decide

theorem witness_AddressMapNamesEveryRegister :
    regAt 0x03F = some (.u 63) ∧ regAt 0x040 = some (.v 0) ∧ regAt 0x0BF = some (.q 63) ∧ regAt 0x0C0 = some (.r 0) ∧
    (0x102 : Nat) ≤ 0x102 ∧ (0x101 : Nat) = Reg.addr .status := by decide

theorem witness_BusyBlockRefusesWritesAndAllowsReads :
    p1Norm.Inv ∧ p1Norm.busy = true ∧ p1Norm.u[(0 : Fin limbMax).val] = some 0x80 ∧
      p1Norm.v[(3 : Fin limbMax).val] = some 0 ∧
    faultIs (hostWrite 0x07F 0 p1Norm) .busy = true ∧ faultIs (hostWrite 0x100 0x10 p1Norm) .busy = true :=
  ⟨p1Norm_inv, rfl, by decide, by decide, by decide, by decide⟩

theorem witness_OperandWriteTakesEffectOnThatLimbOnly :
    State.reset.busy = false ∧ nextIs (hostWrite (0x000 + 63) 5 State.reset) (fun t => t.u[63] == some 5) = true ∧
    nextIs (hostWrite (0x040 + 63) 5 State.reset) (fun t => t.v[63] == some 5) = true := by decide

theorem witness_HostReadReturnsTheLimbOrFaults :
    p1Done.u[(0 : Fin limbMax).val] = some 0x80 ∧ p1Done.v[(0 : Fin limbMax).val] = some 1 ∧
    p1Done.q[(0 : Fin limbMax).val] = some 0x80 ∧ p1Done.r[(3 : Fin limbMax).val] = some 0 ∧
    p1Done.u[(4 : Fin limbMax).val] = none ∧ p1Done.v[(63 : Fin limbMax).val] = none ∧
    p1Done.q[(4 : Fin limbMax).val] = none ∧ p1Done.r[(4 : Fin limbMax).val] = none := by decide

theorem witness_ResultsReadableExactlyWhileDone :
    p1Done.Inv ∧ p1Done.done = true ∧ p1Norm.Inv ∧ p1Norm.done = false := ⟨p1Done_inv, rfl, p1Norm_inv, rfl⟩

theorem witness_StatusIsZeroOneOrTwo : p1Norm.Inv ∧ p1Norm.statusWord = 1 ∧ p1Done.Inv ∧ p1Done.statusWord = 2 :=
  ⟨p1Norm_inv, by decide, p1Done_inv, by decide⟩

theorem witness_WaitRepeatsUntilDone : p1Done.done = true ∧ p1Norm.done = false := ⟨rfl, rfl⟩

theorem witness_PseudoInstructionsLoadAndRead :
    (0x80 : Nat) < 2 ^ Instr.bits .div256 ∧ State.reset.phase = .idle ∧ State.reset.busy = false ∧ p1Done.phase = .idle ∧
    p1Done.q.readPrefix (Instr.limbs .div256) = some [0x80, 0, 0, 0] ∧
    p1Done.r.readPrefix (Instr.limbs .div256) = some [0, 0, 0, 0] ∧
    p1Done.q.readPrefix (Instr.limbs .div512) = none ∧ p1Done.r.readPrefix (Instr.limbs .div512) = none := by decide

/-- The idle block about to be given P1's command. -/
def p1Issued : State := { operands [0x80, 0, 0, 0] [1, 0, 0, 0] with pending := [.write 0x100 0x10, .wait] }

theorem witness_StepRunsTheDecodedCommand :
    p1Issued.phase = .idle ∧ p1Issued.busy = false ∧ p1Issued.pending = .write 0x100 0x10 :: [.wait] ∧
    decode 0x10 = .ok .div256 ∧
    { p1Norm with pending := [.write 0x100 0x10], turns := [.host] }.phase ≠ .idle := by decide

theorem witness_DivCommandIsAccepted (i : Instr) :
    wide.busy = false ∧ wide.numerator i.limbs = some (List.replicate i.limbs 7) ∧
    wide.divisor i.limbs = some (List.replicate i.limbs 5) ∧ val (List.replicate i.limbs 5) ≠ 0 := by
  cases i <;> decide

theorem witness_DivFaultsInOrder :
    p1Norm.busy = true ∧ State.reset.busy = false ∧ State.reset.v[(3 : Fin limbMax).val] = none ∧ 3 < Instr.limbs .div256 ∧
    (∀ k : Fin limbMax, k.val < Instr.limbs .div256 →
      (operands [1, 2, 3, 4] [0, 0, 0, 0]).u[k.val].isSome = true ∧
      (operands [1, 2, 3, 4] [0, 0, 0, 0]).v[k.val] = some 0) := by decide

theorem witness_DivCommandFrame (i : Instr) : ∃ t, exec i wide = .next t := by
  obtain ⟨h1, h2, h3, h4⟩ := witness_DivCommandIsAccepted i
  exact ⟨_, by rw [exec_eq_startDivide, startDivide_eq_next]; exact ⟨h1, wf_all_widths i, ⟨_, _, h2, h3, h4⟩, rfl⟩⟩

theorem witness_LeadingZeroCountIsExact : (1 : Limb) ≠ 0 ∧ leadingZeroCount 1 = 63 := by decide

theorem witness_Divide2by1IsExact :
    2 ^ 63 ≤ (0xffffffffffffffff : Limb).toNat ∧ (1 : Limb).toNat < (0xffffffffffffffff : Limb).toNat ∧
    ¬ (2 ^ 63 ≤ (1 : Limb).toNat ∧ (0 : Limb).toNat < (1 : Limb).toNat) := by decide

theorem witness_Divide3by2IsExact :
    2 ^ 63 ≤ (0xc000000000000000 : Limb).toNat ∧
    (1 : Limb).toNat * limbBase + (2 : Limb).toNat <
      (0xc000000000000000 : Limb).toNat * limbBase + (0x0123456789abcdef : Limb).toNat ∧
    ¬ (2 ^ 63 ≤ (1 : Limb).toNat ∧ (0 : Limb).toNat * limbBase + (0 : Limb).toNat <
      (1 : Limb).toNat * limbBase + (0 : Limb).toNat) := by decide

theorem witness_Realisation :
    2 ^ 63 ≤ (0xc000000000000000 : Limb).toNat ∧ (0x123456789abcdef0 : Limb).toNat < (0xc000000000000000 : Limb).toNat ∧
    pairVal 1 2 < pairVal 0xc000000000000000 0x0123456789abcdef := by decide

theorem witness_ContextFitsItsRegisters : p1Commit.Inv ∧ p1Commit.ctx = some commitCtx ∧ p1Commit.lw = some 4 :=
  ⟨p1Commit_inv, rfl, rfl⟩

theorem witness_CallBeginsAtCommandAndEndsAtCommit :
    (∃ t, step { p1Done with pending := [.write 0x100 0x10] } = .next t ∧ p1Done.busy = false ∧ t.busy = true) ∧
    (∃ t, step p1Commit = .next t ∧ p1Commit.busy = true ∧ t.busy = false) :=
  ⟨⟨_, rfl, rfl, rfl⟩, ⟨_, rfl, rfl, rfl⟩⟩

theorem witness_AddHelperIsExact : 2 ≤ 3 ∧ 3 ≤ ([1, 2, 3] : List Limb).length ∧ 3 ≤ ([4, 5, 6] : List Limb).length := by
  decide

theorem witness_SubmulHelperIsExact : 1 ≤ 1 ∧ 1 ≤ ([0] : List Limb).length ∧ 1 ≤ ([1] : List Limb).length := by decide

theorem witness_NormalizationCounts :
    ([0, 3, 7, 0x8000000000000000] : List Limb).length = ([5, 7, 0x8000000000000000, 0] : List Limb).length ∧
    val [5, 7, 0x8000000000000000, 0] ≠ 0 := by decide

theorem witness_NormalizationFacts :
    ∃ c, normalize [0, 3, 7, 0x8000000000000000] [5, 7, 0x8000000000000000, 0] = some c ∧ c.nd = 3 ∧ c.m = 5 :=
  ⟨_, rfl, by decide, by decide⟩

theorem witness_NormalizationFacts_early :
    ∃ c, normalize [1, 2, 3, 0] [1, 2, 3, 4] = some c ∧ c.m < c.nd := ⟨_, rfl, by decide⟩

theorem witness_ShiftedCopiesLimbByLimb :
    ([0x80, 0] : List Limb) ≠ [] ∧ ([0x80, 0] : List Limb).length = ([1, 0] : List Limb).length ∧ (0 : Nat) < 63 ∧
    (63 : Nat) ≤ 63 := by decide

theorem witness_NormStepFollowsTheDispatch : p1Norm.Inv ∧ p1Norm.phase = .norm := ⟨p1Norm_inv, rfl⟩

/-- The path and the counts a pair of operands leads to. -/
def routeOf (us vs : List Limb) : Option (Phase × Nat × Nat) :=
  match normalize us vs with
  | some c => (normContext us vs).map fun p => (p.2, c.nd, c.m)
  | none => none

/-- An operand pair for each clause of the two statements about the `NORM` step, at the ends of the ranges
(95_test_vectors.md section 3.5). -/
theorem witness_NormStepSetsUpThePath :
    routeOf [1, 2, 3, 0] [1, 2, 3, 4] = some (.commit, 4, 3) ∧
    routeOf [5, 0, 0, 0] [9, 0, 0, 0] = some (.by1, 1, 1) ∧
    routeOf [1, 2, 0, 0] [1, 3, 0, 0] = some (.by2, 2, 2) ∧
    routeOf [1, 2, 3, 4, 0, 0, 0, 0] [9, 0x4000000000000000, 0, 0, 0, 0, 0, 0] = some (.cf42, 2, 4) ∧
    routeOf [1, 2, 3, 4, 5, 0, 0, 0] [9, 0x4000000000000000, 0, 0, 0, 0, 0, 0] = some (.by2, 2, 5) ∧
    routeOf [1, 2, 3, 0] [1, 2, 4, 0] = some (.knuth, 3, 3) := by decide

theorem witness_NormStepSetsUpThePath_four_limbs_and_more :
    routeOf [1, 2, 3, 4, 0, 0, 0, 0] [1, 2, 3, 5, 0, 0, 0, 0] = some (.cf64, 4, 4) ∧
    routeOf [1, 2, 3, 4, 5, 6, 0, 0] [9, 8, 7, 0x4000000000000000, 0, 0, 0, 0] = some (.cf64, 4, 6) ∧
    routeOf [1, 2, 3, 4, 5, 6, 7, 0] [9, 8, 7, 0x4000000000000000, 0, 0, 0, 0] = some (.knuth, 4, 7) ∧
    routeOf [1, 2, 3, 4, 5, 0, 0, 0] [1, 2, 3, 4, 6, 0, 0, 0] = some (.knuth, 5, 5) := by decide

theorem witness_By1IterationDividesOneLimb :
    (by1Ctx 2).j = some ((2 : Nat) : Int) ∧ (by1Ctx 2).rem0 = some 0x00000000fedcba98 ∧
    (by1Ctx 2).un[2]? = some 0x7654321001234567 ∧ (by1Ctx 2).vn[0]? = some 0xffffffff00000000 ∧
    (by1Ctx 2).rcp = some 0 ∧ 2 ^ 63 ≤ (0xffffffff00000000 : Limb).toNat ∧
    (0x00000000fedcba98 : Limb).toNat < (0xffffffff00000000 : Limb).toNat := by decide

theorem witness_By1ExitCollectsTheResult :
    (by1Ctx (-1)).j = some (-1) ∧ (by1Ctx (-1)).rem0 = some 0x00000000fedcba98 ∧ 1 ≤ 4 ∧ 4 ≤ (by1Ctx (-1)).un.length := by
  decide

theorem witness_By2IterationDividesOneLimb :
    (by2Ctx 0).j = some ((0 : Nat) : Int) ∧ (by2Ctx 0).rem1 = some 7 ∧ (by2Ctx 0).rem0 = some 6 ∧
    (by2Ctx 0).un[0]? = some 5 ∧ (by2Ctx 0).vn[1]? = some 0x8000000000000000 ∧ (by2Ctx 0).vn[0]? = some 1 ∧
    (by2Ctx 0).rcp = some 0 ∧ 2 ^ 63 ≤ (0x8000000000000000 : Limb).toNat ∧
    pairVal 7 6 < pairVal 0x8000000000000000 1 := by decide

theorem witness_By2ExitCollectsTheResult :
    (by2Ctx (-1)).j = some (-1) ∧ (by2Ctx (-1)).s = 0 ∧ 2 ≤ 4 ∧ 4 ≤ (by2Ctx (-1)).un.length ∧
    { by2Ctx (-1) with s := 63 }.s ≤ 63 := by decide

theorem witness_KnuthOverflowBranchIsExact :
    3 ≤ 3 ∧ ([0, 3, 7, 0x8000000000000000] : List Limb).length = 3 + 1 ∧
    3 ≤ ([5, 7, 0x8000000000000000, 0] : List Limb).length ∧
    2 ^ 63 ≤ (([5, 7, 0x8000000000000000, 0] : List Limb).getD (3 - 1) 0).toNat ∧
    val (([0, 3, 7, 0x8000000000000000] : List Limb).drop 1) < val (([5, 7, 0x8000000000000000, 0] : List Limb).take 3) ∧
    ([0, 3, 7, 0x8000000000000000] : List Limb)[3]? = some 0x8000000000000000 ∧
    ([0, 3, 7, 0x8000000000000000] : List Limb)[3 - 1]? = some 7 ∧
    ([5, 7, 0x8000000000000000, 0] : List Limb)[3 - 1]? = some 0x8000000000000000 ∧
    ([5, 7, 0x8000000000000000, 0] : List Limb)[3 - 2]? = some 7 := by decide

/-- R157, `j = 1`, the case with the add-back (`0 < 1`), and R158, `j = 1`, the case without. -/
theorem witness_KnuthNormalBranchFollowsTheListing :
    ¬ ((0 : Limb) = 0x8000000000000000 ∧ (0x8000000000000000 : Limb) = 7) ∧
    divide3by2 0 0x8000000000000000 7 0x8000000000000000 7 0 = some (1, 0, 0) ∧
    submul [3, 7, 0x8000000000000000, 0] [5, 7, 0x8000000000000000, 0] (3 - 2) 1 = some ([0xfffffffffffffffe], 1) ∧
    pairVal 0 0 < (1 : Limb).toNat ∧
    divide3by2 0x7fffffffffffffff 0xffffffffffffffff 0xffffffffffffffff 0x8000000000000000 0 0 =
      some (0xffffffffffffffff, 0x7fffffffffffffff, 0xffffffffffffffff) ∧
    submul [0xffffffffffffffff, 0xffffffffffffffff, 0xffffffffffffffff, 0x7fffffffffffffff]
      [0, 0, 0x8000000000000000, 0] (3 - 2) 0xffffffffffffffff = some ([0xffffffffffffffff], 0) ∧
    (0 : Limb).toNat ≤ pairVal 0x7fffffffffffffff 0xffffffffffffffff := by decide

theorem witness_KnuthEstimateIsAtMostOneTooHigh :
    2 ^ 63 ≤ (0x8000000000000000 : Limb).toNat ∧
    val (([3, 7, 0x8000000000000000, 0] : List Limb).drop 1) < val (([5, 7, 0x8000000000000000, 0] : List Limb).take 3) ∧
    ([3, 7, 0x8000000000000000, 0] : List Limb)[3]? = some 0 ∧
    ([3, 7, 0x8000000000000000, 0] : List Limb)[3 - 1]? = some 0x8000000000000000 ∧
    ([3, 7, 0x8000000000000000, 0] : List Limb)[3 - 2]? = some 7 ∧
    ¬ ((0 : Limb) = 0x8000000000000000 ∧ (0x8000000000000000 : Limb) = 7) := by decide

theorem witness_KnuthIterationIsExact :
    (knuthCtx 1).j = some ((1 : Nat) : Int) ∧ (knuthCtx 1).rcp = some 0 ∧ 3 ≤ (knuthCtx 1).nd ∧
    (knuthCtx 1).nd ≤ (knuthCtx 1).vn.length ∧ 1 < (knuthCtx 1).qa.length ∧
    readLimbs (knuthCtx 1).un 1 ((knuthCtx 1).nd + 1) = some [3, 7, 0x8000000000000000, 0] ∧
    2 ^ 63 ≤ ((knuthCtx 1).vn.getD ((knuthCtx 1).nd - 1) 0).toNat ∧
    val (([3, 7, 0x8000000000000000, 0] : List Limb).drop 1) < val ((knuthCtx 1).vn.take (knuthCtx 1).nd) := by decide

theorem witness_KnuthExitDenormalizes :
    (knuthCtx (-1)).j = some (-1) ∧ (knuthCtx (-1)).s ≤ 63 ∧ (knuthCtx (-1)).nd ≤ (knuthCtx (-1)).un.length ∧
    (knuthCtx (-1)).nd ≤ 4 := by decide

theorem witness_DenormalizerShiftsBack :
    ([1, 2, 3] : List Limb) ≠ [] ∧ ([1, 2, 3] : List Limb).length ≤ 4 ∧ (0 : Nat) < 63 ∧ (63 : Nat) ≤ 63 := by decide

theorem witness_Cf42StepIsExact :
    4 ≤ cf42Ctx.un.length ∧ 2 ≤ cf42Ctx.qa.length ∧ 2 ≤ 4 ∧ cf42Ctx.s ≤ 63 ∧ cf42Ctx.vn[1]? = some 0x8000000000000000 ∧
    cf42Ctx.vn[0]? = some 0x12 ∧ 2 ^ 63 ≤ (0x8000000000000000 : Limb).toNat ∧
    val (cf42Ctx.un.take 4) < pairVal 0x8000000000000000 0x12 * limbBase ^ 2 := by decide

theorem witness_Cf64StepIsExact :
    4 ≤ cf64Ctx.m ∧ cf64Ctx.m ≤ 6 ∧ cf64Ctx.m ≤ cf64Ctx.un.length ∧ 4 ≤ cf64Ctx.vn.length ∧ 2 ≤ cf64Ctx.qa.length ∧
    cf64Ctx.s ≤ 63 ∧ cf64Ctx.vn[3]? = some 0xffff000000000000 ∧ 2 ^ 63 ≤ (0xffff000000000000 : Limb).toNat ∧
    val (cf64Ctx.un.take cf64Ctx.m) < val (cf64Ctx.vn.take 4) * limbBase ^ (cf64Ctx.m - 4) := by decide

theorem witness_CommitWritesBothResultsAtOnce :
    p1Commit.phase = .commit ∧ p1Commit.lw = some 4 ∧ p1Commit.ctx = some commitCtx ∧ commitCtx.qa.length = 4 ∧
    commitCtx.ra.length = 4 ∧ 4 ≤ limbMax := by decide

theorem witness_CommitDeliversQuotientAndRemainder : p1Commit.Inv ∧ p1Commit.phase = .commit := ⟨p1Commit_inv, rfl⟩

/-- For the statements over the states of a call (`EngineTakesItsTableRow`, `ContextFitsItsRegisters`,
`ContractFaultIsUnreachable`, `StepKeepsTheInvariant` and the step counts): a state of the invariant in each phase. -/
theorem witness_EngineTakesItsTableRow :
    (p1Norm.Inv ∧ p1Norm.phase = .norm) ∧ (inBy1.Inv ∧ inBy1.phase = .by1) ∧ (inBy2.Inv ∧ inBy2.phase = .by2) ∧
    (inCf42.Inv ∧ inCf42.phase = .cf42) ∧ (inCf64.Inv ∧ inCf64.phase = .cf64) ∧ (inKnuth.Inv ∧ inKnuth.phase = .knuth) ∧
    (p1Commit.Inv ∧ p1Commit.phase = .commit) :=
  ⟨⟨p1Norm_inv, rfl⟩, ⟨inBy1_inv, rfl⟩, ⟨inBy2_inv, rfl⟩, ⟨inCf42_inv, rfl⟩, ⟨inCf64_inv, rfl⟩, ⟨inKnuth_inv, rfl⟩,
    ⟨p1Commit_inv, rfl⟩⟩

theorem witness_NextStepFollowsTheTurns :
    (p1Done.phase = .idle ∧ p1Done.pending = []) ∧
    ({ p1Done with pending := [.wait] }.phase = .idle ∧ { p1Done with pending := [.wait] }.pending = .wait :: []) ∧
    (inBy1.phase ≠ .idle ∧ inBy1.pending = [] ∧ inBy1.turns = []) ∧
    ({ inBy1 with pending := [.wait], turns := [.engine] }.phase ≠ .idle ∧
      { inBy1 with pending := [.wait], turns := [.engine] }.turns = .engine :: []) ∧
    { inBy1 with pending := [.wait], turns := [.host] }.turns = .host :: [] := by decide

theorem witness_EngineStepFrame : ∃ t, engineStep p1Commit = .next t ∧ t.phase = .idle := ⟨_, rfl, rfl⟩

theorem witness_EngineStepFrame_before_commit : ∃ t, engineStep p1Norm = .next t ∧ t.phase = .by1 ∧ p1Norm.phase ≠ .commit :=
  ⟨_, rfl, rfl, by decide⟩

theorem witness_OnlyTheHostWritesOperands :
    ∃ t, step { State.reset with pending := [.write 0x07F 5] } = .next t ∧ t.v ≠ State.reset.v :=
  ⟨_, rfl, by decide⟩

theorem witness_OnlyCommitAcceptAndResetChangeResults :
    (∃ t, step p1Commit = .next t ∧ t.q ≠ p1Commit.q) ∧
    (∃ t, step { p1Done with pending := [.write 0x100 0x10] } = .next t ∧ t.q ≠ p1Done.q) :=
  ⟨⟨_, rfl, by decide⟩, ⟨_, rfl, by decide⟩⟩

theorem witness_StepKeepsTheInvariant : p1Norm.Inv ∧ ∃ t, step p1Norm = .next t := ⟨p1Norm_inv, _, rfl⟩

theorem witness_FaultsExactlyWhereTheHostBreaksAnObligation :
    { operands [1] [] with pending := [.read 0x040] }.nextMove = .host (.read 0x040) (operands [1] []) ∧
    (operands [1] []).Inv ∧ ¬ HostAllowed (.read 0x040) (operands [1] []) :=
  ⟨by decide, operands_inv _ _, fun h => absurd (show ((operands [1] []).v[0]).isSome = true from h) (by decide)⟩

/-- For `CallTakesTheListedSteps`, `DivisionComputesQuotientAndRemainder` and `ResultDependsOnOperandsAlone`, at every width. -/
theorem witness_DivisionComputesQuotientAndRemainder (i : Instr) :
    wide.Inv ∧ wide.busy = false ∧ wide.numerator i.limbs = some (List.replicate i.limbs 7) ∧
    wide.divisor i.limbs = some (List.replicate i.limbs 5) ∧ val (List.replicate i.limbs 5) ≠ 0 :=
  ⟨operands_inv _ _, witness_DivCommandIsAccepted i⟩

/-- Operands of an accepted command with the given divisor and numerator counts. -/
def AcceptedWith (i : Instr) (us vs : List Limb) (n m : Nat) : Prop :=
  ∃ (c : Context) (t : State), (operands us vs).Inv ∧ (operands us vs).numerator i.limbs = some us ∧
    (operands us vs).divisor i.limbs = some vs ∧ normalize us vs = some c ∧ exec i (operands us vs) = .next t ∧
    c.nd = n ∧ c.m = m

/-- One for each path, in the order of the table of R276, both ends of `BY2`, `CF64` and `KNUTH` among them. -/
theorem witness_CallTakesTheListedSteps :
    AcceptedWith .div256 [1, 2, 3, 0] [1, 2, 3, 4] 4 3 ∧ AcceptedWith .div256 [0x80, 0, 0, 0] [1, 0, 0, 0] 1 2 ∧
    AcceptedWith .div256 [1, 2, 0, 0] [1, 3, 0, 0] 2 2 ∧ AcceptedWith .div256 [0, 0, 0, 0xffffffffffffffff] [0, 1, 0, 0] 2 5 ∧
    AcceptedWith .div256 [2, 4, 6, 8] [0x12, 0x8000000000000000, 0, 0] 2 4 :=
  ⟨⟨_, _, operands_inv _ _, by decide, by decide, rfl, rfl, by decide, by decide⟩,
    ⟨_, _, operands_inv _ _, by decide, by decide, rfl, rfl, by decide, by decide⟩,
    ⟨_, _, operands_inv _ _, by decide, by decide, rfl, rfl, by decide, by decide⟩,
    ⟨_, _, operands_inv _ _, by decide, by decide, rfl, rfl, by decide, by decide⟩,
    ⟨_, _, operands_inv _ _, by decide, by decide, rfl, rfl, by decide, by decide⟩⟩

theorem witness_CallTakesTheListedSteps_three_limbs_and_more :
    AcceptedWith .div512 [1, 2, 3, 4, 0, 0, 0, 0] [1, 2, 3, 5, 0, 0, 0, 0] 4 4 ∧
    AcceptedWith .div512 [1, 2, 3, 4, 5, 6, 0, 0] [9, 8, 7, 0x4000000000000000, 0, 0, 0, 0] 4 6 ∧
    AcceptedWith .div512 [1, 2, 3, 4, 5, 6, 7, 0] [9, 8, 7, 0x4000000000000000, 0, 0, 0, 0] 4 7 ∧
    AcceptedWith .div512 [1, 2, 3, 4, 5, 0, 0, 0] [1, 2, 3, 4, 6, 0, 0, 0] 5 5 ∧
    AcceptedWith .div256 [0, 3, 7, 0x8000000000000000] [5, 7, 0x8000000000000000, 0] 3 5 :=
  ⟨⟨_, _, operands_inv _ _, by decide, by decide, rfl, rfl, by decide, by decide⟩,
    ⟨_, _, operands_inv _ _, by decide, by decide, rfl, rfl, by decide, by decide⟩,
    ⟨_, _, operands_inv _ _, by decide, by decide, rfl, rfl, by decide, by decide⟩,
    ⟨_, _, operands_inv _ _, by decide, by decide, rfl, rfl, by decide, by decide⟩,
    ⟨_, _, operands_inv _ _, by decide, by decide, rfl, rfl, by decide, by decide⟩⟩

/-- In the middle of a call, an engine step beside a host that waits and a host step that reads `STATUS`. -/
theorem witness_CallTakesTheListedSteps_in_any_interleaving :
    ({ inKnuth with pending := [.wait], turns := [.engine, .host] }.Inv ∧ inKnuth.phase ≠ .idle ∧ inKnuth.rowsLeft = 4 ∧
      ∃ e t, { inKnuth with pending := [.wait], turns := [.engine, .host] }.nextMove = .engine e ∧
        step { inKnuth with pending := [.wait], turns := [.engine, .host] } = .next t) ∧
    ({ inBy1 with pending := [.read 0x101], turns := [.host] }.Inv ∧ inBy1.rowsLeft = 3 ∧
      ∃ e t, { inBy1 with pending := [.read 0x101], turns := [.host] }.nextMove = .host (.read 0x101) e ∧
        step { inBy1 with pending := [.read 0x101], turns := [.host] } = .next t) :=
  ⟨⟨inKnuth_inv.withEnvironment _ _ _, by decide, by decide, _, _, rfl, rfl⟩,
    ⟨inBy1_inv.withEnvironment _ _ _, by decide, _, _, rfl, rfl⟩⟩

theorem witness_ResultDependsOnOperandsAlone :
    p1Done.Inv ∧ (operands [0x80, 0, 0, 0, 9] [1, 0, 0, 0]).Inv ∧
    p1Done.numerator 4 = (operands [0x80, 0, 0, 0, 9] [1, 0, 0, 0]).numerator 4 ∧
    p1Done.divisor 4 = (operands [0x80, 0, 0, 0, 9] [1, 0, 0, 0]).divisor 4 ∧
    ∃ t1 t2 u1 u2, exec .div256 { p1Done with pending := [] } = .next t1 ∧
      exec .div256 { operands [0x80, 0, 0, 0, 9] [1, 0, 0, 0] with pending := [] } = .next t2 ∧
      Sys2Proof.core.run 1 t1 = .next u1 ∧ Sys2Proof.core.run 1 t2 = .next u2 :=
  ⟨p1Done_inv, operands_inv _ _, by decide, by decide, _, _, _, _, rfl, rfl, rfl, rfl⟩

/-- An instance faults (a read of a limb without a value), the other goes on, and the first is reset: no fault is left. -/
theorem witness_InstancesAreIndependent :
    ((systemRun [.step 0, .step 1] [.next { State.reset with pending := [.read 0] }, .next p1Commit]).map
      fun r => (faultIs r .uninit, nextIs r (fun t => t.done))) = [(true, false), (false, true)] ∧
    ((systemRun [.step 0, .reset 0, .step 1] [.next { State.reset with pending := [.read 0] }, .next p1Commit]).map
      fun r => nextIs r (fun t => t == State.reset || t.done)) = [true, true] ∧ 1 < 2 := by decide

/-- The two ends of the operand addresses, and the last address of a result. -/
theorem witness_ResetStateHoldsNoValue :
    nextIs (hostWrite 0x000 5 State.reset) (fun t => t.u[0] == some 5) = true ∧
    nextIs (hostWrite 0x07F 5 State.reset) (fun t => t.v[63] == some 5) = true ∧
    faultIs (hostRead 0x0FF State.reset) .uninit = true := by decide

/-- A zero numerator: `m0 = 0`. -/
theorem witness_NormalizationCounts_zero_numerator :
    ([0, 0, 0, 0] : List Limb).length = ([9, 0, 0, 0] : List Limb).length ∧ val [9, 0, 0, 0] ≠ 0 ∧
    ∃ c, normalize [0, 0, 0, 0] [9, 0, 0, 0] = some c ∧ c.m = 0 := ⟨rfl, by decide, _, rfl, by decide⟩

end Sys2Proof.Tests
end

section
/-! SUPPORT. The address map and the decoder read backwards, what a step of either agent does to the state as one update,
and the statements of 10_state.md. -/

namespace Sys2Proof.Machine

/-! ## The address map (R51) -/

/-- R51: every register answers at its own address. -/
@[simp] theorem regAt_addr (reg : Reg) : regAt reg.addr = some reg := by
  have below (i : Fin limbMax) : i.val < 64 := i.isLt
  cases reg with
  | u i => rw [Reg.addr, regAt, dif_pos (below i)]
  | v i => have := below i; rw [Reg.addr, regAt, dif_neg (by omega), dif_pos (by omega)]; simp
  | q i => have := below i; rw [Reg.addr, regAt, dif_neg (by omega), dif_neg (by omega), dif_pos (by omega)]; simp
  | r i =>
    have := below i
    rw [Reg.addr, regAt, dif_neg (by omega), dif_neg (by omega), dif_neg (by omega), dif_pos (by omega)]; simp
  | cmd => rfl
  | status => rfl

/-- R51: the register found at an address is the one whose address it is. -/
theorem addr_of_regAt {a : Nat} {reg : Reg} (h : regAt a = some reg) : a = reg.addr := by
  unfold regAt at h
  split_ifs at h <;> cases h <;> simp only [Reg.addr] <;> omega

theorem regAt_eq_some {a : Nat} {reg : Reg} : regAt a = some reg ↔ a = reg.addr :=
  ⟨addr_of_regAt, fun h => h ▸ regAt_addr reg⟩

/-- R51: below 0x080 stand the operand limbs. -/
theorem regAt_operand {a : Nat} (h : a < 0x080) :
    (∃ i, regAt a = some (.u i)) ∨ ∃ i, regAt a = some (.v i) := by
  simp only [regAt_eq_some, Reg.addr]
  by_cases hu : a < 0x040
  · exact .inl ⟨⟨a, hu⟩, rfl⟩
  · exact .inr ⟨⟨a - 0x040, show _ < 64 by omega⟩, show a = 0x040 + (a - 0x040) by omega⟩

/-- R51: from 0x080 to 0x0FF stand the result limbs. -/
theorem regAt_result {a : Nat} (hl : 0x080 ≤ a) (hr : a < 0x100) :
    (∃ i, regAt a = some (.q i)) ∨ ∃ i, regAt a = some (.r i) := by
  simp only [regAt_eq_some, Reg.addr]
  by_cases hq : a < 0x0C0
  · exact .inl ⟨⟨a - 0x080, show _ < 64 by omega⟩, show a = 0x080 + (a - 0x080) by omega⟩
  · exact .inr ⟨⟨a - 0x0C0, show _ < 64 by omega⟩, show a = 0x0C0 + (a - 0x0C0) by omega⟩

/-! ## The decoder (R70, R72, R74) -/

/-- R70: the four fields make up the whole word. -/
theorem append_fields (w : Limb) : fieldRsv1 w ++ fieldOpc w ++ fieldRsv0 w ++ fieldWsel w = w := by
  simp only [fieldRsv1, fieldOpc, fieldRsv0, fieldWsel]
  rw [BitVec.extractLsb'_append_extractLsb'_eq_extractLsb' (show 8 = 4 + 4 from rfl),
    BitVec.extractLsb'_append_extractLsb'_eq_extractLsb' (show 4 = 3 + 1 from rfl),
    BitVec.extractLsb'_append_extractLsb'_eq_extractLsb' (show 3 = 0 + 3 from rfl)]
  simp

/-- R72: a width-select code that names an instruction is the instruction's. -/
theorem wsel_of_widthOfWsel {x : BitVec 3} {i : Instr} (h : widthOfWsel x = some i) : x = i.wsel := by
  revert x i; decide

/-- R74: the decoder accepts no word but the instruction's own. -/
theorem eq_encode_of_decode {w : Limb} {i : Instr} (h : decode w = .ok i) : w = encode i := by
  unfold decode at h
  split_ifs at h with h1 h2 h3
  rw [not_not] at h1 h2 h3
  cases hw : widthOfWsel (fieldWsel w) with
  | none => simp [hw] at h
  | some k =>
    obtain rfl : k = i := by simpa [hw] using h
    rw [← append_fields w, h1, h2, h3, wsel_of_widthOfWsel hw, encode]

/-! ## One step as one update of the state -/

/-- R108: the `NORM` step writes the context and the phase alone. -/
theorem normStep_update {s t : State} (h : normStep s = some t) : ∃ c p, t = { s with ctx := c, phase := p } := by
  obtain ⟨_, _, _, c, p, -, -, -, -, rfl⟩ := normStep_eq_some.mp h
  exact ⟨c, p, rfl⟩

/-- R25: a loop phase's step writes the context and the phase alone. -/
theorem loopStep_update {p : Phase} {iterate : Context → Nat → Option Context}
    {exit : Nat → Context → Option Context} {s t : State} (h : loopStep p iterate exit s = some t) :
    ∃ c p', t = { s with ctx := c, phase := p' } := by
  obtain ⟨_, _, c', -, -, ⟨_, -, -, rfl⟩ | ⟨-, -, rfl⟩⟩ := loopStep_eq_some.mp h
  · exact ⟨c', p, rfl⟩
  · exact ⟨c', .commit, rfl⟩

/-- R177: a closed-form phase's step writes the context and the phase alone. -/
theorem routineStep_update {routine : Nat → Context → Option Context} {s t : State}
    (h : routineStep routine s = some t) : ∃ c p, t = { s with ctx := c, phase := p } := by
  obtain ⟨_, _, c', -, -, -, rfl⟩ := routineStep_eq_some.mp h
  exact ⟨c', .commit, rfl⟩

/-- R178: the commit writes the results and the flags and ends the call. -/
theorem commitStep_update {s t : State} (h : commitStep s = some t) :
    ∃ q r, t = { s.flagsCommit with q := q, r := r, phase := .idle, lw := none, ctx := none } := by
  obtain ⟨_, _, _, _, -, -, -, -, rfl⟩ := commitStep_eq_some.mp h
  exact ⟨_, _, rfl⟩

/-- R189, R55: an engine step writes the context and the phase alone; the commit writes the results and ends the call. -/
theorem engineStep_update {s t : State} (h : engineStep s = .next t) :
    (s.phase ≠ .commit ∧ ∃ c p, t = { s with ctx := c, phase := p }) ∨
    (s.phase = .commit ∧ ∃ q r,
      t = { s.flagsCommit with q := q, r := r, phase := .idle, lw := none, ctx := none }) := by
  rcases engineStep_next h with ⟨hp, rfl⟩ | ⟨hp, h⟩ | ⟨hp, h⟩ | ⟨hp, h⟩ | ⟨hp, h⟩ | ⟨hp, h⟩ | ⟨hp, h⟩ | ⟨hp, h⟩
  · exact .inl ⟨by simp [hp], t.ctx, t.phase, rfl⟩
  · exact .inl ⟨by simp [hp], normStep_update h⟩
  · exact .inl ⟨by simp [hp], loopStep_update h⟩
  · exact .inl ⟨by simp [hp], loopStep_update h⟩
  · exact .inl ⟨by simp [hp], routineStep_update h⟩
  · exact .inl ⟨by simp [hp], routineStep_update h⟩
  · exact .inl ⟨by simp [hp], loopStep_update h⟩
  · exact .inr ⟨hp, commitStep_update h⟩

/-- R20, R77, R180, R186, R187, R270: what an item of the host's can do to the state: reset it, write operand limbs of a
block that is not busy, start a call on such a block, or change nothing but what the environment holds. -/
theorem hostStep_update {op : HostOp} {s t : State} (h : hostStep op s = .next t) :
    (op = .reset ∧ t = s.applyReset) ∨
    (s.busy = false ∧ ∃ a x, a < 0x080 ∧ op = .write a x ∧ ∃ u v, t = { s with u := u, v := v }) ∨
    (s.busy = false ∧ ∃ i : Instr, op = .write 0x100 (encode i) ∧
      t = { s.flagsAccept with lw := some i.limbs, q := Bank.noValue, r := Bank.noValue, phase := .norm }) ∨
    (∃ ops xs, t = { s with pending := ops, reads := xs }) := by
  cases op with
  | reset => exact .inl ⟨rfl, by simpa [hostStep, eq_comm] using h⟩
  | wait =>
    rw [hostStep, hostWait_eq] at h
    cases h
    exact .inr (.inr (.inr ⟨_, _, rfl⟩))
  | read a =>
    obtain ⟨x, -, rfl⟩ := hostRead_eq_next.mp h
    exact .inr (.inr (.inr ⟨s.pending, _, rfl⟩))
  | write a x =>
    rcases hostWrite_next h with ⟨i, ha, hb, rfl⟩ | ⟨i, ha, hb, rfl⟩ | ⟨ha, hb, i, hd, hx⟩
    · have : i.val < 64 := i.isLt
      refine .inr (.inl ⟨hb, a, x, ?_, rfl, _, s.v, rfl⟩)
      rw [addr_of_regAt ha]; simp only [Reg.addr]; omega
    · have : i.val < 64 := i.isLt
      refine .inr (.inl ⟨hb, a, x, ?_, rfl, s.u, _, rfl⟩)
      rw [addr_of_regAt ha]; simp only [Reg.addr]; omega
    · rw [exec_eq_startDivide] at hx
      obtain ⟨-, -, -, rfl⟩ := startDivide_eq_next.mp hx
      exact .inr (.inr (.inl ⟨hb, i, by rw [addr_of_regAt ha, eq_encode_of_decode hd]; rfl, rfl⟩))

/-! ## The frame of a step (R22, R23, R28) -/

/-- Settles O48: an engine step is an update of the context and the phase, or the commit. -/
theorem engineStepFrame : Obligations.EngineStepFrame := by
  intro s t h
  rcases engineStep_update h with ⟨-, c, p, rfl⟩ | ⟨hp, q, r, rfl⟩
  · simp
  · simp [hp]

/-- Settles O49: of all moves only a host write below 0x080 and reset write `U` or `V`. -/
theorem onlyTheHostWritesOperands : Obligations.OnlyTheHostWritesOperands := by
  intro s t h hne
  rcases step_next_cases h with ⟨-, -, rfl⟩ | ⟨-, ts, he⟩ | ⟨op, rest, ts, hq, hs⟩
  · simp at hne
  · obtain ⟨⟨hu, hv, -⟩, -⟩ := engineStepFrame _ _ he
    simp [hu, hv] at hne
  · refine ⟨op, rest, hq, ?_⟩
    rcases hostStep_update hs with ⟨rfl, -⟩ | ⟨hb, a, x, ha, rfl, -⟩ | ⟨-, i, rfl, rfl⟩ | ⟨ops, xs, rfl⟩
    · exact .inl rfl
    · exact .inr ⟨hb, a, x, ha, rfl⟩
    · simp at hne
    · simp at hne

/-- Settles O50: of all moves only the commit, an accepted command and reset write `Q` or `R`. -/
theorem onlyCommitAcceptAndResetChangeResults : Obligations.OnlyCommitAcceptAndResetChangeResults := by
  intro s t h hne
  rcases step_next_cases h with ⟨-, -, rfl⟩ | ⟨-, ts, he⟩ | ⟨op, rest, ts, hq, hs⟩
  · simp at hne
  · rcases engineStep_update he with ⟨-, c, p, rfl⟩ | ⟨hp, q, r, rfl⟩
    · simp at hne
    · exact .inl ⟨hp, rfl, rfl⟩
  · refine .inr ⟨op, rest, hq, ?_⟩
    rcases hostStep_update hs with ⟨rfl, -⟩ | ⟨-, a, x, -, -, u, v, rfl⟩ | ⟨hb, i, rfl, rfl⟩ | ⟨ops, xs, rfl⟩
    · exact .inl rfl
    · simp at hne
    · exact .inr ⟨hb, rfl, rfl, rfl, i, rfl⟩
    · simp at hne

/-- Settles O54: of all moves only an accepted command sets `BUSY`, and only the commit and reset clear it. -/
theorem callBeginsAtCommandAndEndsAtCommit : Obligations.CallBeginsAtCommandAndEndsAtCommit := by
  intro s t h
  by_cases hkept : t.busy = s.busy
  · exact ⟨fun hs ht => by simp [hkept, hs] at ht, fun hs ht => by simp [hkept, hs] at ht⟩
  rcases step_next_cases h with ⟨-, -, rfl⟩ | ⟨-, ts, he⟩ | ⟨op, rest, ts, hq, hs⟩
  · exact absurd rfl hkept
  · rcases engineStep_update he with ⟨-, c, p, rfl⟩ | ⟨hp, q, r, rfl⟩
    · exact absurd rfl hkept
    · exact ⟨by simp, fun _ _ => .inl ⟨hp, rfl, rfl⟩⟩
  · rcases hostStep_update hs with ⟨rfl, rfl⟩ | ⟨-, a, x, -, -, u, v, rfl⟩ | ⟨hb, i, rfl, rfl⟩ | ⟨ops, xs, rfl⟩
    · exact ⟨by simp, fun _ _ => .inr ⟨rest, hq⟩⟩
    · exact absurd rfl hkept
    · exact ⟨fun _ _ => ⟨i, rest, hq⟩, by simp⟩
    · exact absurd rfl hkept

/-! ## Whose step is next (R20, R58) -/

/-- With no turn left, a call's next step is the engine's. -/
theorem step_of_no_turn {s : State} (hp : s.phase ≠ .idle) (ht : s.turns = []) : step s = engineStep s := by
  have : s.nextMove = .engine s := by cases hq : s.pending <;> simp [State.nextMove, hq, hp, ht]
  rw [step_eq, this]; rfl

/-- During a call whose host has something to do, the engine takes its turn. -/
theorem step_of_engine_turn {s : State} {op : HostOp} {rest : List HostOp} {ts : List Agent}
    (hp : s.phase ≠ .idle) (hq : s.pending = op :: rest) (ht : s.turns = .engine :: ts) :
    step s = engineStep { s with turns := ts } := by
  simp [step_eq, State.nextMove, hp, hq, ht, Move.run]

/-- During a call the host takes its turn. -/
theorem step_of_host_turn {s : State} {op : HostOp} {rest : List HostOp} {ts : List Agent}
    (hp : s.phase ≠ .idle) (hq : s.pending = op :: rest) (ht : s.turns = .host :: ts) :
    step s = hostStep op { s with pending := rest, turns := ts } := by
  simp [step_eq, State.nextMove, hp, hq, ht, Move.run]

/-- An idle block whose host has nothing to do stays as it is. -/
theorem step_of_ended {s : State} (hp : s.phase = .idle) (hq : s.pending = []) : step s = .next s := by
  simp [step_eq, State.nextMove, hp, hq, Move.run]

/-- Settles O47, case by case of the schedule. -/
theorem nextStepFollowsTheTurns : Obligations.NextStepFollowsTheTurns := fun _ =>
  ⟨step_of_ended, fun _ _ => step_of_idle, step_of_busy_alone, step_of_no_turn,
    fun _ _ _ => step_of_engine_turn, fun _ _ _ => step_of_host_turn⟩

/-! ## The reset state (R33) -/

/-- Settles O51: no call is in progress and nothing holds a value. -/
theorem resetMeetsTheInvariant : Obligations.ResetMeetsTheInvariant where
  busy_iff := by decide
  not_both := by decide
  no_context _ := ⟨rfl, rfl⟩
  no_results _ := ⟨rfl, rfl⟩
  results h := nomatch h
  call h := absurd rfl h

/-- R244: a limb without a value makes every operand it belongs to unreadable. -/
theorem readPrefix_of_limb_none {b : Bank} {len : Nat} {k : Fin limbMax} (hk : k.val < len) (hb : b[k.val] = none) :
    b.readPrefix len = none := by
  cases hr : b.readPrefix len with
  | none => rfl
  | some xs =>
    have := congrArg (·[k.val]?) (readPrefix_eq_some.mp hr)
    simp [hk, hb] at this

/-- R244 (a): after reset, a read of a bank limb faults. -/
theorem hostRead_reset {a : Nat} (h : a < 0x100) : hostRead a State.reset = .fault .uninit := by
  have : State.reset.readWord a = .error .uninit := by
    unfold State.readWord
    by_cases ho : a < 0x080
    · rcases regAt_operand ho with ⟨i, hi⟩ | ⟨i, hi⟩ <;> simp [hi, State.reset]
    · rcases regAt_result (Nat.le_of_not_lt ho) h with ⟨i, hi⟩ | ⟨i, hi⟩ <;> simp [hi, State.reset]
  simp [hostRead, this, raise]

/-- R244 (b): after reset, every command faults. -/
theorem exec_reset (i : Instr) : exec i State.reset = .fault .uninit := by
  have hu : State.reset.numerator i.limbs = none :=
    readPrefix_of_limb_none (k := 0) (Nat.lt_of_lt_of_le (by decide) (limbs_ge_four i)) (noValue_get 0)
  have hb : State.reset.busy = false := rfl
  simp [exec_eq_startDivide, startDivide, hu, hb, raise]

/-- R186, R187: what a host write to an operand limb of a block that is not busy wrote is what a read returns. -/
theorem hostWrite_operand_reads_back {a : Nat} {s : State} (h : a < 0x080) (hb : s.busy = false) (x : Limb) :
    ∃ t, hostWrite a x s = .next t ∧ t.readWord a = .ok x := by
  rcases regAt_operand h with ⟨i, hi⟩ | ⟨i, hi⟩
  · exact ⟨{ s with u := s.u.write i x }, by simp [hostWrite, hi, hb], by simp [State.readWord, hi, bank_write_get]⟩
  · exact ⟨{ s with v := s.v.write i x }, by simp [hostWrite, hi, hb], by simp [State.readWord, hi, bank_write_get]⟩

/-- Settles O13: no limb holds a value after reset, so every read and every command meets one without. -/
theorem resetStateHoldsNoValue : Obligations.ResetStateHoldsNoValue :=
  ⟨rfl, rfl, rfl, rfl, rfl, fun i => ⟨noValue_get i, noValue_get i, noValue_get i, noValue_get i⟩,
    fun _ => hostRead_reset, exec_reset, fun _ x ha => hostWrite_operand_reads_back ha rfl x⟩

/-! ## The status word (R27, R28) -/

/-- R27: with at most one flag set the word is 0, 1 or 2, and 1 is `BUSY` alone. -/
theorem statusWord_cases {s : State} (h : ¬ (s.busy = true ∧ s.done = true)) :
    (s.statusWord = 0 ∨ s.statusWord = 1 ∨ s.statusWord = 2) ∧ (s.statusWord = 1 ↔ s.busy = true) := by
  revert h
  unfold State.statusWord
  generalize s.busy = b, s.done = d
  revert b d; decide

/-- Settles O10: `BUSY` and `DONE` are never both set, and `BUSY` is set exactly during a call. -/
theorem statusIsZeroOneOrTwo : Obligations.StatusIsZeroOneOrTwo := by
  intro s hs
  rw [← hs.busy_iff]
  exact statusWord_cases hs.not_both

/-! ## The context's ranges (R25, R30) -/

/-- R72: the five limb counts. -/
theorem limbs_cases (i : Instr) : i.limbs = 4 ∨ i.limbs = 8 ∨ i.limbs = 16 ∨ i.limbs = 32 ∨ i.limbs = 64 := by
  cases i <;> decide

/-- R105: the adjustment raises the count by at most one. -/
theorem adjustedCount_le {un vn : List Limb} {m0 n m : Nat} (h : adjustedCount un vn m0 n = some m) : m ≤ m0 + 1 := by
  unfold adjustedCount at h
  split at h
  · cases h; omega
  · split at h
    · cases h; split <;> omega
    · cases h

/-- R30: the ranges of what `NORM` writes from operands of `len` limbs. -/
theorem normalize_ranges {us vs : List Limb} {c : Context} (h : normalize us vs = some c) :
    c.vn.length = vs.length ∧ c.s ≤ 63 ∧ c.m ≤ us.length + 1 ∧ 1 ≤ c.nd ∧ c.nd ≤ vs.length := by
  obtain ⟨hn, top, htop, hs, hnd, hvn, -, hm, -⟩ := normalize_eq_some h
  obtain ⟨⟨top', htop', hne⟩, -⟩ := sigLimbs_spec vs hn
  obtain rfl : top = top' := Option.some.inj (htop.symm.trans htop')
  refine ⟨by simp [hvn], hs ▸ (leadingZeroCount_spec hne).1, ?_, by omega, hnd ▸ sigLimbs_le_length vs⟩
  exact (adjustedCount_le hm).trans (Nat.succ_le_succ (sigLimbs_le_length us))

/-- R25: in a loop phase `J` is -1 or the index of an iteration below the numerator's count. -/
theorem phaseInv_loop_index {p : Phase} {us vs : List Limb} {c0 c : Context} (h : PhaseInv p us vs c0 c)
    (hp : p = .by1 ∨ p = .by2 ∨ p = .knuth) : ∃ k : Nat, k + 1 ≤ c.m ∧ c.j = some ((k : Int) - 1) := by
  rcases hp with rfl | rfl | rfl
  · obtain ⟨_, _, k, -, hk, hj, -⟩ := h
    exact ⟨k, hk, hj⟩
  · obtain ⟨_, _, _, _, k, -, hk, hj, -⟩ := h
    exact ⟨k, by omega, hj⟩
  · obtain ⟨_, _, k, hn, hk, hj, -⟩ := h
    exact ⟨k, by omega, hj⟩

/-- The call a context belongs to. -/
theorem State.Inv.call_of_ctx {s : State} {c : Context} (h : s.Inv) (hc : s.ctx = some c) :
    ∃ (i : Instr) (us vs : List Limb) (c0 : Context), s.lw = some i.limbs ∧
      s.numerator i.limbs = some us ∧ s.divisor i.limbs = some vs ∧ SameCall us vs c0 c ∧
      PhaseInv s.phase us vs c0 c := by
  have hp : s.phase ≠ .idle := fun hp => by simp [(h.no_context hp).2] at hc
  obtain ⟨i, us, vs, hl, hu, hv, -, ⟨-, hn⟩ | ⟨c0, c', hc', hsame, hphase⟩⟩ := h.call hp
  · simp [hn] at hc
  · obtain rfl : c' = c := Option.some.inj (hc'.symm.trans hc)
    exact ⟨i, us, vs, c0, hl, hu, hv, hsame, hphase⟩

/-- Settles O53: the ranges `NORM` establishes stay, as the later steps keep the counts and the sizes. -/
theorem contextFitsItsRegisters : Obligations.ContextFitsItsRegisters := by
  intro s c len hs hc hl
  obtain ⟨i, us, vs, c0, hli, hu, hv, hsame, hphase⟩ := hs.call_of_ctx hc
  obtain rfl : i.limbs = len := Option.some.inj (hli.symm.trans hl)
  have hus : us.length = i.limbs := readPrefix_length hu (limbs_le_max i)
  have hvs : vs.length = i.limbs := readPrefix_length hv (limbs_le_max i)
  have hmax : i.limbs ≤ 64 := limbs_le_max i
  obtain ⟨hvn, hsh, hm, hn1, hn⟩ := normalize_ranges hsame.built
  rw [← hsame.vn_eq] at hvn
  rw [← hsame.s_eq] at hsh
  rw [← hsame.m_eq] at hm
  rw [← hsame.nd_eq] at hn1 hn
  refine ⟨limbs_cases i, hus ▸ hsame.un_length, hvn.trans hvs, hus ▸ hsame.qa_length, hus ▸ hsame.ra_length,
    hsh, by omega, hn1, by omega, fun hp => ?_⟩
  obtain ⟨k, hk, hj⟩ := phaseInv_loop_index hphase hp
  exact ⟨_, hj, by omega, by omega⟩

end Sys2Proof.Machine
end

section
/-! SUPPORT. The statements of 20_memory.md. -/

namespace Sys2Proof.Machine

/-! ## The address map (R51) -/

/-- R51: `STATUS` stands at the last address of the map. -/
theorem addr_le_status (reg : Reg) : reg.addr ≤ Reg.addr .status := by
  have below (i : Fin limbMax) : i.val < 64 := i.isLt
  cases reg with
  | u i | v i | q i | r i => have := below i; simp only [Reg.addr]; omega
  | cmd | status => decide

/-- R51: every address above `STATUS` is reserved. -/
theorem regAt_reserved {a : Nat} (h : 0x102 ≤ a) : regAt a = none := by
  refine Option.eq_none_iff_forall_not_mem.mpr fun reg hreg => ?_
  have ha : a ≤ 0x101 := addr_of_regAt hreg ▸ addr_le_status reg
  omega

/-- Settles O4: a register answers at its own address and at no other, and every address above `STATUS` is reserved. -/
theorem addressMapNamesEveryRegister : Obligations.AddressMapNamesEveryRegister := by
  refine ⟨fun i => ⟨?u, regAt_addr (.v i), regAt_addr (.q i), regAt_addr (.r i)⟩, regAt_addr .cmd, regAt_addr .status,
    fun _ => regAt_reserved, fun _ _ => regAt_eq_some⟩
  case u => rw [Nat.zero_add]; exact regAt_addr (.u i)

end Sys2Proof.Machine
end

section
/-! SUPPORT. The decoder and the encoder, runs of the host's reads and writes on an idle block, and the statements of
30_encoding.md. -/

namespace Sys2Proof.Machine

/-! ## The command words (R72, R73, R74) -/

/-- R73: an instruction's word decodes to it. -/
@[simp] theorem decode_encode (i : Instr) : decode (encode i) = .ok i := by
  cases i <;> rfl

/-- Settles O2: the decoder checks every field, and an instruction's own word passes. -/
theorem decodeAcceptsExactlyTheEncodedWord : Obligations.DecodeAcceptsExactlyTheEncodedWord :=
  fun _ i => ⟨eq_encode_of_decode, fun h => h ▸ decode_encode i⟩

/-- Settles O1: the five words are the instructions' encodings, and the rest is R72's table. -/
theorem commandWordsDecodeToTheirWidths : Obligations.CommandWordsDecodeToTheirWidths :=
  ⟨decode_encode .div256, decode_encode .div512, decode_encode .div1024, decode_encode .div2048, decode_encode .div4096,
    rfl, rfl, rfl, rfl, rfl, rfl, rfl, rfl, rfl, rfl, rfl, rfl, rfl⟩

/-! ## The `WAIT` loop (R77) -/

/-- Settles O11, by the value of `DONE`. -/
theorem waitRepeatsUntilDone : Obligations.WaitRepeatsUntilDone := by
  refine fun s => ⟨fun hd => (hostWait_eq s).trans ?_, fun hd => (hostWait_eq s).trans ?_⟩
  · rw [if_pos hd]
  · rw [if_neg (by simp [hd])]

/-! ## Runs, step by step -/

/-- A run begins with its first step. -/
theorem run_succ_of_next {M : Host.Core} {s t : M.State} (h : M.step s = .next t) (k : Nat) :
    M.run (k + 1) s = M.run k t := by
  rw [Host.Core.run, h]

/-- A run ends at its first fault. -/
theorem run_succ_of_fault {M : Host.Core} {s : M.State} {f : M.Fault} (h : M.step s = .fault f) (k : Nat) :
    M.run (k + 1) s = .fault f := by
  rw [Host.Core.run, h]

/-- The host being about to do `op`, an idle block's step is that access. -/
theorem step_of_idle_pending {s : State} (hp : s.phase = .idle) (op : HostOp) (rest : List HostOp) :
    step { s with pending := op :: rest } = hostStep op { s with pending := rest } :=
  step_of_idle (s := { s with pending := op :: rest }) hp rfl

/-! ## Loading a bank (R77, R186) -/

/-- R186: a block that is not busy takes a word written to `U`. -/
theorem hostWrite_u {s : State} (hb : s.busy = false) (i : Fin limbMax) (x : Limb) :
    hostWrite (0x000 + i.val) x s = .next { s with u := s.u.write i x } := by
  obtain ⟨hu, -⟩ := addressMapNamesEveryRegister.1 i
  simp only [hostWrite, hu, hb, Bool.false_eq_true, if_false]

/-- R186: a block that is not busy takes a word written to `V`. -/
theorem hostWrite_v {s : State} (hb : s.busy = false) (i : Fin limbMax) (x : Limb) :
    hostWrite (0x040 + i.val) x s = .next { s with v := s.v.write i x } := by
  obtain ⟨-, hv, -⟩ := addressMapNamesEveryRegister.1 i
  simp only [hostWrite, hv, hb, Bool.false_eq_true, if_false]

@[simp] theorem writePrefix_nil (b : Bank) : b.writePrefix [] = b := by
  apply Vector.ext
  intro k hk
  simpa using writePrefix_get b [] ⟨k, hk⟩

/-- A limb written just above those written to the bottom of a bank joins them. -/
theorem write_writePrefix (b : Bank) (xs : List Limb) (x : Limb) (i : Fin limbMax) (hi : i.val = xs.length) :
    (b.writePrefix xs).write i x = b.writePrefix (xs ++ [x]) := by
  apply Vector.ext
  intro k hk
  have hw := bank_write_get (b.writePrefix xs) i ⟨k, hk⟩ x
  have hl := writePrefix_get b xs ⟨k, hk⟩
  have hr := writePrefix_get b (xs ++ [x]) ⟨k, hk⟩
  simp only [Fin.ext_iff, hi] at hw hl hr
  rw [hw, hl, hr]
  rcases Nat.lt_trichotomy k xs.length with hlt | rfl | hgt
  · rw [if_neg hlt.ne, List.getElem?_append_left hlt]
  · simp
  · rw [if_neg hgt.ne', List.getElem?_eq_none hgt.le, List.getElem?_eq_none (by simpa using hgt)]

section
variable {base : Nat} {put : Bank → List HostOp → State}
  (hput : ∀ (b : Bank) (i : Fin limbMax) (x : Limb) (ops : List HostOp),
    step (put b (.write (base + i.val) x :: ops)) = .next (put (b.write i x) ops))
include hput

/-- R77: where a write to address `base + i` is a write to limb `i` of the bank that `put` places in the state, the writes
of consecutive limbs, those of `written` made already, leave all of them in the bank. -/
theorem run_writes (b : Bank) (written xs : List Limb) (hlen : written.length + xs.length ≤ limbMax) :
    Sys2Proof.core.run xs.length
        (put (b.writePrefix written) ((xs.zipIdx written.length).map fun p => .write (base + p.2) p.1)) =
      .next (put (b.writePrefix (written ++ xs)) []) := by
  induction xs generalizing written with
  | nil => rw [List.append_nil]; rfl
  | cons x xs ih =>
    rw [List.length_cons] at hlen
    have hstep := hput (b.writePrefix written) ⟨written.length, by omega⟩ x
    have hrest := ih (written ++ [x]) (by rw [List.length_append, List.length_singleton]; omega)
    rw [List.length_append, List.length_singleton, List.append_assoc] at hrest
    rw [write_writePrefix b written x _ rfl] at hstep
    exact (run_succ_of_next (M := Sys2Proof.core) (hstep _) _).trans hrest

/-- R77: the run of a whole load. -/
theorem run_loadOps (b : Bank) (w : Instr) (x : Nat) :
    Sys2Proof.core.run w.limbs (put b (loadOps base w x)) =
      .next (put (b.writePrefix (limbsOf w.limbs x)) []) := by
  have h := run_writes hput b [] (limbsOf w.limbs x) (by simpa using limbs_le_max w)
  rwa [limbsOf_length, writePrefix_nil] at h

end

/-- R77: `LDU<N>` on an idle block. -/
theorem run_ldu {s : State} (hp : s.phase = .idle) (hb : s.busy = false) (w : Instr) (x : Nat) :
    Sys2Proof.core.run w.limbs (s.withProgram [.ldu w x]) =
      .next { s with u := s.u.writePrefix (limbsOf w.limbs x), pending := [] } := by
  have hput (b : Bank) (i : Fin limbMax) (y : Limb) (ops : List HostOp) :
      step { s with u := b, pending := .write (0x000 + i.val) y :: ops } =
        .next { s with u := b.write i y, pending := ops } :=
    (step_of_idle_pending (s := { s with u := b }) hp _ ops).trans
      (hostWrite_u (s := { s with u := b, pending := ops }) hb i y)
  have h := run_loadOps (put := fun b ops => { s with u := b, pending := ops }) hput s.u w x
  simpa [State.withProgram, programOps, expandLine] using h

/-- R77: `LDV<N>` on an idle block. -/
theorem run_ldv {s : State} (hp : s.phase = .idle) (hb : s.busy = false) (w : Instr) (x : Nat) :
    Sys2Proof.core.run w.limbs (s.withProgram [.ldv w x]) =
      .next { s with v := s.v.writePrefix (limbsOf w.limbs x), pending := [] } := by
  have hput (b : Bank) (i : Fin limbMax) (y : Limb) (ops : List HostOp) :
      step { s with v := b, pending := .write (0x040 + i.val) y :: ops } =
        .next { s with v := b.write i y, pending := ops } :=
    (step_of_idle_pending (s := { s with v := b }) hp _ ops).trans
      (hostWrite_v (s := { s with v := b, pending := ops }) hb i y)
  have h := run_loadOps (put := fun b ops => { s with v := b, pending := ops }) hput s.v w x
  simpa [State.withProgram, programOps, expandLine] using h

/-- R72, R77: a literal below `2^N` is the value of the limbs it is loaded as, which the bank then holds in its low limbs, the
limbs above being as they were. -/
theorem writePrefix_limbsOf (b : Bank) (w : Instr) {x : Nat} (hx : x < 2 ^ w.bits) :
    (b.writePrefix (limbsOf w.limbs x)).readPrefix w.limbs = some (limbsOf w.limbs x) ∧ val (limbsOf w.limbs x) = x ∧
      ∀ k : Fin limbMax, w.limbs ≤ k.val → (b.writePrefix (limbsOf w.limbs x))[k.val] = b[k.val] := by
  refine ⟨?_, val_limbsOf_of_lt (by rwa [limbBase, ← pow_mul]), fun k hk => ?_⟩
  · have h := readPrefix_writePrefix b (limbsOf w.limbs x) (by simpa using limbs_le_max w)
    rwa [limbsOf_length] at h
  · rw [writePrefix_get, List.getElem?_eq_none (by simpa using hk), Option.none_or]

/-! ## Reading a bank (R77, R187) -/

/-- R187, R244 (a): what reading a bank limb returns, by what the limb holds. -/
def limbOrUninit : Option Limb → Except Fault Limb
  | some x => .ok x
  | none => .error .uninit

/-- R187: a read of `Q` looks at that limb. -/
theorem readWord_q (s : State) (i : Fin limbMax) : s.readWord (0x080 + i.val) = limbOrUninit s.q[i.val] := by
  obtain ⟨-, -, hq, -⟩ := addressMapNamesEveryRegister.1 i
  rw [State.readWord, hq]; rfl

/-- R187: a read of `R` looks at that limb. -/
theorem readWord_r (s : State) (i : Fin limbMax) : s.readWord (0x0C0 + i.val) = limbOrUninit s.r[i.val] := by
  obtain ⟨-, -, -, hr⟩ := addressMapNamesEveryRegister.1 i
  rw [State.readWord, hr]; rfl

theorem hostRead_eq_fault {a : Nat} {s : State} {f : Fault} : hostRead a s = .fault f ↔ s.readWord a = .error f := by
  unfold hostRead raise
  cases s.readWord a <;> simp

/-- R77: what the reads of limbs come to: their values, if all have one, join what the host has seen. -/
def readsOutcome (s : State) : Option (List Limb) → Host.Outcome State Fault Refusal
  | some xs => .next { s with reads := s.reads ++ xs, pending := [] }
  | none => raise .uninit

/-- The value of a limb already read stands before those of the limbs still to read. -/
theorem readsOutcome_cons (s : State) (x : Limb) (limbs : List (Option Limb)) :
    readsOutcome { s with reads := s.reads ++ [x] } (allSome limbs) = readsOutcome s (allSome (some x :: limbs)) := by
  cases hl : allSome limbs <;> simp [allSome, hl, readsOutcome]

/-- R77, R187: on an idle block, reads whose addresses are those of the given limbs return the limbs in order, or fault at the
first without a value. -/
theorem run_reads {s : State} (hp : s.phase = .idle) (addrs : List Nat) (limbs : List (Option Limb))
    (h : addrs.map s.readWord = limbs.map limbOrUninit) :
    Sys2Proof.core.run addrs.length { s with pending := addrs.map .read } = readsOutcome s (allSome limbs) := by
  induction limbs generalizing s addrs with
  | nil =>
    obtain rfl := List.map_eq_nil_iff.mp h
    rw [allSome, readsOutcome, List.append_nil]; rfl
  | cons l limbs ih =>
    obtain ⟨a, addrs, rfl, ha, hrest⟩ := List.map_eq_cons_iff.mp h
    have hstep : step { s with pending := .read a :: addrs.map .read } =
        hostRead a { s with pending := addrs.map .read } := step_of_idle_pending hp _ _
    cases l with
    | none => exact run_succ_of_fault (M := Sys2Proof.core) (hstep.trans (hostRead_eq_fault.mpr ha)) _
    | some x =>
      have hrun := ih (s := { s with reads := s.reads ++ [x] }) hp addrs hrest
      refine (run_succ_of_next (M := Sys2Proof.core) (hstep.trans (hostRead_eq_next.mpr ⟨x, ha, rfl⟩)) _).trans ?_
      exact hrun.trans (readsOutcome_cons s x limbs)

/-- R77: on an idle block, the reads of a bank's low limbs, which stand from address `base` on. -/
theorem run_readOps {s : State} (hp : s.phase = .idle) {base : Nat} {b : Bank}
    (hread : ∀ i : Fin limbMax, s.readWord (base + i.val) = limbOrUninit b[i.val]) (w : Instr) :
    Sys2Proof.core.run w.limbs { s with pending := readOps base w } = readsOutcome s (b.readPrefix w.limbs) := by
  have hmax : w.limbs ≤ limbMax := limbs_le_max w
  have h := run_reads hp ((List.range w.limbs).map (base + ·)) (b.toList.take w.limbs) (by
    apply List.ext_getElem
    · simpa using hmax
    · intro k hk _
      have hk' : k < w.limbs := by simpa using hk
      simpa using hread ⟨k, hk'.trans_le hmax⟩)
  simpa [readOps, Function.comp_def, Bank.readPrefix] using h

/-- R77: `RDQ<N>` on an idle block. -/
theorem run_rdq {s : State} (hp : s.phase = .idle) (w : Instr) :
    Sys2Proof.core.run w.limbs (s.withProgram [.rdq w]) = readsOutcome s (s.q.readPrefix w.limbs) := by
  simpa [State.withProgram, programOps, expandLine] using run_readOps hp (readWord_q s) w

/-- R77: `RDR<N>` on an idle block. -/
theorem run_rdr {s : State} (hp : s.phase = .idle) (w : Instr) :
    Sys2Proof.core.run w.limbs (s.withProgram [.rdr w]) = readsOutcome s (s.r.readPrefix w.limbs) := by
  simpa [State.withProgram, programOps, expandLine] using run_readOps hp (readWord_r s) w

/-- Settles O12: a load writes the low limbs of its bank, and a read-out collects them. -/
theorem pseudoInstructionsLoadAndRead : Obligations.PseudoInstructionsLoadAndRead := by
  intro w s hp
  have hq := run_rdq hp w
  have hr := run_rdr hp w
  refine ⟨fun x hx hb => ⟨?ldu, ?ldv⟩, fun _ h => hq.trans (congrArg _ h), fun _ h => hr.trans (congrArg _ h),
    fun h => hq.trans (congrArg _ h), fun h => hr.trans (congrArg _ h)⟩
  case ldu =>
    obtain ⟨hread, hval, habove⟩ := writePrefix_limbsOf s.u w hx
    exact ⟨_, _, run_ldu hp hb w x, hread, hval, habove, rfl⟩
  case ldv =>
    obtain ⟨hread, hval, habove⟩ := writePrefix_limbsOf s.v w hx
    exact ⟨_, _, run_ldv hp hb w x, hread, hval, habove, rfl⟩

end Sys2Proof.Machine
end

section
/-! SUPPORT. Limbs read off an array's value, what `NORM` builds in terms of the values of its operands, and the statements
of 41_normalization.md on the shifted copies and the counts. -/

namespace Sys2Proof.Machine

/-! ## Limbs and values (R10, R13) -/

/-- R10: a limb is its digit of the array's value; above the array both are 0. -/
theorem toNat_getD (xs : List Limb) (i : Nat) : (xs.getD i 0).toNat = val xs / limbBase ^ i % limbBase := by
  induction xs generalizing i with
  | nil => simp
  | cons x xs ih =>
    have hx := limb_lt x
    cases i with
    | zero => simp [Nat.mod_eq_of_lt hx]
    | succ i =>
      rw [List.getD_cons_succ, ih, val_cons, pow_succ', ← Nat.div_div_eq_div_mul,
        Nat.add_mul_div_left _ _ limbBase_pos, Nat.div_eq_of_lt hx, Nat.zero_add]

/-- R10: limbs above the value are zero. -/
theorem getD_eq_zero_of_val_lt {xs : List Limb} {k i : Nat} (h : val xs < limbBase ^ k) (hi : k ≤ i) :
    xs.getD i 0 = 0 := by
  have hlt : val xs < limbBase ^ i := h.trans_le (Nat.pow_le_pow_right limbBase_pos hi)
  apply BitVec.eq_of_toNat_eq
  rw [toNat_getD, Nat.div_eq_of_lt hlt]; rfl

/-- R10: the top limb of a value below `B^(i+1)`. -/
theorem toNat_getD_of_val_lt {xs : List Limb} {i : Nat} (h : val xs < limbBase ^ (i + 1)) :
    (xs.getD i 0).toNat = val xs / limbBase ^ i := by
  rw [toNat_getD, Nat.mod_eq_of_lt (Nat.div_lt_of_lt_mul (by rwa [pow_succ] at h))]

/-- R13: the limb below the significant count is nonzero. -/
theorem getD_sigLimbs_pred_ne_zero {xs : List Limb} (h : sigLimbs xs ≠ 0) : xs.getD (sigLimbs xs - 1) 0 ≠ 0 := by
  obtain ⟨⟨x, hx, hne⟩, -⟩ := sigLimbs_spec xs h
  rwa [List.getD_eq_getElem?_getD, hx]

/-! ## The shifted copies limb by limb (R104) -/

/-- R104: a limb of the left shift, where `low` is the limb below the array's lowest. -/
theorem getD_shiftLeftLimbs (s : Nat) (low : Limb) (xs : List Limb) {i : Nat} (hi : i < xs.length) :
    (shiftLeftLimbs s low xs).getD i 0 = (xs.getD i 0 <<< s) + ((low :: xs).getD i 0 >>> (64 - s)) := by
  induction xs generalizing low i with
  | nil => cases hi
  | cons x xs ih =>
    cases i with
    | zero => rfl
    | succ i => exact ih x (Nat.lt_of_succ_lt_succ hi)

/-- R104: the limbs of the divisor's copy, for a shift by part of a limb. -/
theorem getD_shiftedDivisor {s : Nat} (hs : 0 < s) (vs : List Limb) {i : Nat} (hi : i < vs.length) :
    (shiftedDivisor s vs).getD i 0 = (vs.getD i 0 <<< s) + ((0 :: vs).getD i 0 >>> (64 - s)) := by
  rw [shiftedDivisor, if_neg hs.ne', getD_shiftLeftLimbs s 0 vs hi]

/-- R104: below its top limb the numerator's copy is shifted as the divisor's is. -/
theorem getD_shiftedNumerator {s : Nat} (us : List Limb) {i : Nat} (hi : i < us.length) :
    (shiftedNumerator s us).getD i 0 = (shiftedDivisor s us).getD i 0 := by
  unfold shiftedNumerator shiftedDivisor
  split
  · exact List.getD_append _ _ _ _ hi
  · exact List.getD_append _ _ _ _ (by simpa using hi)

/-- R104: the bits shifted out of the numerator's top limb. -/
theorem getD_shiftedNumerator_top {s : Nat} (hs : 0 < s) (us : List Limb) :
    (shiftedNumerator s us).getD us.length 0 = us.getD (us.length - 1) 0 >>> (64 - s) := by
  have hlast : us.getLastD 0 = us.getD (us.length - 1) 0 := by
    rw [List.getLastD_eq_getLast?, List.getLast?_eq_getElem?, List.getD_eq_getElem?_getD]
  rw [shiftedNumerator, if_neg hs.ne', List.getD_append_right _ _ _ _ (by simp), ← hlast]
  simp

/-- R104: what is shifted up from a limb and what comes from the limb below share no bit. -/
theorem shiftJoin_disjoint (x y : Limb) (s : Nat) : (x <<< s) &&& (y >>> (64 - s)) = 0 := by
  ext i hi
  by_cases h : i < s
  · simp [h]
  · simp [BitVec.getLsbD_of_ge y (64 - s + i) (by omega)]

/-- Settles O29: each limb of a copy joins the operand's limb with the bits of the limb below. -/
theorem shiftedCopiesLimbByLimb : Obligations.ShiftedCopiesLimbByLimb := by
  intro us vs s hne hlen _
  have hpos : 0 < us.length := List.length_pos_iff.mpr hne
  refine ⟨?plain, fun hs => ⟨?low, ?low', fun i h1 hi => ?join, getD_shiftedNumerator_top hs us,
    fun x y => ⟨shiftJoin_disjoint x y s, BitVec.add_eq_or_of_and_eq_zero _ _ (shiftJoin_disjoint x y s)⟩⟩⟩
  case plain => rintro rfl; exact ⟨rfl, rfl⟩
  case low => rw [getD_shiftedDivisor hs vs (hlen ▸ hpos)]; simp
  case low' => rw [getD_shiftedNumerator us hpos, getD_shiftedDivisor hs us hpos]; simp
  case join =>
    obtain ⟨k, rfl⟩ := Nat.exists_eq_add_of_le' h1
    rw [getD_shiftedNumerator us hi, getD_shiftedDivisor hs us hi, getD_shiftedDivisor hs vs (hlen ▸ hi)]
    exact ⟨rfl, rfl⟩

/-! ## What `NORM` builds (R101 to R107) -/

/-- R105, R106: the adjusted count, where the limbs it is tested on are there. -/
theorem adjustedCount_eq {un vn : List Limb} {m0 n : Nat} (hm : m0 < un.length) (hn : n - 1 < vn.length) :
    adjustedCount un vn m0 n = some (if m0 = 0 then 0
      else if un.getD m0 0 ≠ 0 ∨ (vn.getD (n - 1) 0).toNat ≤ (un.getD (m0 - 1) 0).toNat then m0 + 1 else m0) := by
  unfold adjustedCount
  split
  · rfl
  · have hm1 : m0 - 1 < un.length := by omega
    simp [hm, hm1, hn]

/-- R101, R245: a nonzero divisor is all that normalization needs to complete. -/
theorem exists_normalize (us : List Limb) {vs : List Limb} (hv : val vs ≠ 0) : ∃ c, normalize us vs = some c := by
  have hn : sigLimbs vs ≠ 0 := (sigLimbs_eq_zero_iff vs).not.mpr hv
  obtain ⟨⟨top, htop, -⟩, -⟩ := sigLimbs_spec vs hn
  have hle := sigLimbs_le_length vs
  have hm := adjustedCount_eq (un := shiftedNumerator (leadingZeroCount top) us)
    (vn := shiftedDivisor (leadingZeroCount top) vs) (m0 := sigLimbs us) (n := sigLimbs vs)
    (by simpa using Nat.lt_succ_of_le (sigLimbs_le_length us)) (by simp; omega)
  simp [normalize, hn, htop, hm]

section
variable {us vs : List Limb} {c : Context} (h : normalize us vs = some c)
include h

/-- R101, R102: the divisor's count, its top limb, and the shift. -/
theorem normalize_top : c.nd = sigLimbs vs ∧ vs.getD (c.nd - 1) 0 ≠ 0 ∧
    c.s = leadingZeroCount (vs.getD (c.nd - 1) 0) := by
  obtain ⟨hn, top, htop, hs, hnd, -⟩ := normalize_eq_some h
  rw [hnd, hs]
  exact ⟨rfl, getD_sigLimbs_pred_ne_zero hn, by rw [List.getD_eq_getElem?_getD, htop]; rfl⟩

/-- R107 (b): the divisor times `2^s` has `n` limbs and its top bit set. -/
theorem normalize_divisor_bounds : 2 ^ 63 * limbBase ^ (c.nd - 1) ≤ val vs * 2 ^ c.s ∧
    val vs * 2 ^ c.s < limbBase ^ c.nd := by
  obtain ⟨hnd, hne, hs⟩ := normalize_top h
  obtain ⟨-, -, -, hpos, -⟩ := normalize_ranges h
  obtain ⟨hs63, hlo, hhi⟩ := leadingZeroCount_spec hne
  rw [← hs] at hs63 hlo hhi
  have hpow : limbBase ^ c.nd = limbBase ^ (c.nd - 1) * limbBase := by rw [← pow_succ, Nat.sub_add_cancel hpos]
  have htop : (vs.getD (c.nd - 1) 0).toNat = val vs / limbBase ^ (c.nd - 1) :=
    toNat_getD_of_val_lt (by rw [Nat.sub_add_cancel hpos, hnd]; exact val_lt_pow_sigLimbs vs)
  generalize (vs.getD (c.nd - 1) 0).toNat = d at *
  have hsplit := limbBase_split (s := c.s) (by omega)
  constructor
  · calc 2 ^ 63 * limbBase ^ (c.nd - 1) ≤ d * 2 ^ c.s * limbBase ^ (c.nd - 1) := Nat.mul_le_mul_right _ hlo
      _ = d * limbBase ^ (c.nd - 1) * 2 ^ c.s := by ring
      _ ≤ val vs * 2 ^ c.s := Nat.mul_le_mul_right _ (htop ▸ Nat.div_mul_le_self _ _)
  · have hd : d < 2 ^ (64 - c.s) := by
      refine Nat.lt_of_mul_lt_mul_right (a := 2 ^ c.s) ?_
      rwa [← hsplit]
    have hv : val vs < 2 ^ (64 - c.s) * limbBase ^ (c.nd - 1) :=
      (Nat.div_lt_iff_lt_mul (pow_pos limbBase_pos _)).mp (htop ▸ hd)
    calc val vs * 2 ^ c.s < 2 ^ (64 - c.s) * limbBase ^ (c.nd - 1) * 2 ^ c.s :=
          Nat.mul_lt_mul_of_pos_right hv (by positivity)
      _ = limbBase ^ c.nd := by rw [hpow, hsplit]; ring

/-- R103, R107 (a): the shifted numerator. -/
theorem normalize_un : c.un.length = us.length + 1 ∧ val c.un = val us * 2 ^ c.s := by
  obtain ⟨-, hs, -⟩ := normalize_ranges h
  obtain ⟨-, -, -, -, -, -, hun, -⟩ := normalize_eq_some h
  rw [hun]
  exact ⟨shiftedNumerator_length _ _, val_shiftedNumerator _ _ (by omega)⟩

/-- R103, R107 (a): the divisor's top limb loses no bit. -/
theorem normalize_val_vn : val c.vn = val vs * 2 ^ c.s := by
  obtain ⟨-, hs, -, -, hn⟩ := normalize_ranges h
  obtain ⟨-, -, -, -, -, hvn, -⟩ := normalize_eq_some h
  have hval := val_shiftedDivisor c.s vs (by omega)
  have hlt : val vs * 2 ^ c.s < limbBase ^ vs.length :=
    (normalize_divisor_bounds h).2.trans_le (Nat.pow_le_pow_right limbBase_pos hn)
  rw [← hvn] at hval
  generalize (vs.getLastD 0).toNat * 2 ^ c.s / limbBase = lost at hval
  cases lost with
  | zero => simpa using hval
  | succ k => rw [Nat.mul_succ] at hval; omega

/-- R107 (b): the shifted divisor's top limb is what is left of its value above the limbs below. -/
theorem normalize_vn_top : (c.vn.getD (c.nd - 1) 0).toNat = val c.vn / limbBase ^ (c.nd - 1) ∧
    2 ^ 63 ≤ (c.vn.getD (c.nd - 1) 0).toNat := by
  obtain ⟨-, -, -, hpos, -⟩ := normalize_ranges h
  obtain ⟨hlo, hhi⟩ := normalize_divisor_bounds h
  rw [← normalize_val_vn h] at hlo hhi
  have htop := toNat_getD_of_val_lt (xs := c.vn) (i := c.nd - 1) (by rwa [Nat.sub_add_cancel hpos])
  exact ⟨htop, htop ▸ (Nat.le_div_iff_mul_le (pow_pos limbBase_pos _)).mpr hlo⟩

/-- R105, R106: the adjusted count of the numerator. -/
theorem normalize_m : c.m = if sigLimbs us = 0 then 0
    else if c.un.getD (sigLimbs us) 0 ≠ 0 ∨
      (c.vn.getD (c.nd - 1) 0).toNat ≤ (c.un.getD (sigLimbs us - 1) 0).toNat then sigLimbs us + 1 else sigLimbs us := by
  obtain ⟨hvn, -, -, hpos, hn⟩ := normalize_ranges h
  obtain ⟨-, -, -, -, -, -, -, hm, -⟩ := normalize_eq_some h
  have hus := sigLimbs_le_length us
  rw [adjustedCount_eq (by rw [(normalize_un h).1]; omega) (by omega)] at hm
  exact (Option.some.inj hm).symm

/-- R105: the shifted numerator spills less than `2^s` over the limbs of the numerator. -/
theorem normalize_spill_lt : val c.un / limbBase ^ sigLimbs us < 2 ^ c.s := by
  rw [Nat.div_lt_iff_lt_mul (pow_pos limbBase_pos _), (normalize_un h).2, Nat.mul_comm]
  exact Nat.mul_lt_mul_of_pos_left (val_lt_pow_sigLimbs us) (by positivity)

/-- R107 (c), (d): the shifted numerator has `m` limbs, and the top one is below the divisor's. -/
theorem normalize_un_bounds : val c.un < limbBase ^ c.m ∧
    (1 ≤ c.m → (c.un.getD (c.m - 1) 0).toNat < (c.vn.getD (c.nd - 1) 0).toNat) := by
  obtain ⟨-, hs, -⟩ := normalize_ranges h
  have hspill := normalize_spill_lt h
  have hs63 : 2 ^ c.s ≤ 2 ^ 63 := Nat.pow_le_pow_right (by decide) hs
  have hlt : val c.un < limbBase ^ (sigLimbs us + 1) := by
    have hs64 : 2 ^ 63 ≤ limbBase := by decide
    rw [pow_succ']
    exact Nat.lt_mul_of_div_lt (hspill.trans_le (hs63.trans hs64)) (pow_pos limbBase_pos _)
  have hlimb := toNat_getD_of_val_lt hlt
  have hm := normalize_m h
  split at hm
  · rename_i h0
    have hu : val c.un = 0 := by rw [(normalize_un h).2, (sigLimbs_eq_zero_iff us).mp h0, Nat.zero_mul]
    simp [hm, hu]
  · split at hm
    · rw [hm, Nat.add_sub_cancel, hlimb]
      exact ⟨hlt, fun _ => hspill.trans_le (hs63.trans (normalize_vn_top h).2)⟩
    · rename_i hno
      obtain ⟨hz, htop⟩ := not_or.mp hno
      have hzero : val c.un / limbBase ^ sigLimbs us = 0 := by rw [← hlimb, not_not.mp hz]; rfl
      rw [hm]
      exact ⟨(Nat.div_eq_zero_iff_lt (pow_pos limbBase_pos _)).mp hzero, fun _ => not_le.mp htop⟩

/-- R107 (f): fewer limbs than the divisor's leave a numerator below it. -/
theorem normalize_lt_of_count_lt (hmn : c.m < c.nd) : val us < val vs := by
  obtain ⟨hlo, -⟩ := normalize_divisor_bounds h
  refine Nat.lt_of_mul_lt_mul_right (a := 2 ^ c.s) ?_
  calc val us * 2 ^ c.s = val c.un := (normalize_un h).2.symm
    _ < limbBase ^ c.m := (normalize_un_bounds h).1
    _ ≤ limbBase ^ (c.nd - 1) := Nat.pow_le_pow_right limbBase_pos (by omega)
    _ ≤ 2 ^ 63 * limbBase ^ (c.nd - 1) := Nat.le_mul_of_pos_left _ (by decide)
    _ ≤ val vs * 2 ^ c.s := hlo

/-- R107 (g): the quotient has at most `m - n` limbs, as the top limb of `UN` is below that of `VN`. -/
theorem normalize_quotient_lt (hnm : c.nd ≤ c.m) : val c.un / val c.vn < limbBase ^ (c.m - c.nd) := by
  obtain ⟨-, -, -, hpos, -⟩ := normalize_ranges h
  obtain ⟨hlt, htop⟩ := normalize_un_bounds h
  have hm1 : c.m - 1 + 1 = c.m := by omega
  have hu : (c.un.getD (c.m - 1) 0).toNat = val c.un / limbBase ^ (c.m - 1) := toNat_getD_of_val_lt (by rwa [hm1])
  have hlead := htop (by omega)
  rw [hu, (normalize_vn_top h).1, Nat.div_lt_iff_lt_mul (pow_pos limbBase_pos _)] at hlead
  apply Nat.div_lt_of_lt_mul
  calc val c.un < val c.vn / limbBase ^ (c.nd - 1) * limbBase ^ (c.m - 1) := hlead
    _ = val c.vn / limbBase ^ (c.nd - 1) * limbBase ^ (c.nd - 1) * limbBase ^ (c.m - c.nd) := by
        rw [Nat.mul_assoc, ← pow_add]; congr 2; omega
    _ ≤ val c.vn * limbBase ^ (c.m - c.nd) := Nat.mul_le_mul_right _ (Nat.div_mul_le_self _ _)

end

/-- Settles O27: the counts are the operands' significant limb counts, the numerator's adjusted. -/
theorem normalizationCounts : Obligations.NormalizationCounts := by
  intro us vs _ hv
  obtain ⟨c, h⟩ := exists_normalize us hv
  obtain ⟨hnd, hne, hs⟩ := normalize_top h
  obtain ⟨-, hs63, hmle, hn1, hn⟩ := normalize_ranges h
  have hm := normalize_m h
  refine ⟨c, sigLimbs us, h, ⟨hn1, hn, hne, fun i hi => ?_⟩, ⟨sigLimbs_le_length us, ?_, fun i hi => ?_⟩,
    ⟨hs, hs63⟩, fun h0 => ?_, fun h1 => ?_, hmle⟩
  · exact getD_eq_zero_of_val_lt (val_lt_pow_sigLimbs vs) (hnd ▸ hi)
  · exact (eq_or_ne _ 0).imp_right getD_sigLimbs_pred_ne_zero
  · exact getD_eq_zero_of_val_lt (val_lt_pow_sigLimbs us) hi
  · rw [hm, if_pos h0]
  · rw [hm, if_neg (by omega)]

/-- Settles O28: both copies are the operands times `2^s`, and every fact is one about those two values. -/
theorem normalizationFacts : Obligations.NormalizationFacts := by
  intro us vs c _ h
  obtain ⟨hvlen, -, hmle, -⟩ := normalize_ranges h
  obtain ⟨hulen, hun⟩ := normalize_un h
  have hvn := normalize_val_vn h
  obtain ⟨-, hvlt⟩ := normalize_divisor_bounds h
  obtain ⟨hult, htop⟩ := normalize_un_bounds h
  have hquot : val us / val vs = val c.un / val c.vn := by
    rw [hun, hvn, Nat.mul_div_mul_right _ _ (by positivity)]
  have hrem : val c.un % val c.vn = (val us % val vs) * 2 ^ c.s := by rw [hun, hvn, Nat.mul_mod_mul_right]
  exact ⟨⟨hulen, hvlen, hun, hvn⟩, ⟨(normalize_vn_top h).2, fun _ => getD_eq_zero_of_val_lt (hvn ▸ hvlt)⟩,
    fun _ => getD_eq_zero_of_val_lt hult, htop, ⟨hquot, hrem⟩, normalize_lt_of_count_lt h,
    fun hnm => hquot ▸ normalize_quotient_lt h hnm, hmle⟩

end Sys2Proof.Machine
end

section
/-! SUPPORT. What the set-ups, the iterations and the exits of the paths do, and the statements of
42_single_limb_path.md on the `NORM` step's set-up and on one `BY1` step. -/

namespace Sys2Proof.Machine

/-! ## Limb arrays cut at one limb (R10) -/

/-- R10: an array cut at one of its limbs. -/
theorem val_split_at {xs : List Limb} {k : Nat} {x : Limb} (h : xs[k]? = some x) :
    val xs = val (xs.take k) + limbBase ^ k * (x.toNat + limbBase * val (xs.drop (k + 1))) := by
  obtain ⟨hk, rfl⟩ := List.getElem?_eq_some_iff.mp h
  have hlen : (xs.take k).length = k := by simp; omega
  have hcut := val_take_drop xs k
  rwa [hlen, List.drop_eq_getElem_cons hk, val_cons] at hcut

/-- R10: the low limbs up to and with one of them. -/
theorem val_take_succ {xs : List Limb} {k : Nat} {x : Limb} (h : xs[k]? = some x) :
    val (xs.take (k + 1)) = val (xs.take k) + limbBase ^ k * x.toNat := by
  have hlt := (List.getElem?_eq_some_iff.mp h).1
  rw [List.take_add_one, h, Option.toList_some, val_append, val_cons, val_nil, List.length_take, Nat.min_eq_left hlt.le,
    Nat.mul_zero, Nat.add_zero]

/-- R10: a value of `k` limbs has none above them. -/
theorem val_drop_eq_zero {xs : List Limb} {k : Nat} (h : val xs < limbBase ^ k) : val (xs.drop k) = 0 := by
  by_cases hk : k ≤ xs.length
  · have hcut := val_take_drop xs k
    rw [List.length_take, Nat.min_eq_left hk] at hcut
    by_contra hne
    have := Nat.le_mul_of_pos_right (limbBase ^ k) (Nat.pos_of_ne_zero hne)
    omega
  · rw [List.drop_of_length_le (by omega), val_nil]

/-- R10: a value of `k` limbs is the value of the low `k` limbs. -/
theorem val_take_of_lt {xs : List Limb} {k : Nat} (h : val xs < limbBase ^ k) : val (xs.take k) = val xs := by
  rw [val_take_drop xs k, val_drop_eq_zero h, Nat.mul_zero, Nat.add_zero]

/-- R217: the limbs from a written limb on. -/
theorem drop_set_self {xs : List Limb} {k : Nat} (h : k < xs.length) (x : Limb) :
    (xs.set k x).drop k = x :: xs.drop (k + 1) := by
  rw [List.drop_eq_getElem_cons (by simpa using h), List.getElem_set_self, List.drop_set_of_lt (Nat.lt_succ_self k)]

/-- R217: a limb that is there can be written. -/
theorem writeLimb_of_getElem? {xs : List Limb} {i : Nat} {y : Limb} (h : xs[i]? = some y) (x : Limb) :
    writeLimb xs i x = some (xs.set i x) :=
  writeLimb_eq_some.mpr ⟨(List.getElem?_eq_some_iff.mp h).1, rfl⟩

/-- R217: two limbs written together are two limbs written one by one. -/
theorem writeLimbs_pair {xs : List Limb} {i : Nat} (h : i + 1 < xs.length) (x y : Limb) :
    writeLimbs xs i [x, y] = some ((xs.set (i + 1) y).set i x) := by
  have hi : i < (xs.set (i + 1) y).length := by rw [List.length_set]; omega
  refine writeLimbs_eq_some.mpr ⟨h, ?_⟩
  rw [← List.take_append_drop i ((xs.set (i + 1) y).set i x), drop_set_self hi, drop_set_self h,
    List.take_set_of_le le_rfl, List.take_set_of_le (Nat.le_succ i)]
  simp

/-! ## The division units, where their operands meet the precondition (R212, R214) -/

/-- R212: the quotient limb and the remainder limb of a 2-by-1 division. -/
theorem divide2by1_exact {u1 u0 d : Limb} (rcp : Limb) (hd : 2 ^ 63 ≤ d.toNat) (hu : u1.toNat < d.toNat) :
    ∃ q r, divide2by1 u1 u0 d rcp = some (q, r) ∧ pairVal u1 u0 = q.toNat * d.toNat + r.toNat ∧
      r.toNat < d.toNat := by
  refine ⟨_, _, divide2by1_eq_some.mpr ⟨hd, hu, rfl, rfl⟩, ?_⟩
  have hlt : pairVal u1 u0 < d.toNat * limbBase := by
    have h0 := limb_lt u0
    have h1 := Nat.mul_le_mul_right limbBase hu
    rw [Nat.succ_mul] at h1
    rw [pairVal]; omega
  have hr := Nat.mod_lt (pairVal u1 u0) (Nat.zero_lt_of_lt hu)
  rw [lo64_of_lt (div_lt_limbBase hlt), lo64_of_lt (hr.trans (limb_lt d))]
  exact ⟨(Nat.div_add_mod' _ _).symm, hr⟩

/-- R214: the quotient limb and the remainder pair of a 3-by-2 division. -/
theorem divide3by2_exact {u2 u1 u0 d1 d0 : Limb} (rcp : Limb) (hd : 2 ^ 63 ≤ d1.toNat)
    (hu : pairVal u2 u1 < pairVal d1 d0) :
    ∃ q r1 r0, divide3by2 u2 u1 u0 d1 d0 rcp = some (q, r1, r0) ∧
      tripleVal u2 u1 u0 = q.toNat * pairVal d1 d0 + pairVal r1 r0 ∧ pairVal r1 r0 < pairVal d1 d0 := by
  refine ⟨_, _, _, divide3by2_eq_some.mpr ⟨hd, hu, rfl, rfl, rfl⟩, ?_⟩
  have hr := Nat.mod_lt (tripleVal u2 u1 u0) (Nat.zero_lt_of_lt hu)
  rw [lo64_of_lt (div_lt_limbBase (tripleVal_lt hu)), pairVal_hi_lo (hr.trans (pairVal_lt d1 d0))]
  exact ⟨(Nat.div_add_mod' _ _).symm, hr⟩

/-! ## The paths' steps on a context (R121 to R123, R131 to R133, R141 to R153, R177) -/

/-- R121: when the single-limb path is set up, and what is written. -/
theorem by1Setup_eq_some {c c' : Context} : by1Setup c = some c' ↔ 1 ≤ c.m ∧ ∃ d top, c.vn[0]? = some d ∧
    c.un[c.m - 1]? = some top ∧
    c' = { c with
      un := c.un.set (c.m - 1) 0, rcp := some (Config.reciprocalFor1Limb d), rem0 := some top
      j := some ((c.m : Int) - 2) } := by
  constructor
  · intro h
    unfold by1Setup at h
    split at h
    · cases h
    rename_i hm
    split at h
    case h_2 => cases h
    rename_i d top hd htop
    rw [writeLimb_of_getElem? htop] at h
    cases h
    exact ⟨Nat.le_of_not_lt hm, d, top, hd, htop, rfl⟩
  · rintro ⟨hm, d, top, hd, htop, rfl⟩
    simp [by1Setup, Nat.not_lt.mpr hm, hd, htop, writeLimb_of_getElem? htop]

/-- R122: when an iteration of the single-limb path has a value, and what it writes. -/
theorem by1Iterate_eq_some {c c' : Context} {j : Nat} : by1Iterate c j = some c' ↔
    ∃ r0 x d rcp q r, c.rem0 = some r0 ∧ c.un[j]? = some x ∧ c.vn[0]? = some d ∧ c.rcp = some rcp ∧
      divide2by1 r0 x d rcp = some (q, r) ∧
      c' = { c with un := c.un.set j q, rem0 := some r, j := some ((j : Int) - 1) } := by
  constructor
  · intro h
    unfold by1Iterate at h
    split at h
    case h_2 => cases h
    rename_i r0 x d rcp hr0 hx hd hrcp
    split at h
    case h_2 => cases h
    rename_i q r hdiv
    rw [writeLimb_of_getElem? hx] at h
    cases h
    exact ⟨r0, x, d, rcp, q, r, hr0, hx, hd, hrcp, hdiv, rfl⟩
  · rintro ⟨r0, x, d, rcp, q, r, hr0, hx, hd, hrcp, hdiv, rfl⟩
    simp [by1Iterate, hr0, hx, hd, hrcp, hdiv, writeLimb_of_getElem? hx]

/-- R123: what the single-limb path's exit writes. -/
theorem by1Exit_eq_some {len : Nat} {c c' : Context} : by1Exit len c = some c' ↔
    ∃ r0, c.rem0 = some r0 ∧ len ≤ c.un.length ∧
      c' = { c with qa := c.un.take len, ra := padLimbs len [r0 >>> c.s] } := by
  unfold by1Exit readLimbs
  by_cases hlen : len ≤ c.un.length
  · cases hr0 : c.rem0 <;> simp [hlen, eq_comm]
  · simp [hlen]

/-- R131: when the double-limb path is set up, and what is written. -/
theorem by2Setup_eq_some {c c' : Context} : by2Setup c = some c' ↔ 2 ≤ c.m ∧ ∃ d1 d0 r1 r0, c.vn[1]? = some d1 ∧
    c.vn[0]? = some d0 ∧ c.un[c.m - 1]? = some r1 ∧ c.un[c.m - 2]? = some r0 ∧
    c' = { c with
      un := (c.un.set (c.m - 1) 0).set (c.m - 2) 0, rcp := some (Config.reciprocalFor2Limb d1 d0)
      rem1 := some r1, rem0 := some r0, j := some ((c.m : Int) - 3) } := by
  have hwrite {r1 : Limb} (hm : 2 ≤ c.m) (hr1 : c.un[c.m - 1]? = some r1) :
      writeLimbs c.un (c.m - 2) [0, 0] = some ((c.un.set (c.m - 1) 0).set (c.m - 2) 0) := by
    have hidx : c.m - 2 + 1 = c.m - 1 := by omega
    rw [writeLimbs_pair (hidx ▸ (List.getElem?_eq_some_iff.mp hr1).1), hidx]
  constructor
  · intro h
    unfold by2Setup at h
    split at h
    · cases h
    rename_i hm
    split at h
    case h_2 => cases h
    rename_i d1 d0 r1 r0 hd1 hd0 hr1 hr0
    rw [hwrite (Nat.le_of_not_lt hm) hr1] at h
    cases h
    exact ⟨Nat.le_of_not_lt hm, d1, d0, r1, r0, hd1, hd0, hr1, hr0, rfl⟩
  · rintro ⟨hm, d1, d0, r1, r0, hd1, hd0, hr1, hr0, rfl⟩
    simp only [by2Setup, if_neg (Nat.not_lt.mpr hm), hd1, hd0, hr1, hr0, hwrite hm hr1]

/-- R132: when an iteration of the double-limb path has a value, and what it writes. -/
theorem by2Iterate_eq_some {c c' : Context} {j : Nat} : by2Iterate c j = some c' ↔
    ∃ r1 r0 x d1 d0 rcp q t1 t0, c.rem1 = some r1 ∧ c.rem0 = some r0 ∧ c.un[j]? = some x ∧ c.vn[1]? = some d1 ∧
      c.vn[0]? = some d0 ∧ c.rcp = some rcp ∧ divide3by2 r1 r0 x d1 d0 rcp = some (q, t1, t0) ∧
      c' = { c with un := c.un.set j q, rem1 := some t1, rem0 := some t0, j := some ((j : Int) - 1) } := by
  constructor
  · intro h
    unfold by2Iterate at h
    split at h
    case h_2 => cases h
    rename_i r1 r0 x d1 d0 rcp hr1 hr0 hx hd1 hd0 hrcp
    split at h
    case h_2 => cases h
    rename_i q t1 t0 hdiv
    rw [writeLimb_of_getElem? hx] at h
    cases h
    exact ⟨r1, r0, x, d1, d0, rcp, q, t1, t0, hr1, hr0, hx, hd1, hd0, hrcp, hdiv, rfl⟩
  · rintro ⟨r1, r0, x, d1, d0, rcp, q, t1, t0, hr1, hr0, hx, hd1, hd0, hrcp, hdiv, rfl⟩
    simp [by2Iterate, hr1, hr0, hx, hd1, hd0, hrcp, hdiv, writeLimb_of_getElem? hx]

/-- R133: what the double-limb path's exit writes. -/
theorem by2Exit_eq_some {len : Nat} {c c' : Context} : by2Exit len c = some c' ↔
    ∃ r1 r0, c.rem1 = some r1 ∧ c.rem0 = some r0 ∧ len ≤ c.un.length ∧
      c' = { c with
        qa := c.un.take len
        ra := padLimbs len [lo64 (pairVal r1 r0 / 2 ^ c.s), hi64 (pairVal r1 r0 / 2 ^ c.s)] } := by
  unfold by2Exit readLimbs
  by_cases hlen : len ≤ c.un.length
  · cases hr1 : c.rem1 <;> cases hr0 : c.rem0 <;> simp [hlen, eq_comm]
  · simp [hlen]

/-- R141: when the Knuth loop is set up, and what is written. -/
theorem knuthSetup_eq_some {c c' : Context} : knuthSetup c = some c' ↔ (3 ≤ c.nd ∧ c.nd ≤ c.m) ∧ ∃ d1 d0,
    c.vn[c.nd - 1]? = some d1 ∧ c.vn[c.nd - 2]? = some d0 ∧
    c' = { c with rcp := some (Config.reciprocalFor2Limb d1 d0), j := some ((c.m : Int) - c.nd - 1) } := by
  unfold knuthSetup
  by_cases hguard : 3 ≤ c.nd ∧ c.nd ≤ c.m
  · rw [if_neg (by omega)]
    cases hd1 : c.vn[c.nd - 1]? <;> cases hd0 : c.vn[c.nd - 2]? <;> simp [hguard, eq_comm]
  · rw [if_pos (by omega)]
    simp [hguard]

/-- R143: when an iteration of the Knuth loop has a value, and what it writes. -/
theorem knuthIterate_eq_some {c c' : Context} {j : Nat} : knuthIterate c j = some c' ↔
    ∃ w rcp qhat w' un qa, readLimbs c.un j (c.nd + 1) = some w ∧ c.rcp = some rcp ∧
      knuthWindow w c.vn c.nd rcp = some (qhat, w') ∧ writeLimbs c.un j w' = some un ∧
      writeLimb c.qa j qhat = some qa ∧ c' = { c with un := un, qa := qa, j := some ((j : Int) - 1) } := by
  constructor
  · intro h
    unfold knuthIterate at h
    split at h
    case h_2 => cases h
    rename_i w rcp hw hrcp
    split at h
    case h_2 => cases h
    rename_i qhat w' hwin
    split at h
    case h_2 => cases h
    rename_i un qa hun hqa
    cases h
    exact ⟨w, rcp, qhat, w', un, qa, hw, hrcp, hwin, hun, hqa, rfl⟩
  · rintro ⟨w, rcp, qhat, w', un, qa, hw, hrcp, hwin, hun, hqa, rfl⟩
    simp [knuthIterate, hw, hrcp, hwin, hun, hqa]

/-- R153: what the Knuth loop's exit writes. -/
theorem knuthExit_eq_some {len : Nat} {c c' : Context} : knuthExit len c = some c' ↔
    c.nd ≤ c.un.length ∧ c' = { c with ra := denormalize c.s len (c.un.take c.nd) } := by
  unfold knuthExit readLimbs
  by_cases hlen : c.nd ≤ c.un.length <;> simp [hlen, eq_comm]

/-! ## The set-up of each path, one `BY1` iteration and the `BY1` exit (R121 to R123) -/

/-- Settles O31: `NORM` zeroes `QA` and `RA`, and the chosen path's set-up writes the rest. -/
theorem normStepSetsUpThePath : Obligations.NormStepSetsUpThePath := by
  intro us vs c0 c p hbuilt hnorm
  obtain ⟨c1, hbuilt', hset, rfl⟩ := normContext_eq_some.mp hnorm
  obtain rfl : c0 = c1 := Option.some.inj (hbuilt.symm.trans hbuilt')
  obtain ⟨-, -, -, -, -, -, -, -, hqa, hra, hrcp, hrem1, hrem0, hj⟩ := normalize_eq_some hbuilt
  refine ⟨⟨hqa, hra, hrcp, hrem1, hrem0, hj⟩, ?_⟩
  generalize selectRoute c0.nd c0.m = route at hset
  cases route <;> simp only [Route.phase, reduceCtorEq, false_implies, true_implies, true_and, and_true]
  case earlyExit => exact (Option.some.inj hset).symm
  case by1 => exact (by1Setup_eq_some.mp hset).2
  case by2 => exact (by2Setup_eq_some.mp hset).2
  case cf42 => exact (Option.some.inj hset).symm
  case cf64 => exact (Option.some.inj hset).symm
  case knuth => exact (knuthSetup_eq_some.mp hset).2

/-- Settles O32: the iteration is one exact 2-by-1 division. -/
theorem by1IterationDividesOneLimb : Obligations.By1IterationDividesOneLimb := by
  intro s len j c r0 x d rcp hp hl hc hj hr0 hx hd hrcp hnorm hlt
  obtain ⟨q, r, hdiv, hval, hr⟩ := divide2by1_exact (u0 := x) rcp hnorm hlt
  refine ⟨q, r, hval, hr, ?_⟩
  have hit := by1Iterate_eq_some.mpr ⟨r0, x, d, rcp, q, r, hr0, hx, hd, hrcp, hdiv, rfl⟩
  have hstep := loopStep_eq_some (p := .by1) (exit := by1Exit).mpr ⟨len, c, _, hl, hc, .inl ⟨j, hj, hit, rfl⟩⟩
  rw [engineStep, hp]
  exact orContract_eq_next.mpr (hstep.trans (by rw [← hp]))

/-- Settles O33: the exit collects the low `L` limbs and the shifted remainder limb. -/
theorem by1ExitCollectsTheResult : Obligations.By1ExitCollectsTheResult := by
  intro s len c r0 hp hl hc hj hr0 _ hlen
  have hex := by1Exit_eq_some.mpr ⟨r0, hr0, hlen, rfl⟩
  have hstep := loopStep_eq_some (p := .by1) (iterate := by1Iterate).mpr ⟨len, c, _, hl, hc, .inr ⟨hj, hex, rfl⟩⟩
  rw [engineStep, hp]
  exact orContract_eq_next.mpr hstep

end Sys2Proof.Machine
end

section
/-! SUPPORT. One Knuth iteration on its window: the quotient limb and the remainder it leaves (44_knuth.md, R145 to R149,
R154). -/

namespace Sys2Proof.Machine

/-! ## The top limbs of a window and of the divisor -/

/-- R10: an array of `n` limbs is its top pair above the others. -/
theorem val_take_top_pair {xs : List Limb} {n : Nat} {a b : Limb} (hn : 2 ≤ n) (ha : xs[n - 1]? = some a)
    (hb : xs[n - 2]? = some b) : val (xs.take n) = val (xs.take (n - 2)) + limbBase ^ (n - 2) * pairVal a b := by
  obtain ⟨k, rfl⟩ := Nat.exists_eq_add_of_le' hn
  have hlow : val (xs.take (k + 1)) = val (xs.take k) + limbBase ^ k * b.toNat := val_take_succ hb
  have htop : val (xs.take (k + 2)) = val (xs.take (k + 1)) + limbBase ^ (k + 1) * a.toNat := val_take_succ ha
  rw [htop, hlow, Nat.add_sub_cancel, pairVal, pow_succ]
  ring

/-- R10: an array of `n + 1` limbs is its top triple above the others. -/
theorem val_take_top_triple {xs : List Limb} {n : Nat} {a b c : Limb} (hn : 2 ≤ n) (ha : xs[n]? = some a)
    (hb : xs[n - 1]? = some b) (hc : xs[n - 2]? = some c) :
    val (xs.take (n + 1)) = val (xs.take (n - 2)) + limbBase ^ (n - 2) * tripleVal a b c := by
  obtain ⟨k, rfl⟩ := Nat.exists_eq_add_of_le' hn
  rw [val_take_succ ha, val_take_top_pair hn hb hc, Nat.add_sub_cancel, tripleVal, pairVal, pairVal, pow_succ, pow_succ]
  ring

/-- R10: the low limbs of an array that has them are below that power of `B`. -/
theorem val_take_lt (xs : List Limb) (k : Nat) : val (xs.take k) < limbBase ^ k :=
  (val_lt _).trans_le (Nat.pow_le_pow_right limbBase_pos (by simp))

/-! ## The borrow taken from the estimate's remainder (R147, R148) -/

/-- R147: a borrow the pair covers. -/
theorem pair_sub_of_le {rh rl bor : Limb} (h : bor.toNat ≤ pairVal rh rl) :
    rl - bor = lo64 (pairVal rh rl - bor.toNat) ∧
    rh - (if rl.toNat < bor.toNat then 1 else 0) = hi64 (pairVal rh rl - bor.toNat) ∧
    ¬ rh.toNat < (if rl.toNat < bor.toNat then 1 else 0 : Limb).toNat := by
  have hb := limb_lt bor; have hl := limb_lt rl; have hh := limb_lt rh
  refine ⟨BitVec.eq_of_toNat_eq ?_, BitVec.eq_of_toNat_eq ?_, ?_⟩
  · rw [BitVec.toNat_sub, lo64_toNat]
    simp only [pairVal, limbBase] at *; omega
  · rw [BitVec.toNat_sub, hi64_toNat]
    split <;> simp only [pairVal, limbBase, BitVec.ofNat_eq_ofNat, BitVec.toNat_ofNat] at * <;> omega
  · split <;> simp only [pairVal, limbBase, BitVec.ofNat_eq_ofNat, BitVec.toNat_ofNat] at * <;> omega

/-- R148: a borrow the pair does not cover wraps around `B^2`. -/
theorem pair_sub_of_lt {rh rl bor : Limb} (h : pairVal rh rl < bor.toNat) :
    rl - bor = lo64 (pairVal rh rl + limbBase ^ 2 - bor.toNat) ∧
    rh - (if rl.toNat < bor.toNat then 1 else 0) = hi64 (pairVal rh rl + limbBase ^ 2 - bor.toNat) ∧
    rh.toNat < (if rl.toNat < bor.toNat then 1 else 0 : Limb).toNat := by
  have hb := limb_lt bor; have hl := limb_lt rl; have hh := limb_lt rh
  have hrl : rl.toNat < bor.toNat := by simp only [pairVal, limbBase] at *; omega
  rw [if_pos hrl]
  refine ⟨BitVec.eq_of_toNat_eq ?_, BitVec.eq_of_toNat_eq ?_, ?_⟩
  · rw [BitVec.toNat_sub, lo64_toNat]
    simp only [pairVal, limbBase] at *; omega
  · rw [BitVec.toNat_sub, hi64_toNat]
    simp only [pairVal, limbBase, BitVec.ofNat_eq_ofNat, BitVec.toNat_ofNat] at *; omega
  · simp only [pairVal, limbBase, BitVec.ofNat_eq_ofNat, BitVec.toNat_ofNat] at *; omega

/-- R149: the add-back adds the whole divisor into `n` limbs and drops the carry. -/
theorem knuthAddBack_exact {low vn : List Limb} {top d1 : Limb} {n : Nat} (hn : 3 ≤ n) (hlow : low.length = n - 1)
    (hd1 : vn[n - 1]? = some d1) :
    ∃ low', knuthAddBack low top vn n d1 = some low' ∧ low'.length = n ∧
      val low' = (val (low ++ [top]) + val (vn.take n)) % limbBase ^ n := by
  obtain ⟨k, rfl⟩ : ∃ k, n = k + 1 := ⟨n - 1, by omega⟩
  rw [Nat.add_sub_cancel] at hlow hd1
  have hlen := (List.getElem?_eq_some_iff.mp hd1).1
  have hadd := add_eq_some.mpr ⟨⟨(by omega : 2 ≤ k), hlow.ge, hlen.le⟩, rfl⟩
  have hval := addLoop_val (low.take k) (vn.take k) 0 (by simp; omega)
  have hlen' := addLoop_length (low.take k) (vn.take k) 0
  rw [List.take_of_length_le hlow.le] at hadd hval hlen'
  rw [hlow, Nat.add_zero] at hval
  generalize addLoop low (vn.take k) 0 = sum at hadd hval hlen'
  obtain ⟨low', cy⟩ := sum
  rw [hlow, List.length_take, Nat.min_eq_left hlen.le, Nat.min_self] at hlen'
  refine ⟨low' ++ [lo64 (top.toNat + d1.toNat + cy)], by simp [knuthAddBack, hadd], by simp [hlen'], ?_⟩
  have hmod : (val low' + limbBase ^ k * ((top.toNat + d1.toNat + cy) % limbBase)) =
      (val low' + limbBase ^ k * (top.toNat + d1.toNat + cy)) % (limbBase ^ k * limbBase) := by
    have hlt := hlen' ▸ val_lt low'
    rw [Nat.mod_mul, Nat.add_mul_mod_self_left, Nat.mod_eq_of_lt hlt,
      Nat.add_mul_div_left _ _ (pow_pos limbBase_pos k), Nat.div_eq_of_lt hlt, Nat.zero_add]
  rw [val_append, val_append, val_take_succ hd1, hlen', hlow, val_cons, val_cons, val_nil, lo64_toNat, Nat.mul_zero,
    Nat.add_zero, Nat.add_zero, hmod, pow_succ]
  congr 1
  linear_combination hval

/-! ## The normal branch (R146 to R149) -/

/-- R147: the estimate stands where the pair covers the borrow. -/
theorem knuthNormal_of_le {w vn low : List Limb} {n : Nat} {rcp u2 u1 u0 d1 d0 qhat rh rl bor : Limb}
    (hdiv : divide3by2 u2 u1 u0 d1 d0 rcp = some (qhat, rh, rl)) (hsub : submul w vn (n - 2) qhat = some (low, bor))
    (h : bor.toNat ≤ pairVal rh rl) :
    knuthNormal w vn n rcp u2 u1 u0 d1 d0 =
      some (qhat, low ++ [lo64 (pairVal rh rl - bor.toNat), hi64 (pairVal rh rl - bor.toNat)] ++ [u2]) := by
  obtain ⟨hmid, htop, hno⟩ := pair_sub_of_le h
  simp only [knuthNormal, hdiv, hsub, if_neg hno, hmid, htop, List.append_assoc, List.cons_append, List.nil_append]

/-- R148, R149: elsewhere the estimate is one too high, and the divisor is added back. -/
theorem knuthNormal_of_lt {w vn low : List Limb} {n : Nat} {rcp u2 u1 u0 d1 d0 qhat rh rl bor : Limb} (hn : 3 ≤ n)
    (hd1 : vn[n - 1]? = some d1) (hdiv : divide3by2 u2 u1 u0 d1 d0 rcp = some (qhat, rh, rl))
    (hsub : submul w vn (n - 2) qhat = some (low, bor)) (hlow : low.length = n - 2) (h : pairVal rh rl < bor.toNat) :
    ∃ low', knuthNormal w vn n rcp u2 u1 u0 d1 d0 = some (qhat - 1, low' ++ [u2]) ∧ low'.length = n ∧
      val low' = (val (low ++ [lo64 (pairVal rh rl + limbBase ^ 2 - bor.toNat),
        hi64 (pairVal rh rl + limbBase ^ 2 - bor.toNat)]) + val (vn.take n)) % limbBase ^ n := by
  obtain ⟨hmid, htop, hyes⟩ := pair_sub_of_lt h
  obtain ⟨low', hback, hlen, hval⟩ := knuthAddBack_exact (low := low ++ [lo64 (pairVal rh rl + limbBase ^ 2 - bor.toNat)])
    (top := hi64 (pairVal rh rl + limbBase ^ 2 - bor.toNat)) hn (by simp [hlow]; omega) hd1
  refine ⟨low', ?_, hlen, by simpa using hval⟩
  simp only [knuthNormal, hdiv, hsub, if_pos hyes, hmid, htop, hback]

/-- R152: the multiply-subtract over `n` limbs that are there. -/
theorem submul_exact {x y : List Limb} {n : Nat} (mult : Limb) (hn : 1 ≤ n) (hx : n ≤ x.length) (hy : n ≤ y.length) :
    ∃ low bor, submul x y n mult = some (low, bor) ∧ low.length = n ∧
      val low + val (y.take n) * mult.toNat = val (x.take n) + bor.toNat * limbBase ^ n := by
  refine ⟨_, _, submul_eq_some.mpr ⟨⟨hn, hx, hy⟩, rfl⟩, by simp [hx, hy], ?_⟩
  have hval := submulLoop_val mult (x.take n) (y.take n) 0 (by simp; omega)
  simpa [hx] using hval

/-- R147, R154: with the borrow covered, what is left of the window `wl + N * (q * P + R)` after taking the divisor
`v + N * P` away `q` times is below the divisor. -/
theorem remainder_of_borrow_le {N P v wl low q R bor : Nat} (hlow : low < N) (hR : R < P)
    (hsub : low + v * q = wl + bor * N) (h : bor ≤ R) :
    wl + N * (q * P + R) = q * (v + N * P) + (low + N * (R - bor)) ∧ low + N * (R - bor) < v + N * P := by
  obtain ⟨e, rfl⟩ := Nat.exists_eq_add_of_le h
  rw [Nat.add_sub_cancel_left]
  refine ⟨by linear_combination -hsub, ?_⟩
  have hN : N * (e + 1) ≤ N * P := Nat.mul_le_mul_left N (by omega)
  rw [Nat.mul_succ] at hN
  omega

/-- R148, R149, R154: with the borrow not covered, the divisor went in once less; adding it back, and dropping the carry out
of the `N * B^2` of the window's low limbs, leaves what is then left. -/
theorem remainder_of_borrow_gt {N M P v wl low q R bor : Nat} (hv : v < N) (hlow : low < N) (hbor : bor ≤ P) (hP : P < M)
    (hsub : low + v * q = wl + bor * N) (h : R < bor) :
    1 ≤ q ∧ wl + N * (q * P + R) = (q - 1) * (v + N * P) + (low + N * (M + R - bor) + (v + N * P)) % (N * M) ∧
      (low + N * (M + R - bor) + (v + N * P)) % (N * M) < v + N * P := by
  obtain ⟨e, rfl⟩ := Nat.exists_eq_add_of_lt h
  obtain ⟨f, rfl⟩ := Nat.exists_eq_add_of_le hbor
  obtain ⟨g, rfl⟩ := Nat.exists_eq_add_of_lt hP
  have hq : q ≠ 0 := by
    rintro rfl
    have : N ≤ (R + e + 1) * N := Nat.le_mul_of_pos_left N (by omega)
    omega
  obtain ⟨p, rfl⟩ := Nat.exists_eq_add_of_le' (Nat.one_le_iff_ne_zero.mpr hq)
  have hM : R + e + 1 + f + g + 1 + R - (R + e + 1) = f + g + 1 + R := by omega
  have hlt : low + N * (f + R) + v < N * (R + e + 1 + f + g + 1) := by
    have : N * (f + R + 2) ≤ N * (R + e + 1 + f + g + 1) := Nat.mul_le_mul_left N (by omega)
    linarith
  have hwrap : low + N * (f + g + 1 + R) + (v + N * (R + e + 1 + f)) =
      low + N * (f + R) + v + N * (R + e + 1 + f + g + 1) := by ring
  rw [hM, hwrap, Nat.add_mod_right, Nat.mod_eq_of_lt hlt, Nat.add_sub_cancel]
  refine ⟨by omega, by linear_combination -hsub, ?_⟩
  have : N * (f + R + 1) ≤ N * (R + e + 1 + f) := Nat.mul_le_mul_left N (by omega)
  rw [Nat.mul_succ] at this
  omega

/-- R145, R154: where `B - 1` is the quotient limb, the borrow is the window's top limb. -/
theorem borrow_of_all_ones {M V wl u low bor : Nat} (hV : V ≤ M) (hlow : low < M)
    (hlo : (limbBase - 1) * V ≤ wl + M * u) (hhi : wl + M * u < limbBase * V)
    (hsub : low + V * (limbBase - 1) = wl + bor * M) : bor = u ∧ wl + M * u = (limbBase - 1) * V + low := by
  have hone : limbBase * V = (limbBase - 1) * V + V := by rw [← Nat.succ_mul]; rfl
  rw [Nat.mul_comm V, Nat.mul_comm bor] at hsub
  have heq : bor = u := by
    rcases lt_trichotomy bor u with h | h | h
    · have := Nat.mul_le_mul_left M (Nat.succ_le_of_lt h); rw [Nat.mul_succ] at this; omega
    · exact h
    · have := Nat.mul_le_mul_left M (Nat.succ_le_of_lt h); rw [Nat.mul_succ] at this; omega
  subst heq
  exact ⟨rfl, by omega⟩

/-! ## The window (R143, R154) -/

/-- R10: a pair is given by its value. -/
theorem pairVal_inj {a b c d : Limb} (h : pairVal a b = pairVal c d) : a = c ∧ b = d := by
  have ha := limb_lt a; have hb := limb_lt b; have hc := limb_lt c; have hd := limb_lt d
  constructor <;> apply BitVec.eq_of_toNat_eq <;> simp only [pairVal, limbBase] at * <;> omega

/-- R10: a pair with the lower top limb is the lower pair. -/
theorem pairVal_lt_of_top_lt {a b c d : Limb} (h : a.toNat < c.toNat) : pairVal a b < pairVal c d := by
  have hb := limb_lt b
  simp only [pairVal, limbBase] at *; omega

/-- R10: two limbs of a number below `B^2` on top of an array. -/
theorem val_append_pair (xs : List Limb) {x : Nat} (h : x < limbBase ^ 2) :
    val (xs ++ [lo64 x, hi64 x]) = val xs + limbBase ^ xs.length * x := by
  have hpair := pairVal_hi_lo h
  rw [pairVal] at hpair
  rw [val_append, val_cons, val_cons, val_nil]
  linear_combination limbBase ^ xs.length * hpair

/-- R10: the two limbs of a number below `B^2`. -/
theorem val_pair {x : Nat} (h : x < limbBase ^ 2) : val [lo64 x, hi64 x] = x := by
  simpa using val_append_pair [] h

section
variable {w vn : List Limb} {n : Nat} {u2 u1 d1 d0 : Limb} (hn : 3 ≤ n) (hw : w.length = n + 1)
  (hd : 2 ^ 63 ≤ d1.toNat) (hlt : val (w.drop 1) < val (vn.take n)) (hu2 : w[n]? = some u2) (hu1 : w[n - 1]? = some u1)
  (hd1 : vn[n - 1]? = some d1) (hd0 : vn[n - 2]? = some d0)
include hn hw hlt hu2 hu1 hd1 hd0

/-- R154 (b): the window's top pair is at most the divisor's. -/
theorem window_pair_le : pairVal u2 u1 ≤ pairVal d1 d0 := by
  have hdrop : (w.drop 1).length = n := by simp [hw]
  have hwin := val_take_top_pair (xs := w.drop 1) (n := n) (a := u2) (b := u1) (by omega)
    (by rw [List.getElem?_drop, ← hu2]; congr 1; omega) (by rw [List.getElem?_drop, ← hu1]; congr 1; omega)
  rw [List.take_of_length_le hdrop.le] at hwin
  rw [hwin, val_take_top_pair (by omega) hd1 hd0] at hlt
  have hv := val_take_lt vn (n - 2)
  by_contra hgt
  have := Nat.mul_le_mul_left (limbBase ^ (n - 2)) (Nat.succ_le_of_lt (not_le.mp hgt))
  rw [Nat.mul_succ] at this
  omega

include hd

/-- R154 (b), (c), (e): the normal branch. -/
theorem knuthNormal_exact {u0 : Limb} (rcp : Limb) (hu0 : w[n - 2]? = some u0) (hne : ¬ (u2 = d1 ∧ u1 = d0)) :
    ∃ qhat w', knuthNormal w vn n rcp u2 u1 u0 d1 d0 = some (qhat, w') ∧ w'.length = n + 1 ∧
      val w = qhat.toNat * val (vn.take n) + val (w'.take n) ∧ val (w'.take n) < val (vn.take n) := by
  have hpair : pairVal u2 u1 < pairVal d1 d0 :=
    lt_of_le_of_ne (window_pair_le hn hw hlt hu2 hu1 hd1 hd0) fun h => hne (pairVal_inj h)
  have hvn := (List.getElem?_eq_some_iff.mp hd1).1
  obtain ⟨qhat, rh, rl, hdiv, hest, hrem⟩ := divide3by2_exact (u0 := u0) rcp hd hpair
  obtain ⟨low, bor, hsub, hlow, hval⟩ :=
    submul_exact (x := w) (y := vn) (n := n - 2) qhat (by omega) (by omega) (by omega)
  have hW := val_take_top_triple (by omega) hu2 hu1 hu0
  rw [List.take_of_length_le hw.le, hest] at hW
  have hV := val_take_top_pair (by omega) hd1 hd0
  have hlow' : val low < limbBase ^ (n - 2) := hlow ▸ val_lt low
  have hP := pairVal_lt d1 d0
  rcases le_or_gt bor.toNat (pairVal rh rl) with h | h
  · obtain ⟨hq, hr⟩ := remainder_of_borrow_le (v := val (vn.take (n - 2))) hlow' hrem hval h
    refine ⟨qhat, _, knuthNormal_of_le hdiv hsub h, by simp [hlow]; omega, ?_⟩
    rw [List.take_left' (by simp [hlow]; omega), val_append_pair low (by omega), hlow, hW, hV]
    exact ⟨hq, hr⟩
  · obtain ⟨low', heq, hlen, hval'⟩ := knuthNormal_of_lt hn hd1 hdiv hsub hlow h
    have hbor := limb_lt bor
    have hborP : bor.toNat ≤ pairVal d1 d0 := by simp only [pairVal, limbBase] at *; omega
    obtain ⟨hq1, hq, hr⟩ := remainder_of_borrow_gt (val_take_lt vn (n - 2)) hlow' hborP hP hval h
    have hqhat : (qhat - 1).toNat = qhat.toNat - 1 := by
      rw [BitVec.toNat_sub_of_le (by simpa [BitVec.le_def] using hq1)]; rfl
    have hpow : limbBase ^ n = limbBase ^ (n - 2) * limbBase ^ 2 := by rw [← pow_add]; congr 1; omega
    rw [val_append_pair low (by omega), hlow, hV, hpow, Nat.add_comm (pairVal rh rl)] at hval'
    refine ⟨qhat - 1, _, heq, by simp [hlen], ?_⟩
    rw [List.take_left' hlen, hval', hqhat, hW, hV]
    exact ⟨hq, hr⟩

/-- R145, R154: the overflow branch. The multiply-subtract of `B - 1` divisors leaves a borrow that the window's top limb
covers exactly. -/
theorem knuthOverflow_exact (htop : u2 = d1 ∧ u1 = d0) :
    ∃ low, submul w vn n (BitVec.allOnes 64) = some (low, u2) ∧ low.length = n ∧
      val w = (limbBase - 1) * val (vn.take n) + val low ∧ val low < val (vn.take n) := by
  obtain ⟨rfl, rfl⟩ := htop
  have hvn := (List.getElem?_eq_some_iff.mp hd1).1
  obtain ⟨low, bor, hsub, hlow, hval⟩ :=
    submul_exact (x := w) (y := vn) (n := n) (BitVec.allOnes 64) (by omega) (by omega) (by omega)
  have hW : val w = val (w.take n) + limbBase ^ n * u2.toNat := by
    rw [← val_take_succ hu2, List.take_of_length_le hw.le]
  have hhi : val w < limbBase * val (vn.take n) := by
    have hpos : 0 < w.length := by omega
    have hcut := val_cons w[0] (w.drop 1)
    rw [List.getElem_cons_drop, List.drop_zero] at hcut
    have := Nat.mul_le_mul_left limbBase (Nat.succ_le_of_lt hlt)
    have := limb_lt w[0]
    rw [Nat.mul_succ] at *
    omega
  have hlo : (limbBase - 1) * val (vn.take n) ≤ val w := by
    have hV := val_take_top_pair (by omega) hd1 hd0
    have hpair := val_take_top_pair (xs := w) (n := n + 1) (by omega) hu2 hu1
    have hP : limbBase - 1 ≤ pairVal u2 u1 := by simp only [pairVal, limbBase] at *; omega
    rw [List.take_of_length_le hw.le, show n + 1 - 2 = n - 2 + 1 by omega, pow_succ] at hpair
    calc (limbBase - 1) * val (vn.take n)
        = (limbBase - 1) * val (vn.take (n - 2)) + (limbBase - 1) * (limbBase ^ (n - 2) * pairVal u2 u1) := by
          rw [hV, Nat.mul_add]
      _ ≤ pairVal u2 u1 * limbBase ^ (n - 2) + (limbBase - 1) * (limbBase ^ (n - 2) * pairVal u2 u1) :=
          Nat.add_le_add_right (Nat.mul_le_mul hP (val_take_lt vn (n - 2)).le) _
      _ = limbBase ^ (n - 2) * limbBase * pairVal u2 u1 := by
          obtain ⟨b, hb⟩ := Nat.exists_eq_add_of_le' limbBase_pos
          rw [hb, Nat.add_sub_cancel]; ring
      _ ≤ val w := hpair ▸ Nat.le_add_left _ _
  rw [hW] at hlo hhi
  obtain ⟨hbor, hleft⟩ := borrow_of_all_ones (val_take_lt vn n).le (hlow ▸ val_lt low) hlo hhi hval
  rw [BitVec.eq_of_toNat_eq hbor] at hsub
  rw [← hW] at hleft hhi
  refine ⟨low, hsub, hlow, hleft, ?_⟩
  have hone : limbBase * val (vn.take n) = (limbBase - 1) * val (vn.take n) + val (vn.take n) := by
    rw [← Nat.succ_mul]; rfl
  omega

/-- R143, R154 (e): one iteration leaves the quotient limb of the window and, below the top limb, its remainder. -/
theorem knuthWindow_exact (rcp : Limb) :
    ∃ qhat w', knuthWindow w vn n rcp = some (qhat, w') ∧ w'.length = n + 1 ∧
      val w = qhat.toNat * val (vn.take n) + val (w'.take n) ∧ val (w'.take n) < val (vn.take n) := by
  obtain ⟨u0, hu0⟩ : ∃ u0, w[n - 2]? = some u0 := ⟨_, List.getElem?_eq_getElem (by omega)⟩
  have hwin : knuthWindow w vn n rcp =
      if u2 = d1 ∧ u1 = d0 then knuthOverflow w vn n u2 else knuthNormal w vn n rcp u2 u1 u0 d1 d0 := by
    simp only [knuthWindow, if_neg (Nat.not_lt.mpr hn), hu2, hu1, hu0, hd1, hd0]
  by_cases htop : u2 = d1 ∧ u1 = d0
  · obtain ⟨low, hsub, hlow, hleft, hr⟩ := knuthOverflow_exact hn hw hd hlt hu2 hu1 hd1 hd0 htop
    refine ⟨BitVec.allOnes 64, low ++ [u2 - u2], by rw [hwin, if_pos htop, knuthOverflow]; simp only [hsub],
      by simp [hlow], ?_⟩
    rw [List.take_left' hlow]
    exact ⟨hleft, hr⟩
  · rw [hwin, if_neg htop]
    exact knuthNormal_exact hn hw hd hlt hu2 hu1 hd1 hd0 rcp hu0 htop

end

end Sys2Proof.Machine
end

section
/-! SUPPORT. The steps of a call on its context: each is enabled and leaves a context that is what the next phase says
(R124, R134, R154, R177, R179). -/

namespace Sys2Proof.Machine

/-! ## Values of written arrays (R10, R217) -/

theorem val_take_le (xs : List Limb) (k : Nat) : val (xs.take k) ≤ val xs :=
  val_take_drop xs k ▸ Nat.le_add_right _ _

/-- R10: the limbs up to the top of a window. -/
theorem val_take_window {xs : List Limb} {k : Nat} (h : k ≤ xs.length) (n : Nat) :
    val (xs.take (k + n)) = val (xs.take k) + limbBase ^ k * val ((xs.drop k).take n) := by
  rw [List.take_add, val_append, List.length_take, Nat.min_eq_left h]

/-- R217: a written window is found where it was written, above the limbs that were below it. -/
theorem take_drop_of_writeLimbs {xs ys zs : List Limb} {k n : Nat} (h : writeLimbs xs k ys = some zs)
    (hn : n ≤ ys.length) : zs.take k = xs.take k ∧ (zs.drop k).take n = ys.take n := by
  obtain ⟨hlen, rfl⟩ := writeLimbs_eq_some.mp h
  have hk : (xs.take k).length = k := by simp; omega
  rw [List.append_assoc, List.take_left' hk, List.drop_left' hk, List.take_append_of_le_length hn]
  exact ⟨rfl, rfl⟩

/-- R10: writing a limb exchanges its digit. -/
theorem val_set {xs : List Limb} {k : Nat} {x : Limb} (h : xs[k]? = some x) (y : Limb) :
    val (xs.set k y) + limbBase ^ k * x.toNat = val xs + limbBase ^ k * y.toNat := by
  have hk := (List.getElem?_eq_some_iff.mp h).1
  have hset := val_split_at (xs := xs.set k y) (List.getElem?_set_self hk)
  rw [List.take_set_of_le le_rfl, List.drop_set_of_lt (Nat.lt_succ_self k)] at hset
  rw [hset, val_split_at h]
  ring

/-- R177: limbs written at the bottom of an all-zero array are its value. -/
theorem val_append_drop_of_zero {xs : List Limb} (h : val xs = 0) (ys : List Limb) (k : Nat) :
    val (ys ++ xs.drop k) = val ys := by
  rw [val_append, val_drop_eq_zero (h ▸ pow_pos limbBase_pos k), Nat.mul_zero, Nat.add_zero]

/-- R176: the de-normalizer shifts the value back. -/
theorem val_denormalize {s : Nat} (hs : s ≤ 64) (len : Nat) (xs : List Limb) :
    val (denormalize s len xs) = val xs / 2 ^ s := by
  rw [denormalize, val_padLimbs]
  split
  · rename_i h; simp [h]
  · exact val_shiftRightLimbs s xs hs

theorem denormalize_length {len : Nat} {xs : List Limb} (s : Nat) (h : xs.length ≤ len) :
    (denormalize s len xs).length = len := by
  refine padLimbs_length ?_
  split <;> simpa using h

/-- R122, R132: one limb divided. With the quotient limbs so far above limb `j`, the remainder `R` before and `R'` after, the
quotient limb takes the place of the numerator limb it comes from. -/
theorem quotient_so_far_step {un : List Limb} {j R D R' : Nat} {x q : Limb} (hx : un[j]? = some x)
    (hdiv : R * limbBase + x.toNat = q.toNat * D + R') :
    (val (un.drop (j + 1)) * D + R) * limbBase ^ (j + 1) + val (un.take (j + 1)) =
      (val ((un.set j q).drop j) * D + R') * limbBase ^ j + val ((un.set j q).take j) := by
  rw [drop_set_self (List.getElem?_eq_some_iff.mp hx).1, List.take_set_of_le le_rfl, val_cons, val_take_succ hx, pow_succ]
  linear_combination limbBase ^ j * hdiv

/-- R124, R134: with no limb to come, the quotient limbs are the whole array. -/
theorem quotient_so_far_exit (un : List Limb) (D R : Nat) :
    (val (un.drop 0) * D + R) * limbBase ^ 0 + val (un.take 0) = val un * D + R := by
  rw [List.drop_zero, List.take_zero, val_nil, pow_zero, Nat.mul_one, Nat.add_zero]

/-! ## What a call's context keeps (R30, R107, R108) -/

/-- R30: the sizes and the counts stay, whatever a step writes to the rest. -/
theorem SameCall.update {us vs : List Limb} {c0 c : Context} (h : SameCall us vs c0 c) {un qa ra : List Limb}
    (hun : un.length = us.length + 1) (hqa : qa.length = us.length) (hra : ra.length = us.length)
    (rcp rem1 rem0 : Option Limb) (j : Option Int) :
    SameCall us vs c0 { c with un := un, rcp := rcp, rem1 := rem1, rem0 := rem0, j := j, qa := qa, ra := ra } where
  built := h.built
  vn_eq := h.vn_eq
  s_eq := h.s_eq
  m_eq := h.m_eq
  nd_eq := h.nd_eq
  un_length := hun
  qa_length := hqa
  ra_length := hra

/-- R108: the context as `NORM` built it. -/
theorem SameCall.of_normalize {us vs : List Limb} {c0 : Context} (h : normalize us vs = some c0) :
    SameCall us vs c0 c0 := by
  obtain ⟨-, -, -, -, -, -, -, -, hqa, hra, -⟩ := normalize_eq_some h
  exact ⟨h, rfl, rfl, rfl, rfl, (normalize_un h).1, by simp [hqa], by simp [hra]⟩

section
variable {us vs : List Limb} {c0 c : Context} (hsame : SameCall us vs c0 c)
include hsame

/-- R105: the counts and the shift, against the sizes of the arrays. -/
theorem SameCall.ranges : c.vn.length = vs.length ∧ c.s ≤ 63 ∧ c.m ≤ us.length + 1 ∧ 1 ≤ c.nd ∧ c.nd ≤ vs.length := by
  rw [hsame.vn_eq, hsame.s_eq, hsame.m_eq, hsame.nd_eq]
  exact normalize_ranges hsame.built

/-- R107 (b): the divisor is not zero and has `n` limbs. -/
theorem SameCall.val_vn_bounds : 0 < val c.vn ∧ val c.vn < limbBase ^ c.nd := by
  obtain ⟨hlo, hhi⟩ := normalize_divisor_bounds hsame.built
  rw [hsame.vn_eq, hsame.nd_eq, normalize_val_vn hsame.built]
  exact ⟨(Nat.mul_pos (by decide) (pow_pos limbBase_pos _)).trans_le hlo, hhi⟩

/-- R107 (b): the divisor's limbs are the low `n` limbs of `VN`. -/
theorem SameCall.val_vn_take : val (c.vn.take c.nd) = val c.vn :=
  val_take_of_lt hsame.val_vn_bounds.2

/-- R107 (b): the divisor's top limb is normalized. -/
theorem SameCall.vn_top {d : Limb} (hd : c.vn[c.nd - 1]? = some d) : 2 ^ 63 ≤ d.toNat := by
  have h := (normalize_vn_top hsame.built).2
  rwa [← hsame.vn_eq, ← hsame.nd_eq, List.getD_eq_getElem?_getD, hd] at h

/-- R124: a one-limb divisor. -/
theorem SameCall.val_vn_one {d : Limb} (hnd : c.nd = 1) (hd : c.vn[0]? = some d) : val c.vn = d.toNat := by
  rw [← hsame.val_vn_take, hnd, val_take_succ hd]
  simp

/-- R134: a two-limb divisor. -/
theorem SameCall.val_vn_two {d1 d0 : Limb} (hnd : c.nd = 2) (hd1 : c.vn[1]? = some d1) (hd0 : c.vn[0]? = some d0) :
    val c.vn = pairVal d1 d0 := by
  rw [← hsame.val_vn_take, hnd, val_take_top_pair le_rfl hd1 hd0]
  simp

/-- R107 (c): the numerator's limbs are the low `m` limbs of `UN`. -/
theorem SameCall.val_un_take_m : val (c0.un.take c.m) = val c0.un := by
  rw [hsame.m_eq]
  exact val_take_of_lt (normalize_un_bounds hsame.built).1

/-- R107 (g): a quotient of at most `m - n` limbs. -/
theorem SameCall.un_lt (hnm : c.nd ≤ c.m) : val c0.un < val c.vn * limbBase ^ (c.m - c.nd) := by
  have hpos := hsame.val_vn_bounds.1
  rw [hsame.nd_eq, hsame.m_eq] at *
  rw [hsame.vn_eq, Nat.mul_comm] at *
  exact Nat.lt_mul_of_div_lt (normalize_quotient_lt hsame.built hnm) hpos

/-- R107 (e): a quotient and a remainder of the normalized operands are those of the operands, once the remainder is shifted
back. -/
theorem SameCall.quotient_remainder {q r : Nat} (hval : val c0.un = q * val c.vn + r) (hr : r < val c.vn) :
    q = val us / val vs ∧ r / 2 ^ c.s = val us % val vs := by
  have hvn := normalize_val_vn hsame.built
  rw [← hsame.vn_eq, ← hsame.s_eq] at hvn
  have hdiv : val c0.un / val c.vn = q := by
    rw [hval, Nat.mul_comm, Nat.mul_add_div (Nat.zero_lt_of_lt hr), Nat.div_eq_of_lt hr, Nat.add_zero]
  have hmod : val c0.un % val c.vn = r := by rw [hval, Nat.mul_comm, Nat.mul_add_mod, Nat.mod_eq_of_lt hr]
  rw [(normalize_un hsame.built).2, hvn, ← hsame.s_eq] at hdiv hmod
  rw [Nat.mul_div_mul_right _ _ (by positivity)] at hdiv
  rw [Nat.mul_mod_mul_right] at hmod
  exact ⟨hdiv.symm, by rw [← hmod, Nat.mul_div_cancel _ (by positivity)]⟩

/-- R123, R133: the quotient has at most `L` limbs, so collecting `UN[0 .. L-1]` drops none of it. -/
theorem SameCall.val_un_take {r : Nat} (hval : val c0.un = val c.un * val c.vn + r) (hr : r < val c.vn) :
    val (c.un.take us.length) = val c.un := by
  obtain ⟨hq, -⟩ := hsame.quotient_remainder hval hr
  exact val_take_of_lt (hq ▸ (Nat.div_le_self _ _).trans_lt (val_lt us))

end

/-! ## The loop index (R25) -/

/-- R25: at iteration `J = j` there are `j + 1` limbs to come. -/
theorem loop_index_of_iterate {index : Option Int} {j k : Nat} (hj : index = some (j : Int))
    (hk : index = some ((k : Int) - 1)) : k = j + 1 := by
  have := Option.some.inj (hj.symm.trans hk)
  omega

/-- R25: at the exit there is no limb to come. -/
theorem loop_index_of_exit {index : Option Int} {k : Nat} (hj : index = some (-1))
    (hk : index = some ((k : Int) - 1)) : k = 0 := by
  have := Option.some.inj (hj.symm.trans hk)
  omega

/-! ## The single-limb path (R121 to R124) -/

/-- R121, R124: the set-up takes the numerator's top limb as the remainder, with no quotient limb yet. -/
theorem by1Setup_starts {us vs : List Limb} {c : Context} (hsame : SameCall us vs c c) (hlen : us.length = vs.length)
    (hnd : c.nd = 1) (hm : 1 ≤ c.m) : ∃ c', by1Setup c = some c' ∧ SameCall us vs c c' ∧ By1Inv c c' := by
  obtain ⟨hvnlen, -, hmle, hnd1, hndle⟩ := hsame.ranges
  have hunlen := hsame.un_length
  obtain ⟨d, hd⟩ : ∃ d, c.vn[0]? = some d := ⟨_, List.getElem?_eq_getElem (by omega)⟩
  obtain ⟨top, htop⟩ : ∃ top, c.un[c.m - 1]? = some top := ⟨_, List.getElem?_eq_getElem (by omega)⟩
  obtain ⟨hun, hlt⟩ := normalize_un_bounds hsame.built
  have hr : top.toNat < d.toNat := by
    have := hlt hm
    rwa [hnd, List.getD_eq_getElem?_getD, List.getD_eq_getElem?_getD, htop, hd] at this
  have hm1 : c.m - 1 + 1 = c.m := Nat.sub_add_cancel hm
  have hdrop : val ((c.un.set (c.m - 1) 0).drop (c.m - 1)) = 0 := by
    rw [drop_set_self (by omega), hm1, val_cons, val_drop_eq_zero hun]; rfl
  have hval : val c.un = val (c.un.take (c.m - 1)) + limbBase ^ (c.m - 1) * top.toNat := by
    rw [← val_take_succ htop, hm1, val_take_of_lt hun]
  refine ⟨_, by1Setup_eq_some.mpr ⟨hm, d, top, hd, htop, rfl⟩,
    hsame.update (by simpa using hunlen) hsame.qa_length hsame.ra_length _ _ _ _,
    d, top, c.m - 1, hnd, hm1.le, congrArg some (by omega), hd, rfl, rfl, hr, ?_⟩
  rw [hdrop, List.take_set_of_le le_rfl, hval]
  ring

/-- R122, R124: an iteration of the single-limb path is enabled and keeps its invariant. -/
theorem by1Iterate_keeps {us vs : List Limb} {c0 c : Context} {j : Nat} (hlen : us.length = vs.length)
    (hsame : SameCall us vs c0 c) (h : By1Inv c0 c) (hj : c.j = some (j : Int)) :
    ∃ c', by1Iterate c j = some c' ∧ SameCall us vs c0 c' ∧ By1Inv c0 c' := by
  obtain ⟨d, r0, k, hnd, hk, hjk, hd, hr0, hrcp, hlt, hval⟩ := h
  obtain rfl := loop_index_of_iterate hj hjk
  obtain ⟨-, -, hmle, -, -⟩ := hsame.ranges
  have hunlen := hsame.un_length
  obtain ⟨x, hx⟩ : ∃ x, c.un[j]? = some x := ⟨_, List.getElem?_eq_getElem (by omega)⟩
  obtain ⟨q, r, hdiv, hqr, hr⟩ := divide2by1_exact (u0 := x) _ (hsame.vn_top (by rwa [hnd])) hlt
  refine ⟨_, by1Iterate_eq_some.mpr ⟨r0, x, d, _, q, r, hr0, hx, hd, hrcp, hdiv, rfl⟩,
    hsame.update (by simpa using hunlen) hsame.qa_length hsame.ra_length _ _ _ _,
    d, r, j, hnd, Nat.le_of_succ_le hk, rfl, hd, rfl, hrcp, hr, ?_⟩
  rw [hval, quotient_so_far_step hx hqr]

/-- R123, R124: the single-limb path's exit is enabled and leaves quotient and remainder. -/
theorem by1Exit_commits {us vs : List Limb} {c0 c : Context} (hpos : 1 ≤ us.length)
    (hsame : SameCall us vs c0 c) (h : By1Inv c0 c) (hj : c.j = some (-1)) :
    ∃ c', by1Exit us.length c = some c' ∧ SameCall us vs c0 c' ∧ CommitInv us vs c' := by
  obtain ⟨d, r0, k, hnd, hk, hjk, hd, hr0, hrcp, hlt, hval⟩ := h
  obtain rfl := loop_index_of_exit hj hjk
  rw [← hsame.val_vn_one hnd hd] at hlt hval
  rw [quotient_so_far_exit] at hval
  obtain ⟨hq, hr⟩ := hsame.quotient_remainder hval hlt
  have hunlen := hsame.un_length
  refine ⟨_, by1Exit_eq_some.mpr ⟨r0, hr0, (Nat.le_succ _).trans hunlen.ge, rfl⟩,
    hsame.update hunlen (by simp [hunlen]) (padLimbs_length (by simpa using hpos)) _ _ _ _, ?_⟩
  exact ⟨(hsame.val_un_take hval hlt).trans hq, by simpa [shr_toNat, Nat.shiftRight_eq_div_pow] using hr⟩

/-! ## The double-limb path (R131 to R134) -/

/-- R131, R134: the set-up takes the numerator's top pair as the remainder, with no quotient limb yet. -/
theorem by2Setup_starts {us vs : List Limb} {c : Context} (hsame : SameCall us vs c c) (hlen : us.length = vs.length)
    (hnd : c.nd = 2) (hm : 2 ≤ c.m) : ∃ c', by2Setup c = some c' ∧ SameCall us vs c c' ∧ By2Inv c c' := by
  obtain ⟨hvnlen, -, hmle, -, hndle⟩ := hsame.ranges
  have hunlen := hsame.un_length
  obtain ⟨d1, hd1⟩ : ∃ d1, c.vn[1]? = some d1 := ⟨_, List.getElem?_eq_getElem (by omega)⟩
  obtain ⟨d0, hd0⟩ : ∃ d0, c.vn[0]? = some d0 := ⟨_, List.getElem?_eq_getElem (by omega)⟩
  obtain ⟨r1, hr1⟩ : ∃ r1, c.un[c.m - 1]? = some r1 := ⟨_, List.getElem?_eq_getElem (by omega)⟩
  obtain ⟨r0, hr0⟩ : ∃ r0, c.un[c.m - 2]? = some r0 := ⟨_, List.getElem?_eq_getElem (by omega)⟩
  obtain ⟨hun, hlt⟩ := normalize_un_bounds hsame.built
  have hr : pairVal r1 r0 < pairVal d1 d0 := by
    have htop := hlt (by omega)
    rw [hnd, List.getD_eq_getElem?_getD, List.getD_eq_getElem?_getD, hr1, hd1] at htop
    exact pairVal_lt_of_top_lt htop
  have hm2 : c.m - 2 + 1 = c.m - 1 := by omega
  have hm1 : c.m - 1 + 1 = c.m := by omega
  have hdrop : val (((c.un.set (c.m - 1) 0).set (c.m - 2) 0).drop (c.m - 2)) = 0 := by
    rw [drop_set_self (by simp; omega), hm2, drop_set_self (by omega), hm1, val_cons, val_cons, val_drop_eq_zero hun]; rfl
  have hval : val c.un = val (c.un.take (c.m - 2)) + limbBase ^ (c.m - 2) * pairVal r1 r0 := by
    rw [← val_take_top_pair hm hr1 hr0, val_take_of_lt hun]
  refine ⟨_, by2Setup_eq_some.mpr ⟨hm, d1, d0, r1, r0, hd1, hd0, hr1, hr0, rfl⟩,
    hsame.update (by simpa using hunlen) hsame.qa_length hsame.ra_length _ _ _ _,
    d1, d0, r1, r0, c.m - 2, hnd, (Nat.sub_add_cancel hm).le, congrArg some (by omega), hd1, hd0, rfl, rfl, rfl, hr, ?_⟩
  rw [hdrop, List.take_set_of_le le_rfl, List.take_set_of_le (by omega), hval]
  ring

/-- R132, R134: an iteration of the double-limb path is enabled and keeps its invariant. -/
theorem by2Iterate_keeps {us vs : List Limb} {c0 c : Context} {j : Nat} (hsame : SameCall us vs c0 c)
    (h : By2Inv c0 c) (hj : c.j = some (j : Int)) :
    ∃ c', by2Iterate c j = some c' ∧ SameCall us vs c0 c' ∧ By2Inv c0 c' := by
  obtain ⟨d1, d0, r1, r0, k, hnd, hk, hjk, hd1, hd0, hr1, hr0, hrcp, hlt, hval⟩ := h
  obtain rfl := loop_index_of_iterate hj hjk
  obtain ⟨-, -, hmle, -, -⟩ := hsame.ranges
  have hunlen := hsame.un_length
  obtain ⟨x, hx⟩ : ∃ x, c.un[j]? = some x := ⟨_, List.getElem?_eq_getElem (by omega)⟩
  obtain ⟨q, t1, t0, hdiv, hqt, ht⟩ := divide3by2_exact (u0 := x) _ (hsame.vn_top (by rwa [hnd])) hlt
  refine ⟨_, by2Iterate_eq_some.mpr ⟨r1, r0, x, d1, d0, _, q, t1, t0, hr1, hr0, hx, hd1, hd0, hrcp, hdiv, rfl⟩,
    hsame.update (by simpa using hunlen) hsame.qa_length hsame.ra_length _ _ _ _,
    d1, d0, t1, t0, j, hnd, by show j + 2 ≤ c.m; omega, rfl, hd1, hd0, rfl, rfl, hrcp, ht, ?_⟩
  rw [hval, quotient_so_far_step hx hqt]

/-- R133, R134: the double-limb path's exit is enabled and leaves quotient and remainder. -/
theorem by2Exit_commits {us vs : List Limb} {c0 c : Context} (hlen : 2 ≤ us.length)
    (hsame : SameCall us vs c0 c) (h : By2Inv c0 c) (hj : c.j = some (-1)) :
    ∃ c', by2Exit us.length c = some c' ∧ SameCall us vs c0 c' ∧ CommitInv us vs c' := by
  obtain ⟨d1, d0, r1, r0, k, hnd, hk, hjk, hd1, hd0, hr1, hr0, hrcp, hlt, hval⟩ := h
  obtain rfl := loop_index_of_exit hj hjk
  rw [← hsame.val_vn_two hnd hd1 hd0] at hlt hval
  rw [quotient_so_far_exit] at hval
  obtain ⟨hq, hr⟩ := hsame.quotient_remainder hval hlt
  have hunlen := hsame.un_length
  have hshift := (Nat.div_le_self (pairVal r1 r0) (2 ^ c.s)).trans_lt (pairVal_lt r1 r0)
  refine ⟨_, by2Exit_eq_some.mpr ⟨r1, r0, hr1, hr0, (Nat.le_succ _).trans hunlen.ge, rfl⟩,
    hsame.update hunlen (by simp [hunlen]) (padLimbs_length (by simpa using hlen)) _ _ _ _,
    (hsame.val_un_take hval hlt).trans hq, ?_⟩
  rw [val_padLimbs, val_pair hshift, hr]

/-! ## The closed forms (R177) -/

/-- R177, R215: the `CF42` step, where the routine's contract is met. -/
theorem cf42_of_contract {len : Nat} {c : Context} {d1 d0 : Limb} (hun : 4 ≤ c.un.length) (hqa : 2 ≤ c.qa.length)
    (hd1 : c.vn[1]? = some d1) (hd0 : c.vn[0]? = some d0) (hnorm : 2 ^ 63 ≤ d1.toNat)
    (hlt : val (c.un.take 4) < pairVal d1 d0 * limbBase ^ 2) :
    cf42 len c = some { c with
      qa := limbsOf 2 (val (c.un.take 4) / pairVal d1 d0) ++ c.qa.drop 2
      ra := denormalize c.s len (limbsOf 2 (val (c.un.take 4) % pairVal d1 d0)) } := by
  have hread : readLimbs c.un 0 4 = some (c.un.take 4) := readLimbs_eq_some.mpr ⟨by omega, rfl⟩
  have hroutine : closedForm4by2 (c.un.take 4) d1 d0 =
      some (val (c.un.take 4) / pairVal d1 d0, val (c.un.take 4) % pairVal d1 d0) := if_pos ⟨hnorm, hlt⟩
  have hwrite (q : Nat) : writeLimbs c.qa 0 (limbsOf 2 q) = some (limbsOf 2 q ++ c.qa.drop 2) :=
    writeLimbs_eq_some.mpr ⟨by simpa using hqa, by simp⟩
  simp only [cf42, hread, hd1, hd0, hroutine, hwrite]

/-- R177, R216: the `CF64` step, where the routine's contract is met. -/
theorem cf64_of_contract {len : Nat} {c : Context} {d3 : Limb} (hm : c.m ≤ 6) (hun : c.m ≤ c.un.length)
    (hvn : 4 ≤ c.vn.length) (hqa : 2 ≤ c.qa.length) (hd3 : c.vn[3]? = some d3) (hnorm : 2 ^ 63 ≤ d3.toNat)
    (hlt : val (c.un.take c.m) < val (c.vn.take 4) * limbBase ^ 2) :
    cf64 len c = some { c with
      qa := limbsOf 2 (val (c.un.take c.m) / val (c.vn.take 4)) ++ c.qa.drop 2
      ra := denormalize c.s len (limbsOf 4 (val (c.un.take c.m) % val (c.vn.take 4))) } := by
  have hread : readLimbs c.un 0 c.m = some (c.un.take c.m) := readLimbs_eq_some.mpr ⟨by omega, rfl⟩
  have hread' : readLimbs c.vn 0 4 = some (c.vn.take 4) := readLimbs_eq_some.mpr ⟨by omega, rfl⟩
  have hd3' : (c.vn.take 4)[3]? = some d3 := by rwa [List.getElem?_take_of_lt (by decide)]
  have hroutine : closedForm6by4 (padLimbs 6 (c.un.take c.m)) (c.vn.take 4) =
      some (val (c.un.take c.m) / val (c.vn.take 4), val (c.un.take c.m) % val (c.vn.take 4)) := by
    simp only [closedForm6by4, hd3', val_padLimbs, if_pos (And.intro hnorm hlt)]
  have hwrite (q : Nat) : writeLimbs c.qa 0 (limbsOf 2 q) = some (limbsOf 2 q ++ c.qa.drop 2) :=
    writeLimbs_eq_some.mpr ⟨by simpa using hqa, by simp⟩
  simp only [cf64, if_neg (Nat.not_lt.mpr hm), hread, hread', hroutine, hwrite]

/-- R177: a closed form's exact quotient and remainder, written to `QA` and `RA`, await the commit. -/
theorem SameCall.closedForm_commits {us vs : List Limb} {c0 c : Context} {len : Nat} (hsame : SameCall us vs c0 c)
    (hlen2 : 2 ≤ us.length) (hlen : len ≤ us.length) (hqa : val c.qa = 0) (hv : val c.vn < limbBase ^ len)
    (hq : val c0.un < val c.vn * limbBase ^ 2) :
    ∃ c', c' = { c with
        qa := limbsOf 2 (val c0.un / val c.vn) ++ c.qa.drop 2
        ra := denormalize c.s us.length (limbsOf len (val c0.un % val c.vn)) } ∧
      SameCall us vs c0 c' ∧ CommitInv us vs c' := by
  have hr := Nat.mod_lt (val c0.un) hsame.val_vn_bounds.1
  obtain ⟨hquot, hrem⟩ := hsame.quotient_remainder (Nat.div_add_mod' _ _).symm hr
  have hqalen := hsame.qa_length
  refine ⟨_, rfl, hsame.update hsame.un_length (by simp; omega) (denormalize_length _ (by simpa using hlen)) _ _ _ _,
    ?quotient, ?remainder⟩
  case quotient => rw [val_append_drop_of_zero hqa, val_limbsOf_of_lt (Nat.div_lt_of_lt_mul hq), hquot]
  case remainder =>
    obtain ⟨-, hs, -⟩ := hsame.ranges
    rw [val_denormalize (by omega), val_limbsOf_of_lt (hr.trans hv), hrem]

/-- R173, R177: the `CF42` step is enabled and leaves quotient and remainder. -/
theorem cf42_commits {us vs : List Limb} {c0 c : Context} (hlen : us.length = vs.length) (hlen4 : 4 ≤ us.length)
    (hsame : SameCall us vs c0 c) (h : Cf42Inv c0 c) :
    ∃ c', cf42 us.length c = some c' ∧ SameCall us vs c0 c' ∧ CommitInv us vs c' := by
  obtain ⟨hnd, hm, hun, hqa⟩ := h
  have hunlen := hsame.un_length
  have hqalen := hsame.qa_length
  obtain ⟨hvnlen, -⟩ := hsame.ranges
  obtain ⟨d1, hd1⟩ : ∃ d1, c.vn[1]? = some d1 := ⟨_, List.getElem?_eq_getElem (by omega)⟩
  obtain ⟨d0, hd0⟩ : ∃ d0, c.vn[0]? = some d0 := ⟨_, List.getElem?_eq_getElem (by omega)⟩
  have hquot := hsame.un_lt (by omega)
  have hv := hsame.val_vn_bounds.2
  rw [hm, hnd] at hquot
  rw [hnd] at hv
  obtain ⟨c', hc', hkeeps⟩ := hsame.closedForm_commits (by omega) (by omega) hqa hv hquot
  refine ⟨c', ?_, hkeeps⟩
  have htake : val (c.un.take 4) = val c0.un := by rw [hun, ← hm, hsame.val_un_take_m]
  have hden := hsame.val_vn_two hnd hd1 hd0
  rw [cf42_of_contract (by omega) (by omega) hd1 hd0 (hsame.vn_top (by rwa [hnd])) (by rwa [htake, ← hden]),
    htake, ← hden, hc']

/-- R174, R177: the `CF64` step is enabled and leaves quotient and remainder. -/
theorem cf64_commits {us vs : List Limb} {c0 c : Context} (hlen : us.length = vs.length) (hlen4 : 4 ≤ us.length)
    (hsame : SameCall us vs c0 c) (h : Cf64Inv c0 c) :
    ∃ c', cf64 us.length c = some c' ∧ SameCall us vs c0 c' ∧ CommitInv us vs c' := by
  obtain ⟨hnd, hm4, hm6, hun, hqa⟩ := h
  obtain ⟨hvnlen, -, hmle, -⟩ := hsame.ranges
  have hunlen := hsame.un_length
  have hqalen := hsame.qa_length
  obtain ⟨d3, hd3⟩ : ∃ d3, c.vn[3]? = some d3 := ⟨_, List.getElem?_eq_getElem (by omega)⟩
  have hquot : val c0.un < val c.vn * limbBase ^ 2 :=
    (hsame.un_lt (by omega)).trans_le (Nat.mul_le_mul_left _ (Nat.pow_le_pow_right limbBase_pos (by omega)))
  have hv := hsame.val_vn_bounds.2
  have hden := hsame.val_vn_take
  rw [hnd] at hv hden
  obtain ⟨c', hc', hkeeps⟩ := hsame.closedForm_commits (by omega) hlen4 hqa hv hquot
  refine ⟨c', ?_, hkeeps⟩
  have htake : val (c.un.take c.m) = val c0.un := by rw [hun, hsame.val_un_take_m]
  rw [cf64_of_contract hm6 (by omega) (by omega) (by omega) hd3 (hsame.vn_top (by rwa [hnd])) (by rwa [htake, hden]),
    htake, hden, hc']

/-! ## The Knuth loop (R141 to R154) -/

/-- R141, R154: the set-up leaves the top limbs of the numerator as the partial remainder, below the divisor. -/
theorem knuthSetup_starts {us vs : List Limb} {c : Context} (hsame : SameCall us vs c c) (hlen : us.length = vs.length)
    (hqa : val c.qa = 0) (hnd : 3 ≤ c.nd) (hm : c.nd ≤ c.m) :
    ∃ c', knuthSetup c = some c' ∧ SameCall us vs c c' ∧ KnuthInv c c' := by
  obtain ⟨hvnlen, -, hmle, -, hndle⟩ := hsame.ranges
  obtain ⟨d1, hd1⟩ : ∃ d1, c.vn[c.nd - 1]? = some d1 := ⟨_, List.getElem?_eq_getElem (by omega)⟩
  obtain ⟨d0, hd0⟩ : ∃ d0, c.vn[c.nd - 2]? = some d0 := ⟨_, List.getElem?_eq_getElem (by omega)⟩
  have hmn : c.m - c.nd + c.nd = c.m := Nat.sub_add_cancel hm
  refine ⟨_, knuthSetup_eq_some.mpr ⟨⟨hnd, hm⟩, d1, d0, hd1, hd0, rfl⟩,
    hsame.update hsame.un_length hsame.qa_length hsame.ra_length _ _ _ _,
    d1, d0, c.m - c.nd, hnd, hmn.le, congrArg some (by omega), hd1, hd0, rfl, ?below, ?empty, ?whole⟩
  case below =>
    have hcut := val_take_drop (c.un.take c.m) (c.m - c.nd)
    have hlow : ((c.un.take c.m).take (c.m - c.nd)).length = c.m - c.nd := by
      have := hsame.un_length
      simp; omega
    rw [hlow, hsame.val_un_take_m, List.drop_take, Nat.sub_sub_self hm] at hcut
    have hlt := hsame.un_lt hm
    rw [hcut, Nat.mul_comm] at hlt
    exact Nat.lt_of_mul_lt_mul_right ((Nat.le_add_left _ _).trans_lt hlt)
  case empty => exact Nat.le_zero.mp (hqa ▸ val_take_le _ _)
  case whole => rw [hqa, hmn, hsame.val_un_take_m, Nat.zero_mul, Nat.zero_add]

/-- R143, R150, R154: an iteration of the Knuth loop is enabled and keeps its invariant. -/
theorem knuthIterate_keeps {us vs : List Limb} {c0 c : Context} {j : Nat} (hlen : us.length = vs.length)
    (hsame : SameCall us vs c0 c) (h : KnuthInv c0 c) (hj : c.j = some (j : Int)) :
    ∃ c', knuthIterate c j = some c' ∧ SameCall us vs c0 c' ∧ KnuthInv c0 c' := by
  obtain ⟨d1, d0, k, hnd, hk, hjk, hd1, hd0, hrcp, hlt, hqa, hval⟩ := h
  obtain rfl := loop_index_of_iterate hj hjk
  obtain ⟨hvnlen, -, hmle, -, hndle⟩ := hsame.ranges
  have hunlen := hsame.un_length
  have hqalen := hsame.qa_length
  obtain ⟨w, hread⟩ : ∃ w, readLimbs c.un j (c.nd + 1) = some w := ⟨_, readLimbs_eq_some.mpr ⟨by omega, rfl⟩⟩
  have hwlen := readLimbs_length hread
  obtain ⟨hfit, hw⟩ := readLimbs_eq_some.mp hread
  have hpartial : val (w.drop 1) < val (c.vn.take c.nd) := by
    rw [hw, List.drop_take, List.drop_drop, Nat.add_sub_cancel, hsame.val_vn_take]
    exact hlt
  obtain ⟨qhat, w', hwindow, hwlen', hdiv, hrem⟩ := knuthWindow_exact hnd hwlen (hsame.vn_top hd1) hpartial
    (List.getElem?_eq_getElem (by omega)) (List.getElem?_eq_getElem (by omega)) hd1 hd0
    (Config.reciprocalFor2Limb d1 d0)
  rw [hsame.val_vn_take] at hdiv hrem
  obtain ⟨un, hun⟩ : ∃ un, writeLimbs c.un j w' = some un := ⟨_, writeLimbs_eq_some.mpr ⟨by omega, rfl⟩⟩
  obtain ⟨hbelow, hwin⟩ := take_drop_of_writeLimbs hun (n := c.nd) (by omega)
  have hunlen' := writeLimbs_length hun
  obtain ⟨y, hy⟩ : ∃ y, c.qa[j]? = some y := ⟨_, List.getElem?_eq_getElem (by omega)⟩
  rw [val_take_succ hy] at hqa
  obtain ⟨hlow, hy0⟩ := Nat.add_eq_zero_iff.mp hqa
  have hqa' := writeLimb_of_getElem? hy qhat
  refine ⟨_, knuthIterate_eq_some.mpr ⟨w, _, qhat, w', un, _, hread, hrcp, hwindow, hun, hqa', rfl⟩,
    hsame.update (hunlen'.trans hunlen) (by simpa using hqalen) hsame.ra_length _ _ _ _,
    d1, d0, j, hnd, by show j + c.nd ≤ c.m; omega, rfl, hd1, hd0, hrcp, ?below, ?empty, ?whole⟩
  case below => rwa [hwin]
  case empty => rwa [List.take_set_of_le le_rfl]
  case whole =>
    have hset := val_set hy qhat
    rw [hy0, Nat.add_zero] at hset
    rw [show j + 1 + c.nd = j + (c.nd + 1) by omega, val_take_window (by omega), ← hw, hdiv] at hval
    rw [val_take_window (xs := un) (by omega), hbelow, hwin, hset, hval]
    ring

/-- R153, R154: the Knuth loop's exit is enabled and leaves quotient and remainder. -/
theorem knuthExit_commits {us vs : List Limb} {c0 c : Context} (hlen : us.length = vs.length)
    (hsame : SameCall us vs c0 c) (h : KnuthInv c0 c) (hj : c.j = some (-1)) :
    ∃ c', knuthExit us.length c = some c' ∧ SameCall us vs c0 c' ∧ CommitInv us vs c' := by
  obtain ⟨d1, d0, k, hnd, hk, hjk, -, -, -, hlt, -, hval⟩ := h
  obtain rfl := loop_index_of_exit hj hjk
  rw [List.drop_zero] at hlt
  rw [Nat.zero_add] at hval
  obtain ⟨-, hs, -, -, hndle⟩ := hsame.ranges
  have hunlen := hsame.un_length
  obtain ⟨hq, hr⟩ := hsame.quotient_remainder hval hlt
  refine ⟨_, knuthExit_eq_some.mpr ⟨by omega, rfl⟩,
    hsame.update hunlen hsame.qa_length (denormalize_length _ (by simp; omega)) _ _ _ _, hq, ?_⟩
  rw [val_denormalize (by omega), hr]

end Sys2Proof.Machine
end

section
/-! SUPPORT. The invariant of the machine under the steps of the engine and of the host (R27 to R29, R275). -/

namespace Sys2Proof.Machine

/-! ## The dispatch (R170 to R175) -/

/-- R170 to R175: which counts lead to which route. -/
theorem selectRoute_cases {n m : Nat} (hn : 1 ≤ n) :
    (selectRoute n m = .earlyExit ∧ m < n) ∨ (selectRoute n m = .by1 ∧ n = 1 ∧ 1 ≤ m) ∨
    (selectRoute n m = .by2 ∧ n = 2 ∧ 2 ≤ m ∧ m ≠ 4) ∨ (selectRoute n m = .cf42 ∧ n = 2 ∧ m = 4) ∨
    (selectRoute n m = .cf64 ∧ n = 4 ∧ 4 ≤ m ∧ m ≤ 6) ∨
    (selectRoute n m = .knuth ∧ 3 ≤ n ∧ n ≤ m ∧ ¬ (n = 4 ∧ m ≤ 6)) := by
  unfold selectRoute
  split_ifs <;> simp <;> omega

/-- R121, R131, R141, R171, R173, R174: the `NORM` step's set-up is enabled on every route and leaves what the route's phase
asks. -/
theorem setUpRoute_starts {us vs : List Limb} {c0 : Context} (hlen : us.length = vs.length)
    (hbuilt : normalize us vs = some c0) :
    ∃ c, setUpRoute us c0 (selectRoute c0.nd c0.m) = some c ∧ SameCall us vs c0 c ∧
      PhaseInv (selectRoute c0.nd c0.m).phase us vs c0 c := by
  have hsame := SameCall.of_normalize hbuilt
  obtain ⟨-, -, -, -, -, -, -, -, hqa, -⟩ := normalize_eq_some hbuilt
  have hqa0 : val c0.qa = 0 := by rw [hqa]; exact val_replicate_zero _
  obtain ⟨-, -, -, hn1, -⟩ := hsame.ranges
  rcases selectRoute_cases (m := c0.m) hn1 with ⟨hr, hm⟩ | ⟨hr, hn, hm⟩ | ⟨hr, hn, hm, -⟩ | ⟨hr, hn, hm⟩ |
    ⟨hr, hn, hm4, hm6⟩ | ⟨hr, hn, hm, -⟩ <;> rw [hr]
  · have hlt := normalize_lt_of_count_lt hbuilt hm
    exact ⟨_, rfl, hsame.update hsame.un_length hsame.qa_length rfl _ _ _ _,
      hqa0.trans (Nat.div_eq_of_lt hlt).symm, (Nat.mod_eq_of_lt hlt).symm⟩
  · exact by1Setup_starts hsame hlen hn hm
  · exact by2Setup_starts hsame hlen hn hm
  · exact ⟨c0, rfl, hsame, hn, hm, rfl, hqa0⟩
  · exact ⟨c0, rfl, hsame, hn, hm4, hm6, rfl, hqa0⟩
  · exact knuthSetup_starts hsame hlen hqa0 hn hm

/-! ## An engine step of a call (R189) -/

/-- A context of a call that is what the phase says (R124, R134, R154, R179). -/
def CallContext (us vs : List Limb) (c0 : Context) (p : Phase) (c : Context) : Prop :=
  SameCall us vs c0 c ∧ PhaseInv p us vs c0 c

/-- R25: in a loop phase either an iteration or the exit is enabled, and the step is that one's. -/
theorem loopStep_of_enabled {p : Phase} {iterate : Context → Nat → Option Context} {exit : Nat → Context → Option Context}
    {s : State} {us vs : List Limb} {c0 c : Context} (hl : s.lw = some us.length) (hc : s.ctx = some c)
    (hj : ∃ k : Nat, c.j = some ((k : Int) - 1))
    (hiterate : ∀ j : Nat, c.j = some (j : Int) → ∃ c', iterate c j = some c' ∧ CallContext us vs c0 p c')
    (hexit : c.j = some (-1) → ∃ c', exit us.length c = some c' ∧ CallContext us vs c0 .commit c') :
    ∃ c' p', loopStep p iterate exit s = some { s with ctx := some c', phase := p' } ∧ CallContext us vs c0 p' c' := by
  obtain ⟨k, hk⟩ := hj
  cases k with
  | zero =>
    obtain ⟨c', hc', hcall⟩ := hexit hk
    exact ⟨c', .commit, loopStep_eq_some.mpr ⟨_, c, c', hl, hc, .inr ⟨hk, hc', rfl⟩⟩, hcall⟩
  | succ j =>
    have hj : c.j = some (j : Int) := hk.trans (congrArg some (by omega))
    obtain ⟨c', hc', hcall⟩ := hiterate j hj
    exact ⟨c', p, loopStep_eq_some.mpr ⟨_, c, c', hl, hc, .inl ⟨j, hj, hc', rfl⟩⟩, hcall⟩

/-- R177: a closed-form phase's step is its routine's. -/
theorem routineStep_of_enabled {routine : Nat → Context → Option Context} {s : State} {us vs : List Limb}
    {c0 c : Context} (hl : s.lw = some us.length) (hc : s.ctx = some c)
    (h : ∃ c', routine us.length c = some c' ∧ CallContext us vs c0 .commit c') :
    ∃ c' p', routineStep routine s = some { s with ctx := some c', phase := p' } ∧ CallContext us vs c0 p' c' := by
  obtain ⟨c', hc', hcall⟩ := h
  exact ⟨c', .commit, routineStep_eq_some.mpr ⟨_, c, c', hl, hc, hc', rfl⟩, hcall⟩

/-- R108, R189: the `NORM` step is enabled and builds a context that is what the chosen phase says. -/
theorem engineStep_of_norm {s : State} {us vs : List Limb} (hp : s.phase = .norm) (hl : s.lw = some us.length)
    (hu : s.numerator us.length = some us) (hv : s.divisor us.length = some vs) (hlen : us.length = vs.length)
    (hz : val vs ≠ 0) :
    ∃ c p, engineStep s = .next { s with ctx := some c, phase := p } ∧ ∃ c0, CallContext us vs c0 p c := by
  obtain ⟨c0, hbuilt⟩ := exists_normalize us hz
  obtain ⟨c, hset, hcall⟩ := setUpRoute_starts hlen hbuilt
  have hnorm := normContext_eq_some.mpr ⟨c0, hbuilt, hset, rfl⟩
  refine ⟨c, _, ?_, c0, hcall⟩
  simp only [engineStep, hp, orContract_eq_next]
  exact normStep_eq_some.mpr ⟨_, us, vs, c, _, hl, hu, hv, hnorm, rfl⟩

/-- R189, R124, R134, R154: before the commit, the step of a phase with a context is enabled and leaves one that is what the
next phase says. -/
theorem engineStep_of_callContext {s : State} {us vs : List Limb} {c0 c : Context} (hl : s.lw = some us.length)
    (hc : s.ctx = some c) (hlen : us.length = vs.length) (hlen4 : 4 ≤ us.length) (hp : s.phase ≠ .commit)
    (h : CallContext us vs c0 s.phase c) :
    ∃ c' p, engineStep s = .next { s with ctx := some c', phase := p } ∧ CallContext us vs c0 p c' := by
  obtain ⟨hsame, h⟩ := h
  have hindex := fun hloop => (phaseInv_loop_index h hloop).imp fun _ => And.right
  cases hph : s.phase <;> rw [hph] at h hindex <;> simp only [engineStep, hph, orContract_eq_next]
  case idle => exact h.elim
  case norm => exact h.elim
  case by1 =>
    exact loopStep_of_enabled hl hc (hindex (.inl rfl)) (fun _ => by1Iterate_keeps hlen hsame h)
      (by1Exit_commits (by omega) hsame h)
  case by2 =>
    exact loopStep_of_enabled hl hc (hindex (.inr (.inl rfl))) (fun _ => by2Iterate_keeps hsame h)
      (by2Exit_commits (by omega) hsame h)
  case cf42 => exact routineStep_of_enabled hl hc (cf42_commits hlen hlen4 hsame h)
  case cf64 => exact routineStep_of_enabled hl hc (cf64_commits hlen hlen4 hsame h)
  case knuth =>
    exact loopStep_of_enabled hl hc (hindex (.inr (.inr rfl))) (fun _ => knuthIterate_keeps hlen hsame h)
      (knuthExit_commits hlen hsame h)
  case commit => exact absurd hph hp

/-! ## The invariant of the machine (R27 to R29, R275) -/

/-- R275: what is committed to a bank without values is all it holds. -/
theorem noValue_writePrefix_holdsExactly (xs : List Limb) : (Bank.noValue.writePrefix xs).holdsExactly xs.length := by
  intro k
  rw [writePrefix_get, noValue_get, Option.or_none, Bool.eq_iff_iff, isSome_getElem?, decide_eq_true_iff]

/-- A phase of a call that has a context has the context its phase says. -/
theorem CallInv.of_callContext {s : State} {i : Instr} {us vs : List Limb} {c0 c : Context} {p : Phase}
    (hl : s.lw = some i.limbs) (hu : s.numerator i.limbs = some us) (hv : s.divisor i.limbs = some vs) (hz : val vs ≠ 0)
    (h : CallContext us vs c0 p c) : CallInv { s with ctx := some c, phase := p } :=
  ⟨i, us, vs, hl, hu, hv, hz, .inr ⟨c0, c, rfl, h⟩⟩

/-- R189: before the commit, an engine step of a call is enabled and continues the call. -/
theorem CallInv.exists_engineStep {s : State} (h : CallInv s) (hp : s.phase ≠ .commit) :
    ∃ c p, engineStep s = .next { s with ctx := some c, phase := p } ∧ p ≠ .idle ∧
      CallInv { s with ctx := some c, phase := p } := by
  obtain ⟨i, us, vs, hl, hu, hv, hz, hcall⟩ := h
  have hus : us.length = i.limbs := readPrefix_length hu (limbs_le_max i)
  have hvs : vs.length = i.limbs := readPrefix_length hv (limbs_le_max i)
  have hlen4 := limbs_ge_four i
  obtain ⟨c, p, hstep, c0, hnext⟩ : ∃ c p, engineStep s = .next { s with ctx := some c, phase := p } ∧
      ∃ c0, CallContext us vs c0 p c := by
    rcases hcall with ⟨hn, -⟩ | ⟨c0, c, hc, hcall⟩
    · exact engineStep_of_norm hn (hus ▸ hl) (hus ▸ hu) (hus ▸ hv) (hus.trans hvs.symm) hz
    · obtain ⟨c', p, hstep, hnext⟩ :=
        engineStep_of_callContext (hus ▸ hl) hc (hus.trans hvs.symm) (hus ▸ hlen4) hp hcall
      exact ⟨c', p, hstep, c0, hnext⟩
  refine ⟨c, p, hstep, ?_, .of_callContext hl hu hv hz hnext⟩
  rintro rfl
  exact hnext.2

/-- R178: the commit is enabled and ends the call with both results. -/
theorem State.Inv.exists_commitStep {s : State} (h : s.Inv) (hp : s.phase = .commit) :
    ∃ t, engineStep s = .next t ∧ t.Inv := by
  have hbusy : s.busy = true := h.busy_iff.mpr (by simp [hp])
  have hdone : s.done = false := by simpa [hbusy] using h.not_both
  obtain ⟨hq, hr⟩ := h.no_results hdone
  obtain ⟨i, us, vs, hl, hu, -, -, ⟨hn, -⟩ | ⟨c0, c, hc, hsame, -⟩⟩ := h.call (by simp [hp])
  · simp [hp] at hn
  have hus : us.length = i.limbs := readPrefix_length hu (limbs_le_max i)
  have hread {xs : List Limb} (hxs : xs.length = us.length) : readLimbs xs 0 i.limbs = some xs :=
    readLimbs_eq_some.mpr ⟨by omega, by rw [List.drop_zero, List.take_of_length_le (by omega)]⟩
  have hholds {xs : List Limb} (hxs : xs.length = us.length) : (Bank.noValue.writePrefix xs).holdsExactly i.limbs :=
    (hxs.trans hus) ▸ noValue_writePrefix_holdsExactly xs
  have hstep := commitStep_eq_some.mpr
    ⟨_, c, c.qa, c.ra, hl, hc, hread hsame.qa_length, hread hsame.ra_length, rfl⟩
  refine ⟨_, by rw [engineStep, hp]; exact orContract_eq_next.mpr hstep, ?_⟩
  exact {
    busy_iff := by simp
    not_both := by simp
    no_context := fun _ => ⟨rfl, rfl⟩
    no_results := by simp
    results := fun _ => ⟨i, by rw [hq]; exact hholds hsame.qa_length, by rw [hr]; exact hholds hsame.ra_length⟩
    call := fun hidle => absurd rfl hidle }

section
variable {s : State} (h : s.Inv)
include h

/-- R28: a block that is not busy is idle. -/
theorem State.Inv.idle_of_not_busy (hb : s.busy = false) : s.phase = .idle := by
  by_contra hp
  simp [h.busy_iff.mpr hp] at hb

/-- R22: the operands of an idle block are the host's to write. -/
theorem State.Inv.withOperands (hb : s.busy = false) (u v : Bank) : { s with u := u, v := v }.Inv where
  busy_iff := h.busy_iff
  not_both := h.not_both
  no_context := h.no_context
  no_results := h.no_results
  results := h.results
  call hp := absurd (h.idle_of_not_busy hb) hp

/-- R180: an accepted command begins a call. -/
theorem State.Inv.of_exec {i : Instr} {t : State} (hx : exec i s = .next t) : t.Inv := by
  rw [exec_eq_startDivide] at hx
  obtain ⟨hb, -, ⟨us, vs, hu, hv, hz⟩, rfl⟩ := startDivide_eq_next.mp hx
  have hctx := (h.no_context (h.idle_of_not_busy hb)).2
  exact {
    busy_iff := by simp
    not_both := by simp
    no_context := by simp
    no_results := fun _ => ⟨rfl, rfl⟩
    results := by simp
    call := fun _ => ⟨i, us, vs, rfl, hu, hv, hz, .inl ⟨rfl, hctx⟩⟩ }

/-- R20, R77, R180, R186, R187, R270: no access of the host breaks the invariant. -/
theorem State.Inv.of_hostStep {op : HostOp} {t : State} (hs : hostStep op s = .next t) : t.Inv := by
  cases op with
  | reset =>
    cases hs
    exact resetMeetsTheInvariant.withEnvironment _ _ _
  | wait =>
    rw [hostStep, hostWait_eq] at hs
    cases hs
    exact h.withEnvironment _ _ _
  | read a =>
    obtain ⟨x, -, rfl⟩ := hostRead_eq_next.mp hs
    exact h.withEnvironment _ _ _
  | write a x =>
    rcases hostWrite_next hs with ⟨i, -, hb, rfl⟩ | ⟨i, -, hb, rfl⟩ | ⟨-, -, i, -, hx⟩
    · exact h.withOperands hb _ _
    · exact h.withOperands hb _ _
    · exact h.of_exec hx

/-- R189: in a call an engine step is enabled and keeps the invariant. -/
theorem State.Inv.exists_engineStep (hp : s.phase ≠ .idle) : ∃ t, engineStep s = .next t ∧ t.Inv := by
  by_cases hcommit : s.phase = .commit
  · exact h.exists_commitStep hcommit
  obtain ⟨c, p, hstep, hp', hcall⟩ := (h.call hp).exists_engineStep hcommit
  exact ⟨_, hstep, {
    busy_iff := by simpa [hp'] using h.busy_iff.mpr hp
    not_both := h.not_both
    no_context := fun hidle => absurd hidle hp'
    no_results := h.no_results
    results := h.results
    call := fun _ => hcall }⟩

end

/-- Settles O52: every step is an engine step of a call, an access of the host, or none. -/
theorem stepKeepsTheInvariant : Obligations.StepKeepsTheInvariant := by
  intro s t hs hstep
  rcases step_next_cases hstep with ⟨-, -, rfl⟩ | ⟨hp, ts, he⟩ | ⟨op, rest, ts, -, hh⟩
  · exact hs
  · obtain ⟨t', he', ht'⟩ := (hs.withEnvironment s.pending ts s.reads).exists_engineStep hp
    cases he.symm.trans he'
    exact ht'
  · exact (hs.withEnvironment rest ts s.reads).of_hostStep hh

end Sys2Proof.Machine
end

section
/-! SUPPORT. The double-limb path's steps of the engine, the de-normalization of its remainder pair, and the statements of
43_double_limb_path.md on one `BY2` iteration and on the `BY2` exit. -/

namespace Sys2Proof.Machine

/-! ## The engine's step in `BY2` (R132, R133, R189) -/

/-- R189: in `BY2` the engine's step is the loop's. -/
theorem engineStep_by2_eq_next {s t : State} (hp : s.phase = .by2) :
    engineStep s = .next t ↔ loopStep .by2 by2Iterate by2Exit s = some t := by
  simp only [engineStep, hp, orContract_eq_next]

/-! ## The remainder pair shifted back (R133, R176) -/

/-- R10: two limbs as an array are the pair written low limb first. -/
theorem val_low_high (h l : Limb) : val [l, h] = pairVal h l := by
  rw [val_cons, val_cons, val_nil, Nat.mul_zero, Nat.add_zero, pairVal, Nat.mul_comm, Nat.add_comm]

/-- R133, R176: a pair shifted right limb by limb is its value divided by `2^s`. -/
theorem pairVal_shiftRight (h l : Limb) {s : Nat} (hs : s ≤ 64) :
    pairVal (h >>> s) ((l >>> s) + (h <<< (64 - s))) = pairVal h l / 2 ^ s := by
  have hshift := val_shiftRightLimbs s [l, h] hs
  rwa [shiftRightLimbs, shiftRightLimbs, val_low_high, val_low_high] at hshift

/-- R10: two limbs padded to an array. -/
theorem padLimbs_pair (len : Nat) (l h : Limb) : padLimbs len [l, h] = l :: h :: List.replicate (len - 2) 0 := rfl

/-! ## One `BY2` iteration and the `BY2` exit -/

/-- Settles O34: the iteration is one exact 3-by-2 division. -/
theorem by2IterationDividesOneLimb : Obligations.By2IterationDividesOneLimb := by
  intro s len j c r1 r0 x d1 d0 rcp hp hl hc hj hr1 hr0 hx hd1 hd0 hrcp hnorm hlt
  obtain ⟨q, t1, t0, hdiv, hval, ht⟩ := divide3by2_exact (u0 := x) rcp hnorm hlt
  refine ⟨q, t1, t0, hval, ht, (engineStep_by2_eq_next hp).mpr ?_⟩
  have hit := by2Iterate_eq_some.mpr
    ⟨r1, r0, x, d1, d0, rcp, q, t1, t0, hr1, hr0, hx, hd1, hd0, hrcp, hdiv, rfl⟩
  exact loopStep_eq_some.mpr ⟨len, c, _, hl, hc, .inl ⟨j, hj, hit, by rw [← hp]⟩⟩

/-- Settles O35: the exit collects the low `L` limbs and the two limbs of the shifted pair, which is fixed by its value. -/
theorem by2ExitCollectsTheResult : Obligations.By2ExitCollectsTheResult := by
  intro s len c r1 r0 hp hl hc hj hr1 hr0 hs _ hlen
  have hshift : pairVal r1 r0 / 2 ^ c.s < limbBase ^ 2 := (Nat.div_le_self _ _).trans_lt (pairVal_lt r1 r0)
  have hpair := pairVal_hi_lo hshift
  refine ⟨_, _, hpair, fun h0 => ?_, fun _ => ?_, (engineStep_by2_eq_next hp).mpr ?_⟩
  · exact pairVal_inj (hpair.trans (by rw [h0, pow_zero, Nat.div_one]))
  · exact pairVal_inj (hpair.trans (pairVal_shiftRight r1 r0 (hs.trans (by decide))).symm)
  · have hex := by2Exit_eq_some.mpr ⟨r1, r0, hr1, hr0, hlen, rfl⟩
    rw [padLimbs_pair] at hex
    exact loopStep_eq_some.mpr ⟨len, c, _, hl, hc, .inr ⟨hj, hex, rfl⟩⟩

end Sys2Proof.Machine
end

section
/-! SUPPORT. The statements of 44_knuth.md: the helpers `add` and `submul` determined by their identities, the two branches
of a Knuth window and its estimate, one `KNUTH` iteration and the `KNUTH` exit. -/

namespace Sys2Proof.Machine

/-! ## The helpers determined by their identities (R151, R152) -/

/-- R10: an array is given by its length and its value. -/
theorem eq_of_val_eq {xs ys : List Limb} (hlen : xs.length = ys.length) (h : val xs = val ys) : xs = ys := by
  refine List.ext_getElem hlen fun i hx hy => BitVec.eq_of_toNat_eq ?_
  rw [← List.getD_eq_getElem xs 0 hx, ← List.getD_eq_getElem ys 0 hy, toNat_getD, toNat_getD, h]

/-- R151, R152: `n` limbs and what stands above them are both given by the whole value. -/
theorem limbs_and_carry_unique {xs ys : List Limb} {n a b : Nat} (hx : xs.length = n) (hy : ys.length = n)
    (h : val xs + a * limbBase ^ n = val ys + b * limbBase ^ n) : xs = ys ∧ a = b := by
  have hxlt := hx ▸ val_lt xs
  have hylt := hy ▸ val_lt ys
  have hlow := congrArg (· % limbBase ^ n) h
  simp only [Nat.add_mul_mod_self_right, Nat.mod_eq_of_lt hxlt, Nat.mod_eq_of_lt hylt] at hlow
  rw [hlow] at h
  exact ⟨eq_of_val_eq (hx.trans hy.symm) hlow,
    Nat.eq_of_mul_eq_mul_right (pow_pos limbBase_pos n) (Nat.add_left_cancel h)⟩

/-- R151: the addition over `n` limbs that are there. -/
theorem add_exact {x y : List Limb} {n : Nat} (hn : 2 ≤ n) (hx : n ≤ x.length) (hy : n ≤ y.length) :
    ∃ sum cy, add x y n = some (sum, cy) ∧ sum.length = n ∧ cy ≤ 1 ∧
      val sum + cy * limbBase ^ n = val (x.take n) + val (y.take n) := by
  refine ⟨_, _, add_eq_some.mpr ⟨⟨hn, hx, hy⟩, rfl⟩, by simp [hx, hy], addLoop_carry_le _ _ 0 (Nat.zero_le 1), ?_⟩
  have hval := addLoop_val (x.take n) (y.take n) 0 (by simp; omega)
  simpa [hx] using hval

/-- Settles O25: `add` answers its limbs and carry, and the identity has no other solution. -/
theorem addHelperIsExact : Obligations.AddHelperIsExact := by
  intro x y len hn hx hy dst c
  obtain ⟨sum, cy, hadd, hlen, hcy, hval⟩ := add_exact hn hx hy
  rw [hadd]
  constructor
  · rintro ⟨⟩
    exact ⟨hlen, hcy, hval⟩
  · rintro ⟨hlen', -, hval'⟩
    obtain ⟨rfl, rfl⟩ := limbs_and_carry_unique hlen hlen' (hval.trans hval'.symm)
    rfl

/-- Settles O26: `submul` answers its limbs and borrow, and the identity has no other solution. -/
theorem submulHelperIsExact : Obligations.SubmulHelperIsExact := by
  intro x y len mult hn hx hy dst b
  obtain ⟨low, bor, hsub, hlen, hval⟩ := submul_exact mult hn hx hy
  rw [hsub]
  constructor
  · rintro ⟨⟩
    exact ⟨hlen, hval⟩
  · rintro ⟨hlen', hval'⟩
    obtain ⟨rfl, hb⟩ := limbs_and_carry_unique (a := b.toNat) (b := bor.toNat) hlen hlen' (by omega)
    rw [BitVec.eq_of_toNat_eq hb]

/-! ## The branches of a window (R143 to R149) -/

/-- R143, R245: on a window with all its limbs, and a divisor with its top two, the top pairs choose the branch. -/
theorem knuthWindow_eq {w vn : List Limb} {n : Nat} (rcp : Limb) {u2 u1 u0 d1 d0 : Limb} (hn : 3 ≤ n)
    (hu2 : w[n]? = some u2) (hu1 : w[n - 1]? = some u1) (hu0 : w[n - 2]? = some u0) (hd1 : vn[n - 1]? = some d1)
    (hd0 : vn[n - 2]? = some d0) :
    knuthWindow w vn n rcp =
      if u2 = d1 ∧ u1 = d0 then knuthOverflow w vn n u2 else knuthNormal w vn n rcp u2 u1 u0 d1 d0 := by
  simp only [knuthWindow, if_neg (Nat.not_lt.mpr hn), hu2, hu1, hu0, hd1, hd0]

/-- Settles O36: the borrow of `B - 1` divisors is `u2`, so the top limb `u2 - u2` is 0. -/
theorem knuthOverflowBranchIsExact : Obligations.KnuthOverflowBranchIsExact := by
  intro w vn n rcp u2 u1 hn hw _ hd hlt hu2 hu1 hd1 hd0
  obtain ⟨u0, hu0⟩ : ∃ u0, w[n - 2]? = some u0 := ⟨_, List.getElem?_eq_getElem (by omega)⟩
  rw [List.getD_eq_getElem?_getD, hd1] at hd
  obtain ⟨low, hsub, -, hleft, -⟩ := knuthOverflow_exact hn hw hd hlt hu2 hu1 hd1 hd0 ⟨rfl, rfl⟩
  refine ⟨low, u2, hsub, rfl, ?_, by rw [hleft, Nat.add_comm]⟩
  rw [knuthWindow_eq rcp hn hu2 hu1 hu0 hd1 hd0, if_pos ⟨rfl, rfl⟩, knuthOverflow]
  simp only [hsub, BitVec.sub_self, BitVec.ofNat_eq_ofNat]

/-- Settles O37: the pair covers the borrow, or the divisor is added back. -/
theorem knuthNormalBranchFollowsTheListing : Obligations.KnuthNormalBranchFollowsTheListing := by
  intro w vn n rcp u2 u1 u0 d1 d0 qhat rh rl bor low hn hw hv hu2 hu1 hu0 hd1 hd0 hne hdiv hsub
  rw [knuthWindow_eq rcp hn hu2 hu1 hu0 hd1 hd0, if_neg hne]
  constructor
  · intro h
    simpa using knuthNormal_of_le hdiv hsub h
  · have hlow : low.length = n - 2 :=
      ((submulHelperIsExact w vn (n - 2) qhat (by omega) (by omega) (by omega) low bor).mp hsub).1
    exact knuthNormal_of_lt hn hd1 hdiv hsub hlow

/-! ## The estimate (R146, R154) -/

/-- R154 (c): `q`, the quotient of the window's top part by the divisor's top part `P`, is the quotient of the whole or one
more. Normalization enters by `q ≤ P`. -/
theorem estimate_bounds {N P v wl q R : Nat} (hv : v < N) (hwl : wl < N) (hR : R < P) (hq : q ≤ P) :
    (wl + N * (q * P + R)) / (v + N * P) ≤ q ∧ q ≤ (wl + N * (q * P + R)) / (v + N * P) + 1 := by
  have hpos : 0 < v + N * P := Nat.add_pos_right v (Nat.mul_pos (by omega) (by omega))
  constructor
  · refine Nat.le_of_lt_succ (Nat.div_lt_of_lt_mul ?_)
    have hN : N * (R + 1) ≤ N * P := Nat.mul_le_mul_left N hR
    calc wl + N * (q * P + R) < N * (q * P) + N * (R + 1) := by rw [Nat.mul_add, Nat.mul_succ]; omega
      _ ≤ N * (q * P) + N * P + v * (q + 1) := by omega
      _ = (v + N * P) * (q + 1) := by ring
  · rw [← Nat.sub_le_iff_le_add, Nat.le_div_iff_mul_le hpos]
    cases q with
    | zero => simp
    | succ p =>
      have hcover : p * v ≤ P * N := Nat.mul_le_mul (Nat.le_of_succ_le hq) hv.le
      rw [Nat.add_sub_cancel]
      calc p * (v + N * P) = p * v + N * (p * P) := by ring
        _ ≤ wl + (P * N + N * (p * P) + N * R) := by omega
        _ = wl + N * ((p + 1) * P + R) := by ring

/-- Settles O38: the window's top pair is below the divisor's, so the estimate is the exact quotient of the top limbs. -/
theorem knuthEstimateIsAtMostOneTooHigh : Obligations.KnuthEstimateIsAtMostOneTooHigh := by
  intro w vn n rcp u2 u1 u0 d1 d0 hn hw _ hd hlt hu2 hu1 hu0 hd1 hd0 hne
  have hpair : pairVal u2 u1 < pairVal d1 d0 :=
    lt_of_le_of_ne (window_pair_le hn hw hlt hu2 hu1 hd1 hd0) fun h => hne (pairVal_inj h)
  obtain ⟨qhat, rh, rl, hdiv, hest, hrem⟩ := divide3by2_exact (u0 := u0) rcp hd hpair
  refine ⟨qhat, rh, rl, hdiv, ?_⟩
  have hW := val_take_top_triple (by omega) hu2 hu1 hu0
  rw [List.take_of_length_le hw.le, hest] at hW
  have hq : qhat.toNat ≤ pairVal d1 d0 := by
    have := limb_lt qhat
    simp only [pairVal, limbBase] at *; omega
  rw [hW, val_take_top_pair (by omega) hd1 hd0]
  exact estimate_bounds (val_take_lt vn _) (val_take_lt w _) hrem hq

/-! ## One `KNUTH` iteration and the `KNUTH` exit (R143, R150, R153) -/

/-- R189: in `KNUTH` the engine's step is the loop's. -/
theorem engineStep_knuth_eq_next {s t : State} (hp : s.phase = .knuth) :
    engineStep s = .next t ↔ loopStep .knuth knuthIterate knuthExit s = some t := by
  simp only [engineStep, hp, orContract_eq_next]

/-- Settles O39: the iteration is one exact step on its window, written back with its quotient limb. -/
theorem knuthIterationIsExact : Obligations.KnuthIterationIsExact := by
  intro s len j c rcp w hp hl hc hj hrcp hnd hvn hqa hread hd hlt
  have hwlen := readLimbs_length hread
  obtain ⟨hfit, -⟩ := readLimbs_eq_some.mp hread
  rw [List.getD_eq_getElem c.vn 0 (by omega : c.nd - 1 < c.vn.length)] at hd
  obtain ⟨qhat, w', hwindow, hwlen', hdiv, hrem⟩ := knuthWindow_exact hnd hwlen hd hlt
    (List.getElem?_eq_getElem (by omega)) (List.getElem?_eq_getElem (by omega))
    (List.getElem?_eq_getElem (by omega)) (List.getElem?_eq_getElem (by omega)) rcp
  obtain ⟨hquot, hmod⟩ : val w / val (c.vn.take c.nd) = qhat.toNat ∧ val w % val (c.vn.take c.nd) = val (w'.take c.nd) :=
    (Nat.div_mod_unique (Nat.zero_lt_of_lt hrem)).mpr ⟨by rw [hdiv]; ring, hrem⟩
  refine ⟨qhat, w', hwlen', hquot.symm, hmod.symm, (engineStep_knuth_eq_next hp).mpr ?_⟩
  have hit := knuthIterate_eq_some.mpr ⟨w, rcp, qhat, w', _, _, hread, hrcp, hwindow,
    writeLimbs_eq_some.mpr ⟨by rwa [hwlen'], rfl⟩, writeLimb_eq_some.mpr ⟨hqa, rfl⟩, rfl⟩
  rw [hwlen'] at hit
  exact loopStep_eq_some.mpr ⟨len, c, _, hl, hc, .inl ⟨j, hj, hit, by rw [← hp]⟩⟩

/-- Settles O40: the exit is the de-normalizer on the low `n` limbs. -/
theorem knuthExitDenormalizes : Obligations.KnuthExitDenormalizes := by
  intro s len c hp hl hc hj hs hun hlen
  refine ⟨denormalize c.s len (c.un.take c.nd), denormalize_length _ (by simp; omega), val_denormalize (by omega) _ _,
    (engineStep_knuth_eq_next hp).mpr ?_⟩
  exact loopStep_eq_some.mpr ⟨len, c, _, hl, hc, .inr ⟨hj, knuthExit_eq_some.mpr ⟨hun, rfl⟩, rfl⟩⟩

end Sys2Proof.Machine
end

section
/-! SUPPORT. The host's accesses and the command of 45_dispatch_div.md (R180 to R187): what a write to an operand limb, a read
and a DIV do, where a DIV faults, and what it leaves unchanged. -/

namespace Sys2Proof.Machine

/-! ## Host reads (R187) -/

/-- R187: a read of `U` looks at that limb. -/
theorem readWord_u (s : State) (i : Fin limbMax) : s.readWord (0x000 + i.val) = limbOrUninit s.u[i.val] := by
  obtain ⟨hu, -⟩ := addressMapNamesEveryRegister.1 i
  rw [State.readWord, hu]; rfl

/-- R187: a read of `V` looks at that limb. -/
theorem readWord_v (s : State) (i : Fin limbMax) : s.readWord (0x040 + i.val) = limbOrUninit s.v[i.val] := by
  obtain ⟨-, hv, -⟩ := addressMapNamesEveryRegister.1 i
  rw [State.readWord, hv]; rfl

/-- R187: a read of `STATUS` returns the status word. -/
theorem readWord_status (s : State) : s.readWord 0x101 = .ok s.statusWord := rfl

/-- R27, R187: the status word is `BUSY + 2*DONE`. -/
theorem statusWord_toNat (s : State) : s.statusWord.toNat = s.busy.toNat + 2 * s.done.toNat := by
  unfold State.statusWord
  generalize s.busy = b, s.done = d
  revert b d; decide

section
variable {s : State} {a : Nat} {limb : Option Limb} (hread : s.readWord a = limbOrUninit limb)
include hread

/-- R187: the read of a limb that holds a value returns it. -/
theorem hostRead_of_limb_some {x : Limb} (h : limb = some x) : hostRead a s = .next { s with reads := s.reads ++ [x] } :=
  hostRead_eq_next.mpr ⟨x, by rw [hread, h]; rfl, rfl⟩

/-- R244 (a): the read of a limb that holds no value faults. -/
theorem hostRead_of_limb_none (h : limb = none) : hostRead a s = .fault .uninit :=
  hostRead_eq_fault.mpr (by rw [hread, h]; rfl)

end

/-- Settles O8: the address map says which limb is read, and the limb says what is returned. -/
theorem hostReadReturnsTheLimbOrFaults : Obligations.HostReadReturnsTheLimbOrFaults :=
  ⟨fun s => ⟨s.statusWord, statusWord_toNat s, hostRead_eq_next.mpr ⟨_, readWord_status s, rfl⟩⟩,
    fun s i _ => ⟨hostRead_of_limb_some (readWord_u s i), hostRead_of_limb_some (readWord_v s i),
      hostRead_of_limb_some (readWord_q s i), hostRead_of_limb_some (readWord_r s i)⟩,
    fun s i => ⟨hostRead_of_limb_none (readWord_u s i), hostRead_of_limb_none (readWord_v s i),
      hostRead_of_limb_none (readWord_q s i), hostRead_of_limb_none (readWord_r s i)⟩⟩

/-! ## Host writes to operand limbs (R55, R186) -/

/-- R55: a written limb of `U` is read back. -/
theorem readWord_write_u (s : State) (i : Fin limbMax) (x : Limb) :
    { s with u := s.u.write i x }.readWord (0x000 + i.val) = .ok x := by
  rw [readWord_u, bank_write_get, if_pos rfl]; rfl

/-- R55: a written limb of `V` is read back. -/
theorem readWord_write_v (s : State) (i : Fin limbMax) (x : Limb) :
    { s with v := s.v.write i x }.readWord (0x040 + i.val) = .ok x := by
  rw [readWord_v, bank_write_get, if_pos rfl]; rfl

/-- R55: a write to a limb of `U` changes what no other address reads. -/
theorem readWord_write_u_of_ne (s : State) {i : Fin limbMax} (x : Limb) {a : Nat} (ha : a ≠ 0x000 + i.val) :
    { s with u := s.u.write i x }.readWord a = s.readWord a := by
  unfold State.readWord
  cases hreg : regAt a with
  | none => rfl
  | some reg =>
    cases reg with
    | u k =>
      have hk : k ≠ i := by rintro rfl; exact ha ((addr_of_regAt hreg).trans (Nat.zero_add _).symm)
      simp only [bank_write_get, if_neg hk]
    | v k | q k | r k | cmd | status => rfl

/-- R55: a write to a limb of `V` changes what no other address reads. -/
theorem readWord_write_v_of_ne (s : State) {i : Fin limbMax} (x : Limb) {a : Nat} (ha : a ≠ 0x040 + i.val) :
    { s with v := s.v.write i x }.readWord a = s.readWord a := by
  unfold State.readWord
  cases hreg : regAt a with
  | none => rfl
  | some reg =>
    cases reg with
    | v k =>
      have hk : k ≠ i := by rintro rfl; exact ha (addr_of_regAt hreg)
      simp only [bank_write_get, if_neg hk]
    | u k | q k | r k | cmd | status => rfl

/-- Settles O7: the write is an update of one bank, which every address but the limb's own reads as before. -/
theorem operandWriteTakesEffectOnThatLimbOnly : Obligations.OperandWriteTakesEffectOnThatLimbOnly := by
  intro s x i hb
  refine ⟨hostWrite_u hb i x, hostWrite_v hb i x, fun t ht => ?u, fun t ht => ?v⟩
  case u =>
    cases (hostWrite_u hb i x).symm.trans ht
    exact ⟨readWord_write_u s i x, fun a => readWord_write_u_of_ne s x⟩
  case v =>
    cases (hostWrite_v hb i x).symm.trans ht
    exact ⟨readWord_write_v s i x, fun a => readWord_write_v_of_ne s x⟩

/-! ## The command in a step (R61, R180) -/

/-- R61, R180: the host's write to `CMD` is the command write of its word. -/
theorem hostStep_write_cmd (w : Limb) (s : State) : hostStep (.write 0x100 w) s = writeCommand w s := rfl

/-- R180: on a block that is not busy the write of an instruction's word is that instruction. -/
theorem writeCommand_of_decode {w : Limb} {i : Instr} {s : State} (hb : s.busy = false) (hd : decode w = .ok i) :
    writeCommand w s = exec i s := by
  simp only [writeCommand, hb, hd, Bool.false_eq_true, if_false]

/-- R61: a command about to be written is what the next step writes, and then nothing of it is left. -/
theorem step_issueCommand (s : State) (w : Limb) : step (s.issueCommand w) = writeCommand w s := by
  by_cases hp : s.phase = .idle
  · rw [step_of_idle (issueCommand_phase s w ▸ hp) (issueCommand_pending s w), ← hostStep_write_cmd]
    simp only [State.issueCommand, if_pos hp]; rfl
  · rw [step_of_host_turn (issueCommand_phase s w ▸ hp) (issueCommand_pending s w)
      ((issueCommand_turns s w).trans (if_neg hp)), ← hostStep_write_cmd]
    rfl

/-- Settles O15: in each case the schedule gives the host its turn, and its item is the command write. -/
theorem stepRunsTheDecodedCommand : Obligations.StepRunsTheDecodedCommand := by
  refine ⟨fun s w i rest hp hb hq hd => ?_, fun s w rest ts hp hq ht => ?_, fun s nbits w => step_issueCommand s _⟩
  · rw [step_of_idle hp hq, hostStep_write_cmd]
    exact writeCommand_of_decode hb hd
  · rw [step_of_host_turn hp hq ht, hostStep_write_cmd]

/-! ## The DIV command (R180) -/

/-- R180: when a command is accepted, and the state after. -/
theorem exec_eq_next {i : Instr} {s t : State} : exec i s = .next t ↔
    s.busy = false ∧ (∃ us vs, s.numerator i.limbs = some us ∧ s.divisor i.limbs = some vs ∧ val vs ≠ 0) ∧
      t = { s.flagsAccept with lw := some i.limbs, q := Bank.noValue, r := Bank.noValue, phase := .norm } := by
  rw [exec_eq_startDivide, startDivide_eq_next]
  simp only [wf_all_widths, true_and]

/-- Settles O16, by the condition of acceptance. -/
theorem divCommandIsAccepted : Obligations.DivCommandIsAccepted :=
  fun _ _ us vs hb hu hv hz => exec_eq_next.mpr ⟨hb, ⟨us, vs, hu, hv, hz⟩, rfl⟩

/-- R243: a busy block faults before anything else is looked at. -/
theorem exec_of_busy {i : Instr} {s : State} (hb : s.busy = true) : exec i s = .fault .busy := by
  rw [exec_eq_startDivide, startDivide, if_pos hb, raise]

/-- R244 (b): an operand without a value faults. -/
theorem exec_of_operand_none {i : Instr} {s : State} (hb : s.busy = false)
    (h : s.numerator i.limbs = none ∨ s.divisor i.limbs = none) : exec i s = .fault .uninit := by
  rw [exec_eq_startDivide, startDivide, if_neg (by simp [hb]), if_neg (by simp)]
  rcases h with hu | hv
  · simp only [hu, raise]
  · cases hu : s.numerator i.limbs <;> simp only [hv, raise]

/-- R241: a divisor of value zero faults. -/
theorem exec_of_divisor_zero {i : Instr} {s : State} {us vs : List Limb} (hb : s.busy = false)
    (hu : s.numerator i.limbs = some us) (hv : s.divisor i.limbs = some vs) (hz : val vs = 0) :
    exec i s = .fault .divisorZero := by
  rw [exec_eq_startDivide, startDivide, if_neg (by simp [hb]), if_neg (by simp)]
  simp only [hu, hv, hz, if_true, raise]

/-- R21, R244: the low limbs of a bank can be read where each holds its value. -/
theorem readPrefix_of_limbs {b : Bank} {len : Nat} {xs : List Limb} (hlen : xs.length = len) (hmax : len ≤ limbMax)
    (h : ∀ k : Fin limbMax, k.val < len → b[k.val] = xs[k.val]?) : b.readPrefix len = some xs := by
  subst hlen
  refine readPrefix_eq_some.mpr (List.ext_getElem (by simpa using hmax) fun k _ hk => ?_)
  have hk : k < xs.length := by simpa using hk
  simpa [hk] using h ⟨k, hk.trans_le hmax⟩ hk

/-- R21, R244: where every low limb holds a value, they can be read. -/
theorem exists_readPrefix {b : Bank} {len : Nat} (hmax : len ≤ limbMax)
    (h : ∀ k : Fin limbMax, k.val < len → b[k.val].isSome = true) : ∃ xs, b.readPrefix len = some xs := by
  refine ⟨List.ofFn fun k : Fin len => (b[k.val]'(k.isLt.trans_le hmax)).getD 0,
    readPrefix_of_limbs List.length_ofFn hmax fun k hk => ?_⟩
  obtain ⟨x, hx⟩ := Option.isSome_iff_exists.mp (h k hk)
  simp [hk, hx]

/-- Settles O17: the checks of R180 in their order, each on limbs below `L` alone. -/
theorem divFaultsInOrder : Obligations.DivFaultsInOrder := by
  refine fun i s => ⟨exec_of_busy, fun hb ⟨k, hk, hnone⟩ => exec_of_operand_none hb (hnone.imp ?_ ?_), fun hb h => ?_⟩
  · exact readPrefix_of_limb_none hk
  · exact readPrefix_of_limb_none hk
  · obtain ⟨us, hu⟩ := exists_readPrefix (limbs_le_max i) fun k hk => (h k hk).1
    have hv : s.divisor i.limbs = some (List.replicate i.limbs 0) :=
      readPrefix_of_limbs (List.length_replicate ..) (limbs_le_max i) fun k hk => by
        rw [(h k hk).2, List.getElem?_replicate_of_lt hk]
    exact exec_of_divisor_zero hb hu hv (val_replicate_zero _)

/-- Settles O18: an accepted command is one update, which touches none of what the frame names. -/
theorem divCommandFrame : Obligations.DivCommandFrame := by
  intro i s t h
  obtain ⟨-, -, rfl⟩ := exec_eq_next.mp h
  refine ⟨fun a ha => ?operands, fun a hlo hhi => ?results, ?status, rfl, rfl, rfl, rfl⟩
  case operands =>
    rcases regAt_operand ha with ⟨k, hk⟩ | ⟨k, hk⟩ <;> simp only [State.readWord, hk, flagsAccept_u, flagsAccept_v]
  case results =>
    rcases regAt_result hlo hhi with ⟨k, hk⟩ | ⟨k, hk⟩ <;> simp only [State.readWord, hk, noValue_get]
  case status => rw [readWord_status, (statusWord_cases (by simp)).2.mpr rfl]

end Sys2Proof.Machine
end

section
/-! SUPPORT. The engine's steps of 45_dispatch_div.md outside the loops: the dispatch, the de-normalizer, the closed forms
and the commit, and the table of R189. -/

namespace Sys2Proof.Machine

/-! ## The dispatch (R170 to R175) -/

/-- R30: a path's set-up keeps the counts. -/
theorem setUpRoute_counts {us : List Limb} {c0 c : Context} {route : Route} (h : setUpRoute us c0 route = some c) :
    c.nd = c0.nd ∧ c.m = c0.m := by
  cases route with
  | earlyExit | cf42 | cf64 => cases h; exact ⟨rfl, rfl⟩
  | by1 => obtain ⟨-, d, top, -, -, rfl⟩ := by1Setup_eq_some.mp h; exact ⟨rfl, rfl⟩
  | by2 => obtain ⟨-, d1, d0, r1, r0, -, -, -, -, rfl⟩ := by2Setup_eq_some.mp h; exact ⟨rfl, rfl⟩
  | knuth => obtain ⟨-, d1, d0, -, -, rfl⟩ := knuthSetup_eq_some.mp h; exact ⟨rfl, rfl⟩

/-- R189: at `NORM` the engine's step is the normalization's. -/
theorem engineStep_norm_eq_next {s t : State} (hp : s.phase = .norm) :
    engineStep s = .next t ↔ normStep s = some t := by
  simp only [engineStep, hp, orContract_eq_next]

/-- R170: a completed `NORM` step goes on to the phase of the route its counts select. -/
theorem engineStep_norm_dispatches {s t : State} (hp : s.phase = .norm) (h : engineStep s = .next t) :
    ∃ c, t = { s with ctx := some c, phase := (selectRoute c.nd c.m).phase } := by
  obtain ⟨_, us, vs, c, p, -, -, -, hctx, rfl⟩ := normStep_eq_some.mp ((engineStep_norm_eq_next hp).mp h)
  obtain ⟨c0, -, hset, rfl⟩ := normContext_eq_some.mp hctx
  obtain ⟨hnd, hm⟩ := setUpRoute_counts hset
  exact ⟨c, by rw [hnd, hm]⟩

/-- Settles O30: the step completes by the invariant, and each clause is the dispatcher's choice on its counts. -/
theorem normStepFollowsTheDispatch : Obligations.NormStepFollowsTheDispatch := by
  intro s hs hp
  obtain ⟨t, ht, -⟩ := hs.exists_engineStep (by simp [hp])
  obtain ⟨c, rfl⟩ := engineStep_norm_dispatches hp ht
  refine ⟨c, _, ht, fun h => ?exit, fun hn hm => ?by1, fun hn hm => ?cf42, fun hn hm hm4 => ?by2,
    fun hn hm4 hm6 => ?cf64, fun hn hm => ?knuth⟩
  case exit => rw [selectRoute, if_pos h]; rfl
  case by1 => rw [selectRoute, if_neg (by omega), if_pos hn]; rfl
  case cf42 => rw [selectRoute, if_neg (by omega), if_neg (by omega), if_pos hn, if_pos hm]; rfl
  case by2 => rw [selectRoute, if_neg (by omega), if_neg (by omega), if_pos hn, if_neg hm4]; rfl
  case cf64 => rw [selectRoute, if_neg (by omega), if_neg (by omega), if_neg (by omega), if_pos ⟨hn, hm6⟩]; rfl
  case knuth => rw [selectRoute, if_neg (by omega), if_neg (by omega), if_neg (by omega), if_neg (by omega)]; rfl

/-! ## The de-normalizer (R176) -/

/-- R176: below the top, a limb of the right shift takes its high bits from the limb above. -/
theorem getD_shiftRightLimbs (s : Nat) (xs : List Limb) {i : Nat} (hi : i + 1 < xs.length) :
    (shiftRightLimbs s xs).getD i 0 = (xs.getD i 0 >>> s) + (xs.getD (i + 1) 0 <<< (64 - s)) := by
  induction xs generalizing i with
  | nil => cases hi
  | cons x xs ih =>
    cases xs with
    | nil => simp at hi
    | cons y ys =>
      cases i with
      | zero => rfl
      | succ i => exact ih (Nat.lt_of_succ_lt_succ hi)

/-- R176: nothing enters the right shift at the top. -/
theorem getD_shiftRightLimbs_top (s : Nat) (xs : List Limb) :
    (shiftRightLimbs s xs).getD (xs.length - 1) 0 = xs.getD (xs.length - 1) 0 >>> s := by
  induction xs with
  | nil => simp [shiftRightLimbs]
  | cons x xs ih =>
    cases xs with
    | nil => rfl
    | cons y ys => exact ih

/-- R10: zeros extend an array, so reading with 0 for a missing limb sees no difference. -/
theorem getD_padLimbs (len : Nat) (xs : List Limb) (i : Nat) : (padLimbs len xs).getD i 0 = xs.getD i 0 := by
  by_cases hi : i < xs.length
  · exact List.getD_append _ _ _ _ hi
  · rw [padLimbs, List.getD_append_right _ _ _ _ (Nat.le_of_not_lt hi), List.getD_eq_default xs 0 (Nat.le_of_not_lt hi)]
    by_cases hr : i - xs.length < len - xs.length <;> simp [List.getD_eq_getElem?_getD, hr]

/-- Settles O41: the padding changes no limb, and below it stand the copy or the shifted limbs. -/
theorem denormalizerShiftsBack : Obligations.DenormalizerShiftsBack := by
  intro x s len _ hlen hs
  refine ⟨denormalize_length s hlen, val_denormalize (hs.trans (by decide)) len x, fun i hi => ?above, fun h0 i _ => ?copy,
    fun hpos => ⟨fun i hi => ?below, ?top⟩⟩
  all_goals rw [denormalize, getD_padLimbs]
  case above => exact List.getD_eq_default _ _ (by split <;> simpa using hi)
  case copy => rw [if_pos h0]
  case below => rw [if_neg hpos.ne', getD_shiftRightLimbs s x hi]
  case top => rw [if_neg hpos.ne', getD_shiftRightLimbs_top]

/-! ## The closed forms (R177) -/

/-- R177: a two-limb quotient written to the bottom of `QA`, limb by limb. -/
theorem limbsOf_two_append_drop {xs : List Limb} (h : 2 ≤ xs.length) (x : Nat) :
    limbsOf 2 x ++ xs.drop 2 = (xs.set 0 (lo64 x)).set 1 (hi64 x) := by
  match xs, h with
  | _ :: _ :: _, _ => rfl

/-- R177: the step of a closed-form phase whose routine leaves the exact two-limb quotient of `a` by `d` at the bottom of
`QA` and the `k`-limb remainder, shifted back, in `RA`. -/
theorem routineStep_of_closedForm {routine : Nat → Context → Option Context} {s : State} {len k a d : Nat} {c : Context}
    (hl : s.lw = some len) (hc : s.ctx = some c) (hqa : 2 ≤ c.qa.length) (hk : k ≤ len) (hs : c.s ≤ 63)
    (ha : a < d * limbBase ^ 2) (hd : d < limbBase ^ k)
    (h : routine len c = some { c with
      qa := limbsOf 2 (a / d) ++ c.qa.drop 2, ra := denormalize c.s len (limbsOf k (a % d)) }) :
    ∃ (q0 q1 : Limb) (ra : List Limb), pairVal q1 q0 = a / d ∧ ra.length = len ∧ val ra = a % d / 2 ^ c.s ∧
      orContract (routineStep routine s) = .next { s with
        phase := .commit, ctx := some { c with qa := (c.qa.set 0 q0).set 1 q1, ra := ra } } := by
  have hrem : a % d < limbBase ^ k := (Nat.mod_lt a (Nat.pos_of_mul_pos_right (Nat.zero_lt_of_lt ha))).trans hd
  rw [limbsOf_two_append_drop hqa] at h
  refine ⟨lo64 (a / d), hi64 (a / d), denormalize c.s len (limbsOf k (a % d)), pairVal_hi_lo (Nat.div_lt_of_lt_mul ha),
    denormalize_length _ (by rwa [limbsOf_length]), ?_, ?_⟩
  · rw [val_denormalize (hs.trans (by decide)), val_limbsOf_of_lt hrem]
  · exact orContract_eq_next.mpr (routineStep_eq_some.mpr ⟨len, c, _, hl, hc, h, rfl⟩)

/-- Settles O42: the 4-by-2 routine's contract is met. -/
theorem cf42StepIsExact : Obligations.Cf42StepIsExact := by
  intro s len c d1 d0 hp hl hc hun hqa hlen hs hd1 hd0 hnorm hlt
  rw [engineStep, hp]
  exact routineStep_of_closedForm hl hc hqa hlen hs hlt (pairVal_lt d1 d0)
    (cf42_of_contract hun hqa hd1 hd0 hnorm hlt)

/-- Settles O43: the 6-by-4 routine's contract is met, as `m - 4` is at most 2. -/
theorem cf64StepIsExact : Obligations.Cf64StepIsExact := by
  intro s len c d3 hp hl hc _ hm6 hun hvn hqa hlen hs hd3 hnorm hlt
  have hlt2 : val (c.un.take c.m) < val (c.vn.take 4) * limbBase ^ 2 :=
    hlt.trans_le (Nat.mul_le_mul_left _ (Nat.pow_le_pow_right limbBase_pos (by omega)))
  rw [engineStep, hp]
  exact routineStep_of_closedForm hl hc hqa hlen hs hlt2 (val_take_lt c.vn 4)
    (cf64_of_contract hm6 hun hvn hqa hd3 hnorm hlt2)

/-! ## The commit (R178, R179) -/

/-- R217: reading all limbs of an array. -/
theorem readLimbs_all {xs : List Limb} {len : Nat} (h : xs.length = len) : readLimbs xs 0 len = some xs :=
  readLimbs_eq_some.mpr ⟨by omega, by rw [List.drop_zero, List.take_of_length_le h.le]⟩

/-- R178: the commit of a call whose results have the call's `L` limbs. -/
theorem engineStep_of_commit {s : State} {len : Nat} {c : Context} (hp : s.phase = .commit) (hl : s.lw = some len)
    (hc : s.ctx = some c) (hqa : c.qa.length = len) (hra : c.ra.length = len) :
    engineStep s = .next { s.flagsCommit with
      q := s.q.writePrefix c.qa, r := s.r.writePrefix c.ra, phase := .idle, lw := none, ctx := none } := by
  simp only [engineStep, hp, orContract_eq_next]
  exact commitStep_eq_some.mpr ⟨len, c, c.qa, c.ra, hl, hc, readLimbs_all hqa, readLimbs_all hra, rfl⟩

/-- R178: the limbs written to the bottom of a bank, and the limbs above, which keep what they hold. -/
theorem writePrefix_limb (b : Bank) (xs : List Limb) (k : Fin limbMax) :
    (k.val < xs.length → (b.writePrefix xs)[k.val] = some (xs.getD k.val 0)) ∧
    (xs.length ≤ k.val → (b.writePrefix xs)[k.val] = b[k.val]) := by
  rw [writePrefix_get]
  refine ⟨fun h => ?_, fun h => by rw [List.getElem?_eq_none h, Option.none_or]⟩
  rw [List.getElem?_eq_getElem h, List.getD_eq_getElem xs 0 h, Option.some_or]

/-- Settles O44: the commit is one update, which writes each bank's limbs below `L`. -/
theorem commitWritesBothResultsAtOnce : Obligations.CommitWritesBothResultsAtOnce := by
  intro s len c hp hl hc hqa hra _
  refine ⟨_, engineStep_of_commit hp hl hc hqa hra, fun k => ?_, rfl⟩
  obtain ⟨hq, hq'⟩ := writePrefix_limb s.q c.qa k
  obtain ⟨hr, hr'⟩ := writePrefix_limb s.r c.ra k
  rw [hqa] at hq hq'
  rw [hra] at hr hr'
  exact ⟨fun h => ⟨hq h, hr h⟩, fun h => ⟨hq' h, hr' h⟩⟩

/-- R179: the commit of a call leaves the quotient and the remainder of the call's operands, and nothing else in `Q` and
`R`. -/
theorem State.Inv.commit_delivers {s : State} (h : s.Inv) (hp : s.phase = .commit) {i : Instr} {us vs : List Limb}
    (hl : s.lw = some i.limbs) (hu : s.numerator i.limbs = some us) (hv : s.divisor i.limbs = some vs) :
    ∃ qs rs : List Limb, qs.length = i.limbs ∧ rs.length = i.limbs ∧
      val qs = val us / val vs ∧ val rs = val us % val vs ∧
      engineStep s = .next { s.flagsCommit with
        q := Bank.noValue.writePrefix qs, r := Bank.noValue.writePrefix rs, phase := .idle, lw := none, ctx := none } := by
  have hbusy : s.busy = true := h.busy_iff.mpr (by simp [hp])
  obtain ⟨hq, hr⟩ := h.no_results (by simpa [hbusy] using h.not_both)
  obtain ⟨i', us', vs', hl', hu', hv', -, ⟨hn, -⟩ | ⟨c0, c, hc, hsame, hcommit⟩⟩ := h.call (by simp [hp])
  · simp [hp] at hn
  have hi : i'.limbs = i.limbs := Option.some.inj (hl'.symm.trans hl)
  rw [hi] at hu' hv'
  obtain rfl : us' = us := Option.some.inj (hu'.symm.trans hu)
  obtain rfl : vs' = vs := Option.some.inj (hv'.symm.trans hv)
  have hus : us'.length = i.limbs := readPrefix_length hu (limbs_le_max i)
  rw [hp] at hcommit
  obtain ⟨hquot, hrem⟩ := hcommit
  have hqa := hsame.qa_length.trans hus
  have hra := hsame.ra_length.trans hus
  exact ⟨c.qa, c.ra, hqa, hra, hquot, hrem, by rw [engineStep_of_commit hp hl hc hqa hra, hq, hr]⟩

/-- R178, R187: what a commit wrote is what is read back. -/
theorem readPrefix_noValue_writePrefix {xs : List Limb} {i : Instr} (h : xs.length = i.limbs) :
    (Bank.noValue.writePrefix xs).readPrefix i.limbs = some xs :=
  h ▸ readPrefix_writePrefix Bank.noValue xs (h ▸ limbs_le_max i)

/-- Settles O45: the invariant at `COMMIT` says what is delivered. -/
theorem commitDeliversQuotientAndRemainder : Obligations.CommitDeliversQuotientAndRemainder := by
  intro s hs hp
  obtain ⟨i, us, vs, hl, hu, hv, hz, -⟩ := hs.call (by simp [hp])
  obtain ⟨qs, rs, hqs, hrs, hquot, hrem, hstep⟩ := hs.commit_delivers hp hl hu hv
  exact ⟨i, us, vs, qs, rs, _, hl, hu, hv, hz, hstep, readPrefix_noValue_writePrefix hqs,
    readPrefix_noValue_writePrefix hrs, hquot, hrem⟩

/-! ## The rows of R189 -/

/-- R25, R189: a loop phase stays while `J >= 0` and leaves for the commit at `J = -1`. -/
theorem loopStep_row {p : Phase} {iterate : Context → Nat → Option Context} {exit : Nat → Context → Option Context}
    {s t : State} (h : loopStep p iterate exit s = some t) :
    ∃ (c : Context) (j : Int), s.ctx = some c ∧ c.j = some j ∧ -1 ≤ j ∧ (0 ≤ j → t.phase = p) ∧
      (j = -1 → t.phase = .commit) := by
  obtain ⟨_, c, c', -, hc, ⟨j, hj, -, rfl⟩ | ⟨hj, -, rfl⟩⟩ := loopStep_eq_some.mp h
  · exact ⟨c, j, hc, hj, by omega, fun _ => rfl, by omega⟩
  · exact ⟨c, -1, hc, hj, le_rfl, by omega, fun _ => rfl⟩

/-- R177, R189: a closed-form phase leaves for the commit. -/
theorem routineStep_row {routine : Nat → Context → Option Context} {s t : State} (h : routineStep routine s = some t) :
    t.phase = .commit := by
  obtain ⟨_, _, c', -, -, -, rfl⟩ := routineStep_eq_some.mp h
  rfl

/-- Settles O46: the step completes by the invariant, and its phase's row says where it leads. -/
theorem engineTakesItsTableRow : Obligations.EngineTakesItsTableRow := by
  intro s hs hp
  obtain ⟨t, ht, -⟩ := hs.exists_engineStep hp
  refine ⟨t, ht, ?_⟩
  rcases engineStep_next ht with ⟨hph, -⟩ | ⟨hph, -⟩ | ⟨hph, h⟩ | ⟨hph, h⟩ | ⟨hph, h⟩ | ⟨hph, h⟩ | ⟨hph, h⟩ | ⟨hph, h⟩
  · exact absurd hph hp
  · simp [hph]
  · simpa [hph] using loopStep_row h
  · simpa [hph] using loopStep_row h
  · simpa [hph] using routineStep_row h
  · simpa [hph] using routineStep_row h
  · simpa [hph] using loopStep_row h
  · obtain ⟨q, r, rfl⟩ := commitStep_update h
    simp [hph]

end Sys2Proof.Machine
end

section
/-! SUPPORT. Whole calls: the rows left, the run to the commit, and the statements of 45_dispatch_div.md on the result of a
call and on what it depends on. -/

namespace Sys2Proof.Machine

/-! ## The rows left in a call (R189, R276) -/

/-- R276: in a loop phase with index `J` the iterations `J .. 0`, the exit and the commit are left. -/
theorem rowsLeft_of_loop {s : State} {c : Context} {j : Int} (hp : s.phase = .by1 ∨ s.phase = .by2 ∨ s.phase = .knuth)
    (hc : s.ctx = some c) (hj : c.j = some j) : s.rowsLeft = (j + 3).toNat := by
  rcases hp with hp | hp | hp <;> simp only [State.rowsLeft, hp, hc, State.rowsLeft.loopRowsLeft, hj]

/-- R276: at `NORM` all the rows of the call are left. -/
theorem rowsLeft_of_norm {s : State} {len : Nat} {us vs : List Limb} {c : Context} (hp : s.phase = .norm)
    (hl : s.lw = some len) (hu : s.numerator len = some us) (hv : s.divisor len = some vs)
    (hbuilt : normalize us vs = some c) : s.rowsLeft = callSteps c.nd c.m := by
  simp only [State.rowsLeft, hp, hl, hu, hv, hbuilt]

/-- R276: at the commit one row is left. -/
theorem rowsLeft_of_commit {s : State} (hp : s.phase = .commit) : s.rowsLeft = 1 := by
  simp only [State.rowsLeft, hp]

/-- R276: on each route the `NORM` step is one row, and its set-up leaves the others. -/
theorem rowsLeft_of_setUpRoute {s : State} {us : List Limb} {c0 c : Context}
    (h : setUpRoute us c0 (selectRoute c0.nd c0.m) = some c) :
    { s with ctx := some c, phase := (selectRoute c0.nd c0.m).phase }.rowsLeft + 1 = callSteps c0.nd c0.m := by
  rw [callSteps]
  generalize selectRoute c0.nd c0.m = route at h
  cases route with
  | earlyExit | cf42 | cf64 => rfl
  | by1 =>
    obtain ⟨hm, d, top, -, -, rfl⟩ := by1Setup_eq_some.mp h
    change _ = c0.m + 2
    rw [rowsLeft_of_loop (.inl rfl) rfl rfl]; omega
  | by2 =>
    obtain ⟨hm, d1, d0, r1, r0, -, -, -, -, rfl⟩ := by2Setup_eq_some.mp h
    change _ = c0.m + 1
    rw [rowsLeft_of_loop (.inr (.inl rfl)) rfl rfl]; omega
  | knuth =>
    obtain ⟨⟨-, hm⟩, d1, d0, -, -, rfl⟩ := knuthSetup_eq_some.mp h
    change _ = c0.m - c0.nd + 3
    rw [rowsLeft_of_loop (.inr (.inr rfl)) rfl rfl]; omega

/-- R276: the `NORM` step is one row. -/
theorem normStep_takes_one_row {s t : State} (hp : s.phase = .norm) (h : normStep s = some t) :
    t.rowsLeft + 1 = s.rowsLeft := by
  obtain ⟨_, us, vs, c, p, hl, hu, hv, hctx, rfl⟩ := normStep_eq_some.mp h
  obtain ⟨c0, hbuilt, hset, rfl⟩ := normContext_eq_some.mp hctx
  rw [rowsLeft_of_norm hp hl hu hv hbuilt, rowsLeft_of_setUpRoute hset]

/-- R276: an iteration takes `J` down by one, and the exit leaves the commit alone. -/
theorem loopStep_takes_one_row {p : Phase} {iterate : Context → Nat → Option Context}
    {exit : Nat → Context → Option Context} {s t : State} (hloop : p = .by1 ∨ p = .by2 ∨ p = .knuth)
    (hp : s.phase = p)
    (hiterate : ∀ {c c' : Context} {j : Nat}, iterate c j = some c' → c'.j = some ((j : Int) - 1))
    (h : loopStep p iterate exit s = some t) : t.rowsLeft + 1 = s.rowsLeft := by
  obtain ⟨_, c, c', -, hc, ⟨j, hj, hit, rfl⟩ | ⟨hj, -, rfl⟩⟩ := loopStep_eq_some.mp h
  · rw [rowsLeft_of_loop (hp ▸ hloop) hc hj, rowsLeft_of_loop hloop rfl (hiterate hit)]; omega
  · rw [rowsLeft_of_loop (hp ▸ hloop) hc hj, rowsLeft_of_commit rfl]; rfl

/-- R122: an iteration's next index. -/
theorem by1Iterate_j {c c' : Context} {j : Nat} (h : by1Iterate c j = some c') : c'.j = some ((j : Int) - 1) := by
  obtain ⟨_, _, _, _, _, _, -, -, -, -, -, rfl⟩ := by1Iterate_eq_some.mp h
  rfl

/-- R132: an iteration's next index. -/
theorem by2Iterate_j {c c' : Context} {j : Nat} (h : by2Iterate c j = some c') : c'.j = some ((j : Int) - 1) := by
  obtain ⟨_, _, _, _, _, _, _, _, _, -, -, -, -, -, -, -, rfl⟩ := by2Iterate_eq_some.mp h
  rfl

/-- R150: an iteration's next index. -/
theorem knuthIterate_j {c c' : Context} {j : Nat} (h : knuthIterate c j = some c') : c'.j = some ((j : Int) - 1) := by
  obtain ⟨_, _, _, _, _, _, -, -, -, -, -, rfl⟩ := knuthIterate_eq_some.mp h
  rfl

/-- R189, R276: in a call every engine step is one row. -/
theorem engineStep_takes_one_row {s t : State} (hp : s.phase ≠ .idle) (h : engineStep s = .next t) :
    t.rowsLeft + 1 = s.rowsLeft := by
  rcases engineStep_next h with ⟨hph, -⟩ | ⟨hph, h⟩ | ⟨hph, h⟩ | ⟨hph, h⟩ | ⟨hph, h⟩ | ⟨hph, h⟩ | ⟨hph, h⟩ | ⟨hph, h⟩
  · exact absurd hph hp
  · exact normStep_takes_one_row hph h
  · exact loopStep_takes_one_row (.inl rfl) hph by1Iterate_j h
  · exact loopStep_takes_one_row (.inr (.inl rfl)) hph by2Iterate_j h
  · rw [rowsLeft_of_commit (routineStep_row h)]; simp only [State.rowsLeft, hph]
  · rw [rowsLeft_of_commit (routineStep_row h)]; simp only [State.rowsLeft, hph]
  · exact loopStep_takes_one_row (.inr (.inr rfl)) hph knuthIterate_j h
  · obtain ⟨q, r, rfl⟩ := commitStep_update h
    rw [rowsLeft_of_commit hph]; rfl

/-- R276: on every path the steps of a call are at most `m + 2`. -/
theorem callSteps_le {n : Nat} (hn : 1 ≤ n) (m : Nat) : callSteps n m ≤ m + 2 := by
  rcases selectRoute_cases (m := m) hn with ⟨hr, -⟩ | ⟨hr, -⟩ | ⟨hr, -⟩ | ⟨hr, -, hm⟩ | ⟨hr, -, hm, -⟩ | ⟨hr, -, hm, -⟩
  all_goals rw [callSteps, hr] <;> dsimp only <;> omega

/-- R105, R276: a call of `L` limbs at `NORM` has at most `L + 3` rows left. -/
theorem rowsLeft_of_norm_le {s : State} {i : Instr} {us vs : List Limb} (hp : s.phase = .norm)
    (hl : s.lw = some i.limbs) (hu : s.numerator i.limbs = some us) (hv : s.divisor i.limbs = some vs)
    (hz : val vs ≠ 0) : s.rowsLeft ≤ i.limbs + 3 := by
  obtain ⟨c, hbuilt⟩ := exists_normalize us hz
  obtain ⟨-, -, hm, hn, -⟩ := normalize_ranges hbuilt
  rw [readPrefix_length hu (limbs_le_max i)] at hm
  rw [rowsLeft_of_norm hp hl hu hv hbuilt]
  exact (callSteps_le hn c.m).trans (Nat.add_le_add_right hm 2)

/-! ## Runs (R58) -/

/-- A run's first step and the rest of it. -/
theorem run_succ_eq_next {M : Host.Core} {s u : M.State} {k : Nat} :
    M.run (k + 1) s = .next u ↔ ∃ t, M.step s = .next t ∧ M.run k t = .next u := by
  cases hstep : M.step s <;> simp [Host.Core.run, hstep]

/-- A run can be cut in two. -/
theorem run_add {M : Host.Core} {s t : M.State} {k : Nat} (h : M.run k s = .next t) (n : Nat) :
    M.run (k + n) s = M.run n t := by
  induction k generalizing s with
  | zero => cases h; rw [Nat.zero_add]
  | succ k ih =>
    obtain ⟨t', hstep, hrest⟩ := run_succ_eq_next.mp h
    rw [Nat.add_right_comm, run_succ_of_next hstep, ih hrest]

/-- A run of one step is the step. -/
theorem run_one_of_next {M : Host.Core} {s t : M.State} (h : M.step s = .next t) : M.run 1 s = .next t :=
  run_succ_of_next h 0

/-- R189, R277: with nothing pending from the host, a call runs to its commit, which is its last row. -/
theorem State.Inv.run_to_commit {s : State} (h : s.Inv) (hp : s.phase ≠ .idle) (hq : s.pending = []) :
    ∃ k c, k + 1 = s.rowsLeft ∧ Sys2Proof.core.run k s = .next { s with ctx := c, phase := .commit } ∧
      { s with ctx := c, phase := .commit }.Inv := by
  by_cases hcommit : s.phase = .commit
  · have hs : s = { s with ctx := s.ctx, phase := .commit } := by rw [← hcommit]
    exact ⟨0, s.ctx, (rowsLeft_of_commit hcommit).symm, congrArg _ hs, hs ▸ h⟩
  obtain ⟨t, hstep, ht⟩ := h.exists_engineStep hp
  have hrow := engineStep_takes_one_row hp hstep
  obtain ⟨-, c, p, rfl⟩ := (engineStep_update hstep).resolve_right fun hc => hcommit hc.1
  obtain ⟨k, c', hk, hrun, hinv⟩ := ht.run_to_commit (ht.busy_iff.mp (h.busy_iff.mpr hp)) hq
  exact ⟨k + 1, c', by omega,
    (run_succ_of_next (M := Sys2Proof.core) ((step_of_busy_alone hp hq).trans hstep) k).trans hrun, hinv⟩
termination_by s.rowsLeft
decreasing_by omega

/-! ## The result of a call (R179, R190) -/

/-- Settles O58: the accepted command meets the invariant, the call runs to its commit, and the commit delivers. -/
theorem divisionComputesQuotientAndRemainder : Obligations.DivisionComputesQuotientAndRemainder := by
  intro i s us vs hs hb hu hv hz
  have hexec := divCommandIsAccepted i { s with pending := [] } us vs hb hu hv hz
  have hcall := (hs.withEnvironment [] s.turns s.reads).of_exec hexec
  obtain ⟨k, c, hk, hrun, hcommit⟩ := hcall.run_to_commit (by simp) rfl
  obtain ⟨qs, rs, hqs, hrs, hquot, hrem, hlast⟩ := hcommit.commit_delivers rfl rfl hu hv
  have hend := (run_add hrun 1).trans
    (run_one_of_next (M := Sys2Proof.core) ((step_of_busy_alone (by simp) rfl).trans hlast))
  refine ⟨_, _, k + 1, qs, rs, hexec, hk.trans_le (rowsLeft_of_norm_le rfl rfl hu hv hz), hend, rfl, rfl, rfl,
    readPrefix_noValue_writePrefix hqs, readPrefix_noValue_writePrefix hrs, hquot, hrem,
    ?identity, ?below, ?holdsQ, ?holdsR, rfl, rfl, rfl⟩
  case identity => rw [hquot, hrem, Nat.div_add_mod']
  case below => rw [hrem]; exact Nat.mod_lt _ (Nat.pos_of_ne_zero hz)
  case holdsQ => rw [← hqs]; exact noValue_writePrefix_holdsExactly qs
  case holdsR => rw [← hrs]; exact noValue_writePrefix_holdsExactly rs

/-! ## What a call depends on (R188 (i)) -/

/-- `s` with the operand banks of another block, and its environment but for the accesses still to come. -/
def State.withBanksOf (s o : State) : State := { s with u := o.u, v := o.v, turns := o.turns, reads := o.reads }

/-- R71: the operand limbs a call uses are the same in another block. -/
def State.SharesOperandsWith (s o : State) : Prop :=
  ∀ len, s.lw = some len → o.numerator len = s.numerator len ∧ o.divisor len = s.divisor len

@[simp] theorem withBanksOf_phase (s o : State) : (s.withBanksOf o).phase = s.phase := rfl
@[simp] theorem withBanksOf_pending (s o : State) : (s.withBanksOf o).pending = s.pending := rfl

/-- R108, R188 (i): of the operand banks the `NORM` step reads the call's limbs alone. -/
theorem normStep_withBanksOf {s t o : State} (hshare : s.SharesOperandsWith o) (h : normStep s = some t) :
    normStep (s.withBanksOf o) = some (t.withBanksOf o) := by
  obtain ⟨len, us, vs, c, p, hl, hu, hv, hctx, rfl⟩ := normStep_eq_some.mp h
  obtain ⟨hou, hov⟩ := hshare len hl
  exact normStep_eq_some.mpr ⟨len, us, vs, c, p, hl, hou.trans hu, hov.trans hv, hctx, rfl⟩

/-- R188 (i): a loop phase's step reads no operand bank. -/
theorem loopStep_withBanksOf {p : Phase} {iterate : Context → Nat → Option Context}
    {exit : Nat → Context → Option Context} {s t : State} (o : State) (h : loopStep p iterate exit s = some t) :
    loopStep p iterate exit (s.withBanksOf o) = some (t.withBanksOf o) := by
  obtain ⟨len, c, c', hl, hc, ⟨j, hj, hit, rfl⟩ | ⟨hj, hex, rfl⟩⟩ := loopStep_eq_some.mp h
  · exact loopStep_eq_some.mpr ⟨len, c, c', hl, hc, .inl ⟨j, hj, hit, rfl⟩⟩
  · exact loopStep_eq_some.mpr ⟨len, c, c', hl, hc, .inr ⟨hj, hex, rfl⟩⟩

/-- R188 (i): a closed-form phase's step reads no operand bank. -/
theorem routineStep_withBanksOf {routine : Nat → Context → Option Context} {s t : State} (o : State)
    (h : routineStep routine s = some t) : routineStep routine (s.withBanksOf o) = some (t.withBanksOf o) := by
  obtain ⟨len, c, c', hl, hc, hr, rfl⟩ := routineStep_eq_some.mp h
  exact routineStep_eq_some.mpr ⟨len, c, c', hl, hc, hr, rfl⟩

/-- R188 (i): the commit reads no operand bank. -/
theorem commitStep_withBanksOf {s t : State} (o : State) (h : commitStep s = some t) :
    commitStep (s.withBanksOf o) = some (t.withBanksOf o) := by
  obtain ⟨len, c, qa, ra, hl, hc, hqa, hra, rfl⟩ := commitStep_eq_some.mp h
  exact commitStep_eq_some.mpr ⟨len, c, qa, ra, hl, hc, hqa, hra, rfl⟩

/-- R188 (i), R189: an engine step reads nothing of the operand banks but the call's limbs. -/
theorem engineStep_withBanksOf {s t o : State} (hshare : s.SharesOperandsWith o) (h : engineStep s = .next t) :
    engineStep (s.withBanksOf o) = .next (t.withBanksOf o) := by
  cases hp : s.phase <;> simp only [engineStep, withBanksOf_phase, hp, orContract_eq_next] at h ⊢
  case idle => cases h; rfl
  case norm => exact normStep_withBanksOf hshare h
  case by1 => exact loopStep_withBanksOf o h
  case by2 => exact loopStep_withBanksOf o h
  case cf42 => exact routineStep_withBanksOf o h
  case cf64 => exact routineStep_withBanksOf o h
  case knuth => exact loopStep_withBanksOf o h
  case commit => exact commitStep_withBanksOf o h

/-- R22, R30: an engine step leaves the operand limbs of the call, or ends the call. -/
theorem State.SharesOperandsWith.of_engineStep {s t o : State} (hshare : s.SharesOperandsWith o)
    (h : engineStep s = .next t) : t.SharesOperandsWith o := by
  rcases engineStep_update h with ⟨-, c, p, rfl⟩ | ⟨-, q, r, rfl⟩
  · exact hshare
  · exact fun _ hl => nomatch hl

/-- A block whose host has nothing to do steps as its engine does, which at `IDLE` does nothing. -/
theorem step_eq_engineStep {s : State} (hq : s.pending = []) : step s = engineStep s := by
  by_cases hp : s.phase = .idle
  · rw [step_of_ended hp hq, engineStep, hp]
  · exact step_of_busy_alone hp hq

/-- R188 (i): runs of blocks that differ only in what a call does not use are in lockstep. -/
theorem run_withBanksOf {s t o : State} {k : Nat} (hq : s.pending = []) (hshare : s.SharesOperandsWith o)
    (h : Sys2Proof.core.run k s = .next t) : Sys2Proof.core.run k (s.withBanksOf o) = .next (t.withBanksOf o) := by
  induction k generalizing s with
  | zero => cases h; rfl
  | succ k ih =>
    obtain ⟨t', hstep, hrest⟩ := run_succ_eq_next.mp h
    rw [show Sys2Proof.core.step s = engineStep s from step_eq_engineStep hq] at hstep
    obtain ⟨⟨-, -, hq', -⟩, -⟩ := engineStepFrame s t' hstep
    exact run_succ_eq_next.mpr ⟨t'.withBanksOf o,
      (step_eq_engineStep (s := s.withBanksOf o) hq).trans (engineStep_withBanksOf hshare hstep),
      ih (hq'.trans hq) (hshare.of_engineStep hstep) hrest⟩

/-- Settles O59: the second call is the first with other banks, and so is its run. -/
theorem resultDependsOnOperandsAlone : Obligations.ResultDependsOnOperandsAlone := by
  intro i s1 s2 t1 t2 u1 u2 k h1 h2 hu hv he1 he2 hr1 hr2
  obtain ⟨hb1, -, rfl⟩ := exec_eq_next.mp he1
  obtain ⟨hb2, -, rfl⟩ := exec_eq_next.mp he2
  have hctx : s1.ctx = s2.ctx :=
    (h1.no_context (h1.idle_of_not_busy hb1)).2.trans (h2.no_context (h2.idle_of_not_busy hb2)).2.symm
  have hrun := run_withBanksOf (o := s2) rfl (fun _ hl => by cases hl; exact ⟨hu.symm, hv.symm⟩) hr1
  obtain rfl : u2 = u1.withBanksOf s2 := by
    rw [State.withBanksOf, State.flagsAccept, hctx] at hrun
    exact Host.Outcome.next.inj (hr2.symm.trans hrun)
  exact ⟨rfl, rfl, rfl, rfl, rfl, rfl⟩

end Sys2Proof.Machine
end

section
/-! SUPPORT. The leading-zero count and the division units of 46_primitives.md, each determined by its contract (R210, R212,
R214). -/

namespace Sys2Proof.Machine

theorem leadingZeroCount_eq_sub_log2 {x : Limb} (h : x ≠ 0) : leadingZeroCount x = 63 - Nat.log2 x.toNat :=
  if_neg h

/-- Settles O19: the count is 63 less the binary logarithm, which is fixed by the powers of two around the limb. -/
theorem leadingZeroCountIsExact : Obligations.LeadingZeroCountIsExact := by
  refine ⟨rfl, fun x z hx => ?_⟩
  have hx0 : x.toNat ≠ 0 := fun e => hx (BitVec.eq_of_toNat_eq (by simpa using e))
  have hlog : Nat.log2 x.toNat < 64 := (Nat.log2_lt hx0).mpr x.isLt
  calc leadingZeroCount x = z
    _ ↔ z ≤ 63 ∧ Nat.log2 x.toNat = 63 - z := by rw [leadingZeroCount_eq_sub_log2 hx]; omega
    _ ↔ _ := by
      refine and_congr_right fun hz => ?_
      rw [Nat.log2_eq_iff hx0, show 64 - z = 63 - z + 1 by omega]

/-- R212, R214: a quotient and a remainder below the divisor are fixed by the number they divide. -/
theorem quotient_remainder_unique {a d q r q' r' : Nat} (h : a = q * d + r) (hr : r < d) (h' : a = q' * d + r')
    (hr' : r' < d) : q = q' ∧ r = r' := by
  have hdm {q r : Nat} (h : a = q * d + r) (hr : r < d) : a / d = q ∧ a % d = r :=
    (Nat.div_mod_unique (Nat.zero_lt_of_lt hr)).mpr ⟨by rw [h]; ring, hr⟩
  obtain ⟨rfl, rfl⟩ := hdm h hr
  exact hdm h' hr'

/-- R212: within the precondition the unit answers exactly the quotient limb and the remainder limb. -/
theorem divide2by1_eq_some_iff {u1 u0 d q r : Limb} (rcp : Limb) (hd : 2 ^ 63 ≤ d.toNat) (hu : u1.toNat < d.toNat) :
    divide2by1 u1 u0 d rcp = some (q, r) ↔ pairVal u1 u0 = q.toNat * d.toNat + r.toNat ∧ r.toNat < d.toNat := by
  obtain ⟨q', r', hdiv, hval, hr⟩ := divide2by1_exact (u0 := u0) rcp hd hu
  rw [hdiv, Option.some.injEq, Prod.mk.injEq]
  constructor
  · rintro ⟨rfl, rfl⟩; exact ⟨hval, hr⟩
  · rintro ⟨hval', hr'⟩
    obtain ⟨hq, hr⟩ := quotient_remainder_unique hval hr hval' hr'
    exact ⟨BitVec.eq_of_toNat_eq hq, BitVec.eq_of_toNat_eq hr⟩

/-- R214: within the precondition the unit answers exactly the quotient limb and the remainder pair. -/
theorem divide3by2_eq_some_iff {u2 u1 u0 d1 d0 q r1 r0 : Limb} (rcp : Limb) (hd : 2 ^ 63 ≤ d1.toNat)
    (hu : pairVal u2 u1 < pairVal d1 d0) :
    divide3by2 u2 u1 u0 d1 d0 rcp = some (q, r1, r0) ↔
      tripleVal u2 u1 u0 = q.toNat * pairVal d1 d0 + pairVal r1 r0 ∧ pairVal r1 r0 < pairVal d1 d0 := by
  obtain ⟨q', r1', r0', hdiv, hval, hr⟩ := divide3by2_exact (u0 := u0) rcp hd hu
  rw [hdiv, Option.some.injEq, Prod.mk.injEq, Prod.mk.injEq]
  constructor
  · rintro ⟨rfl, rfl, rfl⟩; exact ⟨hval, hr⟩
  · rintro ⟨hval', hr'⟩
    obtain ⟨hq, hr⟩ := quotient_remainder_unique hval hr hval' hr'
    exact ⟨BitVec.eq_of_toNat_eq hq, pairVal_inj hr⟩

/-- Settles O20: the unit answers a quotient and a remainder, and no others meet the identity. -/
theorem divide2by1IsExact : Obligations.Divide2by1IsExact := by
  intro u1 u0 d rcp
  exact ⟨fun hd hu q r => divide2by1_eq_some_iff rcp hd hu, fun h => if_neg h⟩

/-- Settles O21: the unit answers a quotient and a remainder pair, and no others meet the identity. -/
theorem divide3by2IsExact : Obligations.Divide3by2IsExact := by
  intro u2 u1 u0 d1 d0 rcp
  refine ⟨fun hd hu q r1 r0 => ?_, fun h => if_neg h⟩
  rw [show u2.toNat * limbBase ^ 2 + u1.toNat * limbBase + u0.toNat = tripleVal u2 u1 u0 by
    rw [tripleVal, pairVal]; ring]
  exact divide3by2_eq_some_iff rcp hd hu

end Sys2Proof.Machine
end

section
/-! SUPPORT. The realisation of 46_primitives.md R219: its words as integers, and what its corrections of an estimate do. -/

namespace Sys2Proof.Machine

/-! ## Words as integers modulo `2^w` -/

section Words
variable {w : Nat}

theorem toNat_intCast (z : ℤ) : ((z : BitVec w).toNat : ℤ) = z % 2 ^ w := by
  change ((BitVec.ofInt w z).toNat : ℤ) = _
  rw [BitVec.toNat_ofInt]
  exact Int.toNat_of_nonneg (Int.emod_nonneg _ (by positivity))

theorem toNat_intCast_of_nonneg {z : ℤ} (h0 : 0 ≤ z) (h : z < 2 ^ w) : ((z : BitVec w).toNat : ℤ) = z := by
  rw [toNat_intCast, Int.emod_eq_of_lt h0 h]

theorem toNat_intCast_of_neg {z : ℤ} (h0 : z < 0) (h : -2 ^ w ≤ z) : ((z : BitVec w).toNat : ℤ) = z + 2 ^ w := by
  rw [toNat_intCast, ← Int.add_emod_right, Int.emod_eq_of_lt (by omega) (by omega)]

theorem intCast_toNat (x : BitVec w) : ((x.toNat : ℤ) : BitVec w) = x := by
  rw [Int.cast_natCast]; simp

theorem ofNat_eq_intCast (n : Nat) : BitVec.ofNat w n = ((n : ℤ) : BitVec w) :=
  (Int.cast_natCast n).symm

theorem intCast_eq_of_dvd {a b : ℤ} (h : (2 : ℤ) ^ w ∣ a - b) : (a : BitVec w) = b := by
  apply BitVec.eq_of_toNat_eq
  zify
  rw [toNat_intCast, toNat_intCast]
  exact Int.emod_eq_emod_iff_emod_sub_eq_zero.mpr (Int.emod_eq_zero_of_dvd h)

/-- A sum is below its second summand exactly when the addition carries out of the word. -/
theorem add_lt_right_iff_carry {x y : BitVec w} : x + y < y ↔ 2 ^ w ≤ x.toNat + y.toNat := by
  have hx := x.isLt
  have hy := y.isLt
  rw [BitVec.lt_def, BitVec.toNat_add]
  rcases lt_or_ge (x.toNat + y.toNat) (2 ^ w) with h | h
  · rw [Nat.mod_eq_of_lt h]; omega
  · rw [Nat.mod_eq_sub_mod h, Nat.mod_eq_of_lt (by omega)]; omega

/-- A carrying sum has lost the word's base. -/
theorem toNat_add_of_carry {x y : BitVec w} (h : 2 ^ w ≤ x.toNat + y.toNat) :
    (x + y).toNat + 2 ^ w = x.toNat + y.toNat := by
  have hx := x.isLt
  have hy := y.isLt
  rw [BitVec.toNat_add, Nat.mod_eq_sub_mod h, Nat.mod_eq_of_lt (by omega)]; omega

theorem toNat_intCast_of_carry {z : ℤ} (h0 : 2 ^ w ≤ z) (h : z < 2 * 2 ^ w) :
    ((z : BitVec w).toNat : ℤ) = z - 2 ^ w := by
  rw [toNat_intCast, ← Int.sub_emod_right, Int.emod_eq_of_lt (by omega) (by omega)]

end Words

/-! ## The bases of limbs and of limb pairs -/

theorem two_pow_64 : (2 : ℤ) ^ 64 = limbBase := rfl

theorem two_pow_128 : (2 : ℤ) ^ 128 = (limbBase : ℤ) ^ 2 := rfl

/-- R10: a normalized divisor is at least half the word's range. -/
theorem limbBase_le_two_mul {d : Limb} (hd : 2 ^ 63 ≤ d.toNat) : limbBase ≤ 2 * d.toNat := by
  rw [limbBase]; omega

/-- R10: a pair with a normalized top limb is at least half the range of pairs. -/
theorem limbBase_sq_le_two_mul {d1 d0 : Limb} (hd : 2 ^ 63 ≤ d1.toNat) : limbBase ^ 2 ≤ 2 * pairVal d1 d0 := by
  have h := Nat.mul_le_mul_right limbBase (limbBase_le_two_mul hd)
  rw [Nat.mul_assoc, ← pow_two] at h
  rw [pairVal]; omega

/-! ## An estimate of a quotient and its corrections (R219) -/

/-- R219: the quotient estimate `e` of `a` by `d`, as a limb, and the remainder it leaves, as a word. Either may be out of
the range of its word; what is kept is its value modulo the word's base. -/
def estimate (w : Nat) (a d e : ℤ) : Limb × BitVec w := (e, (a - e * d : ℤ))

/-- R219: an estimate one lower leaves a remainder larger by the divisor. -/
def lowerEstimate {w : Nat} (d : BitVec w) (x : Limb × BitVec w) : Limb × BitVec w := (x.1 - 1, x.2 + d)

/-- R219: the last correction: an estimate that leaves the divisor or more is raised. -/
def raiseEstimate {w : Nat} (d : BitVec w) (x : Limb × BitVec w) : Limb × BitVec w :=
  if d ≤ x.2 then (x.1 + 1, x.2 - d) else x

/-- R219: the bounds on the remainder `r` that an estimate leaves, in a word of base `W`, from a bound on `W * r` by the low
word `x` of the product the estimate was read from. -/
theorem remainder_bounds {W d x r : ℤ} (hd : 0 < d) (hdW : d < W) (hx : 0 ≤ x) (hxW : x < W)
    (hlo : (x - W) * d ≤ W * r) (hhi : W * r < (W - d) ^ 2 + x * d) :
    -d ≤ r ∧ x - W < r ∧ (r < W - d ∨ r < x) := by
  have hW : 0 < W := by linarith
  refine ⟨?_, ?_, ?_⟩
  · by_contra h
    nlinarith [mul_nonneg hx hd.le, mul_lt_mul_of_pos_left (not_le.mp h) hW]
  · by_contra h
    nlinarith [mul_le_mul_of_nonneg_left (not_lt.mp h) hW.le, mul_lt_mul_of_pos_left hdW (sub_pos.mpr hxW)]
  · by_contra! h
    nlinarith [mul_le_mul_of_nonneg_left h.1 (sub_pos.mpr hdW).le, mul_le_mul_of_nonneg_left h.2 hd.le]

section Corrections
variable {w : Nat} {a e : ℤ} {d : BitVec w}

theorem lowerEstimate_estimate : lowerEstimate d (estimate w a d.toNat e) = estimate w a d.toNat (e - 1) := by
  rw [estimate, estimate, lowerEstimate, Prod.mk.injEq]
  refine ⟨by push_cast; rfl, ?_⟩
  rw [show a - (e - 1) * d.toNat = a - e * d.toNat + d.toNat by ring, Int.cast_add (a - e * d.toNat), intCast_toNat]

/-- R219: an estimate one higher leaves a remainder smaller by the divisor. -/
theorem estimate_succ : ((estimate w a d.toNat e).1 + 1, (estimate w a d.toNat e).2 - d) =
    estimate w a d.toNat (e + 1) := by
  rw [estimate, estimate, Prod.mk.injEq]
  refine ⟨by push_cast; rfl, ?_⟩
  rw [show a - (e + 1) * d.toNat = a - e * d.toNat - d.toNat by ring, Int.cast_sub (a - e * d.toNat), intCast_toNat]

/-- R219: with a normalized divisor, an estimate that is not too large and at most one too small is made exact. -/
theorem raiseEstimate_estimate (hnorm : (2 : ℤ) ^ w ≤ 2 * d.toNat) (h0 : 0 ≤ a - e * d.toNat)
    (hlt : a - e * d.toNat < 2 ^ w) :
    ∃ q, raiseEstimate d (estimate w a d.toNat e) = estimate w a d.toNat q ∧
      0 ≤ a - q * d.toNat ∧ a - q * d.toNat < d.toNat := by
  have hrem : ((estimate w a d.toNat e).2.toNat : ℤ) = a - e * d.toNat := toNat_intCast_of_nonneg h0 hlt
  rw [raiseEstimate, estimate_succ]
  split
  · rename_i h
    have h : (d.toNat : ℤ) ≤ a - e * d.toNat := by rw [← hrem]; exact_mod_cast h
    exact ⟨e + 1, rfl, by linarith, by linarith⟩
  · rename_i h
    have h : a - e * d.toNat < d.toNat := by rw [← hrem]; exact_mod_cast lt_of_not_ge h
    exact ⟨e, rfl, h0, h⟩

/-- R219: the two corrections make an estimate exact that is too small by less than the word's range, where `p`, the test
for lowering it, holds if it is too large, and otherwise only where lowering it keeps the remainder in its word. -/
theorem corrected_estimate {p : Prop} [Decidable p] (hnorm : (2 : ℤ) ^ w ≤ 2 * d.toNat)
    (hlo : -(d.toNat : ℤ) ≤ a - e * d.toNat) (hhi : a - e * d.toNat < 2 ^ w)
    (hneg : a - e * d.toNat < 0 → p) (hpos : p → 0 ≤ a - e * d.toNat → a - e * d.toNat < 2 ^ w - d.toNat) :
    ∃ q, raiseEstimate d (if p then lowerEstimate d (estimate w a d.toNat e) else estimate w a d.toNat e) =
        estimate w a d.toNat q ∧ 0 ≤ a - q * d.toNat ∧ a - q * d.toNat < d.toNat := by
  have hd : (d.toNat : ℤ) < 2 ^ w := by exact_mod_cast d.isLt
  split
  · rename_i h
    rw [lowerEstimate_estimate]
    have hr : a - (e - 1) * d.toNat = a - e * d.toNat + d.toNat := by ring
    refine raiseEstimate_estimate hnorm (by linarith) ?_
    rcases lt_or_ge (a - e * d.toNat) 0 with h0 | h0
    · linarith
    · linarith [hpos h h0]
  · rename_i h
    exact raiseEstimate_estimate hnorm (not_lt.mp fun h0 => h (hneg h0)) hhi

/-- R219: an estimate that leaves less than the divisor is the quotient, and what it leaves is the remainder; both are read
off the words where the quotient fits a limb. -/
theorem estimate_exact {a : Nat} (ha : a < d.toNat * limbBase) (h0 : 0 ≤ a - e * d.toNat)
    (hlt : a - e * d.toNat < d.toNat) :
    a = (estimate w a d.toNat e).1.toNat * d.toNat + (estimate w a d.toNat e).2.toNat ∧
      (estimate w a d.toNat e).2.toNat < d.toNat := by
  have hd : (d.toNat : ℤ) < 2 ^ w := by exact_mod_cast d.isLt
  have ha : (a : ℤ) < d.toNat * limbBase := by exact_mod_cast ha
  have he0 : 0 ≤ e := by
    by_contra h
    nlinarith
  have heB : e < 2 ^ 64 := by
    change e < limbBase
    by_contra h
    nlinarith
  have hq : ((estimate w a d.toNat e).1.toNat : ℤ) = e := toNat_intCast_of_nonneg he0 heB
  have hr : ((estimate w a d.toNat e).2.toNat : ℤ) = a - e * d.toNat := toNat_intCast_of_nonneg h0 (hlt.trans hd)
  zify
  rw [hq, hr]
  exact ⟨by ring, hlt⟩

/-- R219: an estimate read from a product with low word `x` is made exact by the two corrections, whichever way the test `p`
for the first one falls where the remainder's word is `x`. -/
theorem corrected_estimate_exact {p : Prop} [Decidable p] {a : Nat} {x : ℤ} (hnorm : (2 : ℤ) ^ w ≤ 2 * d.toNat)
    (ha : a < d.toNat * limbBase) (hx : 0 ≤ x) (hxW : x < 2 ^ w)
    (hlo : (x - 2 ^ w) * d.toNat ≤ 2 ^ w * (a - e * d.toNat))
    (hhi : 2 ^ w * (a - e * d.toNat) < (2 ^ w - d.toNat) ^ 2 + x * d.toNat)
    (hp : p → x ≤ (estimate w a d.toNat e).2.toNat) (hp' : x < (estimate w a d.toNat e).2.toNat → p)
    {y : Limb × BitVec w}
    (hy : y = raiseEstimate d (if p then lowerEstimate d (estimate w a d.toNat e) else estimate w a d.toNat e)) :
    a = y.1.toNat * d.toNat + y.2.toNat ∧ y.2.toNat < d.toNat := by
  have hd : (d.toNat : ℤ) < 2 ^ w := by exact_mod_cast d.isLt
  obtain ⟨hr, hxr, hmax⟩ := remainder_bounds (by linarith) hd hx hxW hlo hhi
  have hrW : a - e * d.toNat < 2 ^ w := by rcases hmax with h | h <;> linarith
  have hneg (h0 : a - e * d.toNat < 0) : p := hp' (by
    rw [estimate, toNat_intCast_of_neg h0 (by linarith)]; linarith)
  have hpos (h : p) (h0 : 0 ≤ a - e * d.toNat) : a - e * d.toNat < 2 ^ w - d.toNat := by
    have hxr := hp h
    rw [estimate, toNat_intCast_of_nonneg h0 hrW] at hxr
    exact hmax.resolve_right (not_lt.mpr hxr)
  obtain ⟨q, hq, h0, hlt⟩ := corrected_estimate hnorm hr hrW hneg hpos
  rw [hy, hq]
  exact estimate_exact ha h0 hlt

end Corrections

end Sys2Proof.Machine
end

section
/-! SUPPORT. The realisation's reciprocal of a limb and its 2-by-1 division (46_primitives.md R219). -/

namespace Sys2Proof.Machine

/-- R219: the reciprocal limb of a normalized divisor is the largest `v` with `(v + B) * d < B^2`. -/
theorem realReciprocal1_bounds {d : Limb} (hd : 2 ^ 63 ≤ d.toNat) :
    ((realReciprocal1 d).toNat + limbBase) * d.toNat < limbBase ^ 2 ∧
      limbBase ^ 2 ≤ ((realReciprocal1 d).toNat + limbBase) * d.toNat + d.toNat := by
  have hB := limb_lt d
  have hnorm := limbBase_le_two_mul hd
  have hd0 : 0 < d.toNat := by omega
  have hlo : limbBase ≤ (limbBase ^ 2 - 1) / d.toNat := by
    rw [Nat.le_div_iff_mul_le hd0, limbBase] at *; omega
  have hhi : (limbBase ^ 2 - 1) / d.toNat < 2 * limbBase := by
    rw [Nat.div_lt_iff_lt_mul hd0, limbBase] at *; omega
  have hv : (realReciprocal1 d).toNat + limbBase = (limbBase ^ 2 - 1) / d.toNat := by
    rw [realReciprocal1, lo64_of_lt (by omega)]; omega
  have hdiv := Nat.div_add_mod' (limbBase ^ 2 - 1) d.toNat
  have hmod := Nat.mod_lt (limbBase ^ 2 - 1) hd0
  have hpos : 0 < limbBase ^ 2 := Nat.pow_pos limbBase_pos
  rw [hv]
  omega

/-- R219: the bounds on what the first estimate of the 2-by-1 division leaves, where `v` is the divisor's reciprocal and
`(q1, q0)` the product the estimate is read from. -/
theorem divide2by1_remainder_bounds {B d v u1 u0 q1 q0 : Nat} (hd : d < B) (hu : u1 < d) (hu0 : u0 < B)
    (hv : (v + B) * d < B ^ 2) (hv' : B ^ 2 ≤ (v + B) * d + d)
    (ht : v * u1 + (u1 * B + u0) = q1 * B + q0) :
    (q0 - B : ℤ) * d ≤ B * ((u1 * B + u0 : Nat) - (q1 + 1) * d) ∧
      (B * ((u1 * B + u0 : Nat) - (q1 + 1) * d) : ℤ) < (B - d) ^ 2 + q0 * d := by
  zify at *
  have key : (B * (u1 * B + u0 - (q1 + 1) * d) : ℤ) = u1 * (B ^ 2 - (v + B) * d) + u0 * (B - d) + (q0 - B) * d := by
    linear_combination d * ht
  have h1 : (u1 * (B ^ 2 - (v + B) * d) : ℤ) ≤ (d - 1) * d :=
    mul_le_mul (by omega) (by linarith) (by linarith) (by omega)
  have h2 : (u0 * (B - d) : ℤ) ≤ (B - 1) * (B - d) := mul_le_mul_of_nonneg_right (by omega) (by linarith)
  rw [key]
  constructor
  · have h1' : (0 : ℤ) ≤ u1 * (B ^ 2 - (v + B) * d) := mul_nonneg (by positivity) (by linarith)
    have h2' : (0 : ℤ) ≤ u0 * (B - d) := mul_nonneg (by positivity) (by linarith)
    linarith
  · nlinarith

/-- R219: the 2-by-1 division is an estimate, lowered if the product's low limb is below what it leaves, then raised if it
leaves the divisor or more. -/
theorem realDivide2by1_eq_corrected (u1 u0 d v : Limb) {t : Nat} {x : Limb × Limb}
    (ht : t = v.toNat * u1.toNat + pairVal u1 u0) (hx : x = (hi64 t + 1, u0 - (hi64 t + 1) * d)) :
    realDivide2by1 u1 u0 d v = raiseEstimate d (if lo64 t < x.2 then lowerEstimate d x else x) := by
  subst hx ht; rfl

/-- R9: the high limb is the quotient by `B`, modulo `B`. -/
theorem hi64_eq_intCast (t : Nat) : hi64 t = ((t / limbBase : ℤ) : Limb) := by
  rw [hi64, ofNat_eq_intCast, Int.natCast_ediv]

/-- R10: modulo `B` a pair is its low limb. -/
theorem pairVal_intCast (h l : Limb) : ((pairVal h l : ℤ) : Limb) = l := by
  rw [← intCast_toNat l]
  exact intCast_eq_of_dvd ⟨h.toNat, by rw [two_pow_64, intCast_toNat]; push_cast [pairVal]; ring⟩

/-- R219: the first estimate of the 2-by-1 division is one more than the product's high limb. -/
theorem divide2by1_estimate (u1 u0 d : Limb) (t : Nat) :
    (hi64 t + 1, u0 - (hi64 t + 1) * d) = estimate 64 (pairVal u1 u0) d.toNat (t / limbBase + 1) := by
  rw [estimate, hi64_eq_intCast, Int.cast_sub (pairVal u1 u0 : ℤ), pairVal_intCast, Int.cast_mul, intCast_toNat,
    Int.cast_add, Int.cast_one]

/-- R212: the number divided has a quotient that fits a limb. -/
theorem pairVal_lt_mul {u1 u0 d : Limb} (h : u1.toNat < d.toNat) : pairVal u1 u0 < d.toNat * limbBase := by
  have h0 := limb_lt u0
  have h1 := Nat.mul_le_mul_right limbBase h
  rw [Nat.succ_mul] at h1
  rw [pairVal]; omega

/-- Settles O22: the remainder the first estimate leaves is within the bounds that make its two corrections exact. -/
theorem realisedDivide2by1MeetsItsContract : Obligations.RealisedDivide2by1MeetsItsContract := by
  intro u1 u0 d rcp hd hu
  obtain ⟨hv, hv'⟩ := realReciprocal1_bounds hd
  obtain ⟨t, ht⟩ : ∃ t, t = (realReciprocal1 d).toNat * u1.toNat + pairVal u1 u0 := ⟨_, rfl⟩
  have hq : (realReciprocal1 d).toNat * u1.toNat + (u1.toNat * limbBase + u0.toNat) =
      t / limbBase * limbBase + (lo64 t).toNat := by
    rw [lo64_toNat, Nat.div_add_mod', ht, pairVal]
  obtain ⟨hlo, hhi⟩ := divide2by1_remainder_bounds (limb_lt d) hu (limb_lt u0) hv hv' hq
  refine (divide2by1_eq_some_iff rcp hd hu).mpr ?_
  refine corrected_estimate_exact (d := d) (x := (lo64 t).toNat) (by exact_mod_cast limbBase_le_two_mul hd)
    (pairVal_lt_mul hu) (by positivity) (by exact_mod_cast (lo64 t).isLt) hlo hhi ?_ ?_
    (realDivide2by1_eq_corrected u1 u0 d _ ht (divide2by1_estimate u1 u0 d t).symm)
  · exact fun h => by exact_mod_cast (BitVec.le_of_lt h : lo64 t ≤ _)
  · exact fun h => by exact_mod_cast h

end Sys2Proof.Machine
end

section
/-! SUPPORT. The realisation's reciprocal of a limb pair (46_primitives.md R219). -/

namespace Sys2Proof.Machine

/-! ## The first part: the top limb and the carry of the low limb -/

/-- R219: how far `(e + B) * d1 + d0` lies above `B^2 - B`, for an estimate `e` of the reciprocal. -/
def reciprocalExcess (d1 d0 : Limb) (e : ℤ) : ℤ := (e + limbBase) * d1.toNat + d0.toNat - (limbBase ^ 2 - limbBase)

/-- R219: an estimate of the reciprocal and its excess, as limbs: the variables `v` and `p`. -/
def reciprocalEstimate (d1 d0 : Limb) (e : ℤ) : Limb × Limb := (e, (reciprocalExcess d1 d0 e : ℤ))

theorem reciprocalExcess_sub (d1 d0 : Limb) (e k : ℤ) :
    reciprocalExcess d1 d0 (e - k) = reciprocalExcess d1 d0 e - k * d1.toNat := by
  rw [reciprocalExcess, reciprocalExcess]; ring

/-- R219: lowering the estimate by one takes the top limb off `p`. -/
theorem reciprocalEstimate_lower (d1 d0 : Limb) (e : ℤ) :
    ((reciprocalEstimate d1 d0 e).1 - 1, (reciprocalEstimate d1 d0 e).2 - d1) = reciprocalEstimate d1 d0 (e - 1) := by
  simp only [reciprocalEstimate, reciprocalExcess_sub, one_mul, Int.cast_sub, intCast_toNat, Int.cast_one]

/-- R219: the estimate the first part begins with. -/
theorem reciprocalEstimate_of_limb (d1 d0 v : Limb) : reciprocalEstimate d1 d0 v.toNat = (v, d1 * v + d0) := by
  rw [reciprocalEstimate, intCast_toNat, Prod.mk.injEq]
  refine ⟨rfl, ?_⟩
  rw [show d1 * v + d0 = ((d1.toNat * v.toNat + d0.toNat : ℤ) : Limb) by
    rw [Int.cast_add, Int.cast_mul, intCast_toNat, intCast_toNat, intCast_toNat]]
  refine intCast_eq_of_dvd ⟨d1.toNat - limbBase + 1, ?_⟩
  rw [two_pow_64, reciprocalExcess]; ring

/-- R219: the first part lowers the estimate by 0, 1 or 2. -/
theorem realReciprocal2Low_eq_estimate (d1 d0 v : Limb) {x : Limb × Limb} (hx : x = reciprocalEstimate d1 d0 v.toNat) :
    realReciprocal2Low d1 d0 v =
      if x.2 < d0 then
        if d1 ≤ x.2 then reciprocalEstimate d1 d0 (v.toNat - 1 - 1) else reciprocalEstimate d1 d0 (v.toNat - 1)
      else x := by
  rw [← reciprocalEstimate_lower, ← reciprocalEstimate_lower, ← hx, hx, reciprocalEstimate_of_limb]
  simp only [realReciprocal2Low]
  split
  · split <;> rfl
  · rfl

/-- R219: the first part's estimate is the largest with `(e + B) * d1 + d0 < B^2`. -/
theorem realReciprocal2Low_excess {d1 d0 : Limb} (hd : 2 ^ 63 ≤ d1.toNat) :
    ∃ e : ℤ, realReciprocal2Low d1 d0 (realReciprocal1 d1) = reciprocalEstimate d1 d0 e ∧
      limbBase - d1.toNat ≤ reciprocalExcess d1 d0 e ∧ reciprocalExcess d1 d0 e < limbBase := by
  obtain ⟨hv, hv'⟩ := realReciprocal1_bounds hd
  have hd0 := limb_lt d0
  have hnorm := limbBase_le_two_mul hd
  rw [realReciprocal2Low_eq_estimate d1 d0 _ rfl]
  generalize (realReciprocal1 d1) = v at *
  obtain ⟨s, hs⟩ : ∃ s, s = reciprocalExcess d1 d0 v.toNat := ⟨_, rfl⟩
  obtain ⟨hlo, hhi⟩ : limbBase - d1.toNat + d0.toNat ≤ s ∧ s < limbBase + d0.toNat := by
    rw [hs, reciprocalExcess]; zify at hv hv'; constructor <;> linarith
  have hp : (s : Limb) = (reciprocalEstimate d1 d0 v.toNat).2 := by rw [hs]; rfl
  have hd1 := limb_lt d1
  simp only [← hp, BitVec.lt_def, BitVec.le_def]
  rcases lt_or_ge s limbBase with h | h
  · have hp := toNat_intCast_of_nonneg (w := 64) (by omega : 0 ≤ s) h
    rw [if_neg (by omega)]
    exact ⟨v.toNat, rfl, by omega, by omega⟩
  · have hp := toNat_intCast_of_carry (w := 64) h (by rw [two_pow_64]; omega)
    rw [two_pow_64] at hp
    rw [if_pos (by omega)]
    split <;> refine ⟨_, rfl, ?_, ?_⟩ <;> simp only [reciprocalExcess_sub, ← hs] <;> omega

/-- R219: after the first part `v` and `p` are what the largest `v` with `(v + B) * d1 + d0 < B^2` has. -/
theorem realReciprocal2Low_bounds {d1 d0 : Limb} (hd : 2 ^ 63 ≤ d1.toNat) {v p : Limb}
    (hvp : realReciprocal2Low d1 d0 (realReciprocal1 d1) = (v, p)) :
    (v.toNat + limbBase) * d1.toNat + d0.toNat + limbBase = limbBase ^ 2 + p.toNat ∧ limbBase ≤ p.toNat + d1.toNat := by
  obtain ⟨e, he, hlo, hhi⟩ := realReciprocal2Low_excess (d0 := d0) hd
  have hd1 : (d1.toNat : ℤ) < limbBase := by exact_mod_cast limb_lt d1
  have hd0 : (d0.toNat : ℤ) < limbBase := by exact_mod_cast limb_lt d0
  have hnorm : (limbBase : ℤ) ≤ 2 * d1.toNat := by exact_mod_cast limbBase_le_two_mul hd
  obtain ⟨rfl, rfl⟩ := Prod.mk.inj (hvp.symm.trans he)
  have he0 : 0 ≤ e := by
    by_contra h
    rw [reciprocalExcess] at hlo
    nlinarith
  have heB : e < limbBase := by
    by_contra h
    rw [reciprocalExcess] at hhi
    nlinarith
  have hv := toNat_intCast_of_nonneg (w := 64) he0 heB
  have hp := toNat_intCast_of_nonneg (w := 64) (by linarith) hhi
  zify
  rw [hv, hp]
  exact ⟨by rw [reciprocalExcess]; ring, by linarith⟩

/-! ## The second part: the low limb -/

/-- R219: an estimate of the reciprocal within its bounds is in a limb's range. -/
theorem reciprocal_toNat {d1 d0 : Limb} (hd : 2 ^ 63 ≤ d1.toNat) {e : ℤ}
    (hlt : (e + limbBase) * pairVal d1 d0 < limbBase ^ 3)
    (hle : (limbBase : ℤ) ^ 3 ≤ (e + limbBase) * pairVal d1 d0 + pairVal d1 d0) : ((e : Limb).toNat : ℤ) = e := by
  have hB : (0 : ℤ) < limbBase := by exact_mod_cast limbBase_pos
  have hD : (pairVal d1 d0 : ℤ) < limbBase ^ 2 := by exact_mod_cast pairVal_lt d1 d0
  have hnorm : (limbBase : ℤ) ^ 2 ≤ 2 * pairVal d1 d0 := by exact_mod_cast limbBase_sq_le_two_mul hd
  refine toNat_intCast_of_nonneg ?_ ?_
  · by_contra h
    nlinarith
  · rw [two_pow_64]
    by_contra h
    nlinarith

/-- R219: what the second part does with the first part's `v` and `p` and the product `t` of `v` and the low limb. -/
theorem realReciprocal2_eq {d1 d0 v p : Limb} {t : Nat} (h : realReciprocal2Low d1 d0 (realReciprocal1 d1) = (v, p))
    (ht : t = v.toNat * d0.toNat) :
    realReciprocal2 d1 d0 =
      if p + hi64 t < hi64 t then
        if pairVal d1 d0 ≤ pairVal (p + hi64 t) (lo64 t) then v - 1 - 1 else v - 1
      else v := by
  subst ht; rw [realReciprocal2, h]

/-- R219: adding the high limb of `t` to `p` carries exactly when `t` added to `p * B` leaves the range of a pair. -/
theorem add_hi_lt_hi_iff {p : Limb} {t : Nat} (ht : t < limbBase ^ 2) :
    p + hi64 t < hi64 t ↔ limbBase ^ 2 ≤ p.toNat * limbBase + t := by
  rw [add_lt_right_iff_carry, hi64_of_lt ht]
  simp only [limbBase]; omega

/-- R219: a sum that carried is a pair again, less the base of pairs. -/
theorem pairVal_add_hi_lo {p : Limb} {t : Nat} (ht : t < limbBase ^ 2) (h : limbBase ^ 2 ≤ p.toNat * limbBase + t) :
    pairVal (p + hi64 t) (lo64 t) + limbBase ^ 2 = p.toNat * limbBase + t := by
  have hc := toNat_add_of_carry (add_lt_right_iff_carry.mp ((add_hi_lt_hi_iff ht).mpr h))
  rw [hi64_of_lt ht] at hc
  rw [pairVal, lo64_toNat]
  simp only [limbBase] at *; omega

/-- R219: the first part's estimate `v`, times the whole divisor, in terms of `p` and the product `v * d0`. -/
theorem reciprocal_mul_pairVal {d1 d0 v p : Limb}
    (h : (v.toNat + limbBase) * d1.toNat + d0.toNat + limbBase = limbBase ^ 2 + p.toNat) :
    (v.toNat + limbBase : ℤ) * pairVal d1 d0 =
      limbBase ^ 3 + (p.toNat * limbBase + (v.toNat * d0.toNat : Nat)) - limbBase ^ 2 := by
  zify at h
  push_cast [pairVal]
  linear_combination limbBase * h

/-- R219: the second part's estimate is the largest with `(e + B) * (d1, d0) < B^3`. The number `p * B + v * d0` decides
how often the estimate is lowered: not at all below `B^2`, then once below `B^2 + (d1, d0)`, else twice. -/
theorem realReciprocal2_estimate {d1 d0 : Limb} (hd : 2 ^ 63 ≤ d1.toNat) :
    ∃ e : ℤ, realReciprocal2 d1 d0 = e ∧ (e + limbBase) * pairVal d1 d0 < limbBase ^ 3 ∧
      (limbBase : ℤ) ^ 3 ≤ (e + limbBase) * pairVal d1 d0 + pairVal d1 d0 := by
  rcases hvp : realReciprocal2Low d1 d0 (realReciprocal1 d1) with ⟨v, p⟩
  obtain ⟨hv, hp⟩ := realReciprocal2Low_bounds hd hvp
  have hval := reciprocal_mul_pairVal hv
  have ht : v.toNat * d0.toNat < limbBase ^ 2 := by
    rw [pow_two]; exact Nat.mul_lt_mul'' (limb_lt v) (limb_lt d0)
  rw [realReciprocal2_eq hvp rfl]
  generalize v.toNat * d0.toNat = t at *
  have hnorm := limbBase_sq_le_two_mul (d0 := d0) hd
  have hhi : p.toNat * limbBase + t < limbBase ^ 2 + limbBase ^ 2 := by
    have h := Nat.mul_lt_mul_of_pos_right (limb_lt p) limbBase_pos
    rw [← pow_two] at h
    exact Nat.add_lt_add h ht
  have hlo : limbBase ^ 2 ≤ p.toNat * limbBase + t + pairVal d1 d0 := by
    have h := Nat.mul_le_mul_right limbBase hp
    rw [← pow_two, Nat.add_mul] at h
    rw [pairVal]; omega
  split
  · rename_i hc
    have hpt := pairVal_add_hi_lo ht ((add_hi_lt_hi_iff ht).mp hc)
    split
    · refine ⟨v.toNat - 1 - 1, by push_cast; simp, ?_, ?_⟩ <;> zify at * <;> linarith
    · refine ⟨v.toNat - 1, by push_cast; simp, ?_, ?_⟩ <;> zify at * <;> linarith
  · rename_i hc
    have hc := (add_hi_lt_hi_iff ht).not.mp hc
    refine ⟨v.toNat, (intCast_toNat v).symm, ?_, ?_⟩ <;> zify at * <;> linarith

/-- R219: the reciprocal limb of a normalized pair is the largest `v` with `(v + B) * (d1, d0) < B^3`. -/
theorem realReciprocal2_bounds {d1 d0 : Limb} (hd : 2 ^ 63 ≤ d1.toNat) :
    ((realReciprocal2 d1 d0).toNat + limbBase) * pairVal d1 d0 < limbBase ^ 3 ∧
      limbBase ^ 3 ≤ ((realReciprocal2 d1 d0).toNat + limbBase) * pairVal d1 d0 + pairVal d1 d0 := by
  obtain ⟨e, he, hlt, hle⟩ := realReciprocal2_estimate (d0 := d0) hd
  have hv := reciprocal_toNat hd hlt hle
  rw [he]
  zify
  rw [hv]
  exact ⟨hlt, hle⟩

/-- Settles O23: the reciprocal is the largest limb within the bounds of the quotient. -/
theorem realisedReciprocalOfAPairHasItsClosedForm : Obligations.RealisedReciprocalOfAPairHasItsClosedForm := by
  intro d1 d0 hd
  obtain ⟨hlt, hle⟩ := realReciprocal2_bounds (d0 := d0) hd
  refine (Nat.div_eq_of_lt_le ?_ ?_).symm
  · exact Nat.le_pred_of_lt hlt
  · have : 0 < limbBase ^ 3 := Nat.pow_pos limbBase_pos
    rw [Nat.succ_mul]
    exact (Nat.sub_lt this one_pos).trans_le hle

end Sys2Proof.Machine
end

section
/-! SUPPORT. The realisation's 3-by-2 division (46_primitives.md R219). -/

namespace Sys2Proof.Machine

/-- R10: two limbs joined are the pair's value. -/
theorem append_toNat (h l : Limb) : (h ++ l : BitVec 128).toNat = pairVal h l := by
  have hl := l.isLt
  rw [BitVec.toNat_append, ← Nat.shiftLeft_add_eq_or_of_lt hl, Nat.shiftLeft_eq]; rfl

theorem toNat_lt_limbBase_sq (r : BitVec 128) : r.toNat < limbBase ^ 2 := by
  rw [limbBase, ← pow_mul]; exact r.isLt

/-- R10: joined limbs modulo `B^2`, where the high limb is given modulo `B`. -/
theorem intCast_append (z : ℤ) (l : Limb) :
    ((z : Limb) ++ l : BitVec 128) = ((z * limbBase + l.toNat : ℤ) : BitVec 128) := by
  rw [← intCast_toNat ((z : Limb) ++ l : BitVec 128), append_toNat]
  refine intCast_eq_of_dvd ⟨-(z / limbBase), ?_⟩
  have hz := Int.emod_add_mul_ediv z limbBase
  rw [pairVal, two_pow_128]
  push_cast [toNat_intCast, two_pow_64]
  linear_combination limbBase * hz

/-- R219: the product the 3-by-2 estimate is read from is a pair: nothing of it is lost modulo `B^2`. -/
theorem divide3by2_product_lt {B D v u2 u1 : Nat} (hu : u2 * B + u1 < D) (hv : (v + B) * D < B ^ 3) :
    v * u2 + (u2 * B + u1) < B ^ 2 := by
  have h : (v + B) * (u2 * B + u1 + 1) ≤ (v + B) * D := Nat.mul_le_mul_left _ hu
  refine Nat.lt_of_mul_lt_mul_left (a := B) ?_
  nlinarith

/-- R219: the upper bound on what the top limb `u2`, the middle limb `u1` and the low limb `u0` contribute to the remainder,
where `k` is what the reciprocal falls short by. The two cases are whether the reciprocal limb is zero. -/
theorem divide3by2_excess_lt {B D k u2 u1 u0 : ℤ} (hD : 0 < D) (hDB : D < B ^ 2) (hk : k ≤ D)
    (hkB : k ≤ B * (B ^ 2 - D)) (h2 : 0 ≤ u2) (h1 : 0 ≤ u1) (h1B : u1 < B) (hu : u2 * B + u1 < D) (h0B : u0 < B) :
    B * (u2 * k + u1 * (B ^ 2 - D) + u0 * B) < B ^ 2 * D + (B ^ 2 - D) ^ 2 := by
  have hB : 0 < B := by linarith
  have h0 : u0 * B ^ 2 ≤ (B - 1) * B ^ 2 := mul_le_mul_of_nonneg_right (by omega) (by positivity)
  rcases le_or_gt D (B * (B ^ 2 - D)) with h | h
  · have htop : u2 * k * B ≤ (D - 1 - u1) * D :=
      calc u2 * k * B ≤ u2 * D * B := mul_le_mul_of_nonneg_right (mul_le_mul_of_nonneg_left hk h2) hB.le
        _ = u2 * B * D := by ring
        _ ≤ _ := mul_le_mul_of_nonneg_right (by linarith) hD.le
    have hmid : u1 * (B * (B ^ 2 - D) - D) ≤ (B - 1) * (B * (B ^ 2 - D) - D) :=
      mul_le_mul_of_nonneg_right (by omega) (by linarith)
    linarith
  · have htop : u2 * k * B ≤ u2 * (B * (B ^ 2 - D)) * B :=
      mul_le_mul_of_nonneg_right (mul_le_mul_of_nonneg_left hkB h2) hB.le
    have hpair : (u2 * B + u1) * (B * (B ^ 2 - D)) ≤ (D - 1) * (B * (B ^ 2 - D)) :=
      mul_le_mul_of_nonneg_right (by linarith) (mul_nonneg hB.le (by linarith))
    have hgap : B ^ 2 - D + 1 ≤ B := by nlinarith
    have hgap : B * D * (B ^ 2 - D + 1) ≤ B * D * B := mul_le_mul_of_nonneg_left hgap (by positivity)
    have hsq : 0 < B ^ 2 + (B ^ 2 - D) ^ 2 := by positivity
    linarith

/-- R219: the bounds on what the first estimate of the 3-by-2 division leaves, where `v` is the divisor's reciprocal and
`(q1, q0)` the product the estimate is read from. -/
theorem divide3by2_remainder_bounds {B D v u2 u1 u0 q1 q0 : Nat} (hDB : D < B ^ 2) (hu : u2 * B + u1 < D) (hu1 : u1 < B)
    (hu0 : u0 < B) (hv : (v + B) * D < B ^ 3) (hv' : B ^ 3 ≤ (v + B) * D + D)
    (ht : v * u2 + (u2 * B + u1) = q1 * B + q0) :
    (q0 * B - B ^ 2 : ℤ) * D ≤ B ^ 2 * (((u2 * B + u1) * B + u0 : Nat) - (q1 + 1) * D) ∧
      (B ^ 2 * (((u2 * B + u1) * B + u0 : Nat) - (q1 + 1) * D) : ℤ) < (B ^ 2 - D) ^ 2 + q0 * B * D := by
  zify at *
  have key : (B ^ 2 * ((u2 * B + u1) * B + u0 - (q1 + 1) * D) : ℤ) =
      B * (u2 * (B ^ 3 - (v + B) * D) + u1 * (B ^ 2 - D) + u0 * B) + (q0 * B - B ^ 2) * D := by
    linear_combination B * D * ht
  rw [key]
  constructor
  · have h2 : (0 : ℤ) ≤ u2 * (B ^ 3 - (v + B) * D) := mul_nonneg (by positivity) (by linarith)
    have h1 : (0 : ℤ) ≤ u1 * (B ^ 2 - D) := mul_nonneg (by positivity) (by linarith)
    have h : (0 : ℤ) ≤ B * (u2 * (B ^ 3 - (v + B) * D) + u1 * (B ^ 2 - D) + u0 * B) := by positivity
    linarith
  · have hvD : (0 : ℤ) ≤ v * D := by positivity
    have h := divide3by2_excess_lt (B := B) (D := D) (k := B ^ 3 - (v + B) * D) (u2 := u2) (u0 := u0)
      (by linarith [(by positivity : (0 : ℤ) ≤ u2 * B + u1)]) hDB (by linarith) (by linarith) (by positivity)
      (by positivity) hu1 hu hu0
    linarith

/-- R219: the 3-by-2 division is an estimate, lowered if the product's low limb is at most the top limb of what it leaves,
then raised if it leaves the divisor or more. -/
theorem realDivide3by2_eq_corrected (u2 u1 u0 d1 d0 v : Limb) {t : Nat} {x : Limb × BitVec 128}
    (ht : t = v.toNat * u2.toNat + pairVal u2 u1)
    (hx : x = (hi64 t + 1,
      ((u1 - hi64 t * d1) ++ u0) - BitVec.ofNat 128 (d0.toNat * (hi64 t).toNat) - (d1 ++ d0))) :
    ∃ y : Limb × BitVec 128, realDivide3by2 u2 u1 u0 d1 d0 v = (y.1, hi64 y.2.toNat, lo64 y.2.toNat) ∧
      y = raiseEstimate (d1 ++ d0) (if lo64 t ≤ hi64 x.2.toNat then lowerEstimate (d1 ++ d0) x else x) := by
  subst hx ht; exact ⟨_, rfl, rfl⟩

/-- R219: the first estimate of the 3-by-2 division is one more than the product's high limb. -/
theorem divide3by2_estimate (u2 u1 u0 d1 d0 : Limb) {t : Nat} (ht : t < limbBase ^ 2) :
    (hi64 t + 1, ((u1 - hi64 t * d1) ++ u0) - BitVec.ofNat 128 (d0.toNat * (hi64 t).toNat) - (d1 ++ d0)) =
      estimate 128 (tripleVal u2 u1 u0) (d1 ++ d0 : BitVec 128).toNat (t / limbBase + 1) := by
  have hq : ((hi64 t).toNat : ℤ) = t / limbBase := by rw [hi64_of_lt ht, Int.natCast_ediv]
  rw [estimate, Prod.mk.injEq, ← hq]
  constructor
  · rw [Int.cast_add, intCast_toNat, Int.cast_one]
  · have hr : u1 - hi64 t * d1 = ((u1.toNat - (hi64 t).toNat * d1.toNat : ℤ) : Limb) := by
      rw [Int.cast_sub, Int.cast_mul, intCast_toNat, intCast_toNat, intCast_toNat]
    have hd : (d1 ++ d0 : BitVec 128) = ((pairVal d1 d0 : ℤ) : BitVec 128) := by rw [← append_toNat, intCast_toNat]
    rw [append_toNat, hr, hd, intCast_append, ofNat_eq_intCast, ← Int.cast_sub, ← Int.cast_sub]
    refine intCast_eq_of_dvd ⟨-u2.toNat, ?_⟩
    rw [two_pow_128, tripleVal, pairVal, pairVal]
    push_cast; ring

/-- Settles O24: the remainder the first estimate leaves is within the bounds that make its two corrections exact. -/
theorem realisedDivide3by2MeetsItsContract : Obligations.RealisedDivide3by2MeetsItsContract := by
  intro u2 u1 u0 d1 d0 rcp hd hu
  obtain ⟨hv, hv'⟩ := realReciprocal2_bounds (d0 := d0) hd
  obtain ⟨t, ht⟩ : ∃ t, t = (realReciprocal2 d1 d0).toNat * u2.toNat + pairVal u2 u1 := ⟨_, rfl⟩
  have htB : t < limbBase ^ 2 := ht ▸ divide3by2_product_lt hu hv
  have hq : (realReciprocal2 d1 d0).toNat * u2.toNat + (u2.toNat * limbBase + u1.toNat) =
      t / limbBase * limbBase + (lo64 t).toNat := by
    rw [lo64_toNat, Nat.div_add_mod', ht, pairVal]
  obtain ⟨hlo, hhi⟩ := divide3by2_remainder_bounds (pairVal_lt d1 d0) hu (limb_lt u1) (limb_lt u0) hv hv' hq
  obtain ⟨y, hy, hyx⟩ := realDivide3by2_eq_corrected u2 u1 u0 d1 d0 _ ht
    (divide3by2_estimate u2 u1 u0 d1 d0 htB).symm
  rw [hy]
  refine (divide3by2_eq_some_iff rcp hd hu).mpr ?_
  rw [pairVal_hi_lo (toNat_lt_limbBase_sq y.2), ← append_toNat d1 d0]
  have hD : (d1 ++ d0 : BitVec 128).toNat = pairVal d1 d0 := append_toNat d1 d0
  have htest (r : BitVec 128) : lo64 t ≤ hi64 r.toNat ↔ (lo64 t).toNat * limbBase ≤ r.toNat := by
    rw [BitVec.le_def, hi64_of_lt (toNat_lt_limbBase_sq r), Nat.le_div_iff_mul_le limbBase_pos]
  refine corrected_estimate_exact (x := (lo64 t).toNat * limbBase) ?_ ?_ (by positivity) ?_ ?_ ?_ ?_ ?_ hyx
  · rw [two_pow_128, hD]; exact_mod_cast limbBase_sq_le_two_mul hd
  · rw [hD]; exact tripleVal_lt hu
  · rw [two_pow_128, pow_two]; exact_mod_cast Nat.mul_lt_mul_of_pos_right (limb_lt (lo64 t)) limbBase_pos
  · rw [two_pow_128, hD]; exact hlo
  · rw [two_pow_128, hD]; exact hhi
  · rw [htest]; exact fun h => by exact_mod_cast h
  · rw [htest]; exact fun h => by exact_mod_cast h.le

end Sys2Proof.Machine
end

section
/-! SUPPORT. Where the host's accesses fault (R240 to R248), runs of a system of instances (R252), and the statements of
60_exceptions.md. -/

namespace Sys2Proof.Machine

/-! ## The `Contract` fault (R245) -/

/-- R180: no check of a command is the engine's. -/
theorem exec_ne_contract (i : Instr) (s : State) : exec i s ≠ .fault .contract := by
  rw [exec_eq_startDivide]
  unfold startDivide raise
  split_ifs
  · simp
  · simp
  · split
    · split_ifs <;> simp
    · simp

/-- R180, R248: nor is one of the command write's. -/
theorem writeCommand_ne_contract (w : Limb) (s : State) : writeCommand w s ≠ .fault .contract := by
  unfold writeCommand raise
  split_ifs
  · simp
  · cases decode w with
    | ok i => exact exec_ne_contract i s
    | error e => simp

/-- R186: a host write faults for its address or direction, for a call in progress, or for its command. -/
theorem hostWrite_ne_contract (a : Nat) (x : Limb) (s : State) : hostWrite a x s ≠ .fault .contract := by
  unfold hostWrite raise
  cases regAt a with
  | none => simp
  | some reg =>
    cases reg with
    | cmd => exact writeCommand_ne_contract x s
    | u i | v i => dsimp only; split_ifs <;> simp
    | q i | r i | status => simp

/-- R187: a host read faults for its address or direction, or for a limb without a value. -/
theorem hostRead_ne_contract (a : Nat) (s : State) : hostRead a s ≠ .fault .contract := by
  rw [Ne, hostRead_eq_fault]
  unfold State.readWord
  cases regAt a with
  | none => simp
  | some reg =>
    cases reg with
    | u i | v i | q i | r i => dsimp only; split <;> simp
    | cmd | status => simp

/-- R245: `Contract` is a fault of the engine's, never of the host's. -/
theorem hostStep_ne_contract (op : HostOp) (s : State) : hostStep op s ≠ .fault .contract := by
  cases op with
  | write a x => exact hostWrite_ne_contract a x s
  | read a => exact hostRead_ne_contract a s
  | wait => rw [hostStep, hostWait_eq]; simp
  | reset => simp [hostStep]

/-- Settles O55: in a state of the invariant the engine completes its step, and the host's accesses raise other faults. -/
theorem contractFaultIsUnreachable : Obligations.ContractFaultIsUnreachable := by
  intro s hs
  rw [step_eq]
  rcases nextMove_cases s with ⟨hm, -, -⟩ | ⟨-, hm, hp, ts, rfl⟩ | ⟨op, rest, ts, -, hm⟩
  · rw [hm]; simp [Move.run]
  · rw [hm, Move.run]
    obtain ⟨t, ht, -⟩ := (hs.withEnvironment s.pending ts s.reads).exists_engineStep hp
    simp [ht]
  · rw [hm]; exact hostStep_ne_contract op _

/-! ## Reserved commands (R242) -/

/-- R51, R180: the write to `CMD` is the command write. -/
theorem hostWrite_cmd (w : Limb) (s : State) : hostWrite 0x100 w s = writeCommand w s := rfl

/-- R74: a word that is no instruction's does not decode. -/
theorem exists_decode_error {w : Limb} (h : ∀ i, w ≠ encode i) : ∃ e, decode w = .error e := by
  cases hd : decode w with
  | ok i => exact absurd (eq_encode_of_decode hd) (h i)
  | error e => exact ⟨e, rfl⟩

/-- R7, R74: an instruction is left out of a build with its width. -/
theorem wf_eq_false_iff {widths : List Nat} {i : Instr} : i.wf widths = false ↔ i.bits ∉ widths := by
  simp [Instr.wf]

/-- Settles O3: the block is not busy, so the word itself is what is checked first. -/
theorem reservedCommandFaults : Obligations.ReservedCommandFaults := by
  refine ⟨fun s w hb hw => ?word, fun widths i s hb hi => ?width⟩
  case word =>
    obtain ⟨e, he⟩ := exists_decode_error hw
    rw [hostWrite_cmd, writeCommand, if_neg (by simp [hb]), he, raise]
  case width => rw [startDivide, if_neg (by simp [hb]), if_pos (wf_eq_false_iff.mpr hi), raise]

/-! ## Wrong accesses (R246) -/

/-- R51: from 0x080 on, `CMD` aside, stand the registers the host may only read, and the reserved addresses. -/
theorem regAt_not_writable {a : Nat} (h : 0x080 ≤ a) (hcmd : a ≠ 0x100) :
    (∃ i, regAt a = some (.q i)) ∨ (∃ i, regAt a = some (.r i)) ∨ regAt a = some .status ∨ regAt a = none := by
  rcases (by omega : a < 0x100 ∨ a = 0x101 ∨ 0x102 ≤ a) with hlt | rfl | hge
  · exact (regAt_result h hlt).imp_right .inl
  · exact .inr (.inr (.inl rfl))
  · exact .inr (.inr (.inr (regAt_reserved hge)))

/-- Settles O5: the register at the address decides, whatever the state. -/
theorem wrongAccessFaultsFirst : Obligations.WrongAccessFaultsFirst := by
  refine ⟨fun a x s ⟨ha, hcmd⟩ => ?write, fun a s ha => hostRead_eq_fault.mpr ?read⟩
  case write =>
    rcases regAt_not_writable ha hcmd with ⟨i, hr⟩ | ⟨i, hr⟩ | hr | hr <;> simp only [hostWrite, hr, raise]
  case read =>
    rcases ha with rfl | hge
    · rfl
    · simp only [State.readWord, regAt_reserved hge]

/-! ## The host during a call (R243) -/

/-- R243: a busy block refuses every write to an address the host may write. -/
theorem hostWrite_of_busy {a : Nat} {s : State} (hb : s.busy = true) (ha : a < 0x080 ∨ a = 0x100) (x : Limb) :
    hostWrite a x s = .fault .busy := by
  rcases ha with ho | rfl
  · rcases regAt_operand ho with ⟨i, hi⟩ | ⟨i, hi⟩ <;> simp only [hostWrite, hi, hb, if_true, raise]
  · rw [hostWrite_cmd, writeCommand, if_pos hb, raise]

/-- Settles O6: in a call `DONE` is 0, so `STATUS` is 1 and no limb of `Q` or `R` holds a value. -/
theorem busyBlockRefusesWritesAndAllowsReads : Obligations.BusyBlockRefusesWritesAndAllowsReads := by
  intro s hs hb
  have hdone : s.done = false := Bool.eq_false_iff.mpr fun hd => hs.not_both ⟨hb, hd⟩
  obtain ⟨hq, hr⟩ := hs.no_results hdone
  refine ⟨fun a x ha => hostWrite_of_busy hb ha x, hostRead_eq_next.mpr ⟨1, ?status, rfl⟩,
    fun i _ => hostRead_of_limb_some (readWord_u s i), fun i _ => hostRead_of_limb_some (readWord_v s i),
    fun i => ⟨hostRead_of_limb_none (readWord_q s i) ?q, hostRead_of_limb_none (readWord_r s i) ?r⟩⟩
  case status => rw [readWord_status, (statusWord_cases hs.not_both).2.mpr hb]
  case q => rw [hq]; exact noValue_get i
  case r => rw [hr]; exact noValue_get i

/-! ## Several instances (R252) -/

@[simp] theorem systemRun_cons (m : SystemMove) (ms : List SystemMove) (sys : List InstanceRun) :
    systemRun (m :: ms) sys = systemRun ms (systemStep m sys) := rfl

/-- R252: moves neither add runs to a system nor remove any. -/
theorem systemRun_length (ms : List SystemMove) (sys : List InstanceRun) : (systemRun ms sys).length = sys.length := by
  induction ms generalizing sys with
  | nil => rfl
  | cons m ms ih => rw [systemRun_cons, ih, systemStep_length]

/-- R252: what a run makes of one of several runs is what the moves that concern it, in their order, make of it. -/
theorem systemRun_getElem? (ms : List SystemMove) (sys : List InstanceRun) (l : Nat) :
    (systemRun ms sys)[l]? =
      sys[l]?.map fun r => (ms.filter fun m => m.target = l).foldl (fun r' m => m.act r') r := by
  induction ms generalizing sys with
  | nil => simp [systemRun]
  | cons m ms ih =>
    rw [systemRun_cons, ih, systemStep_getElem?]
    by_cases h : m.target = l
    · simp [h, Function.comp_def]
    · simp [h]

/-- Settles O60: by induction on the system's moves, each of which acts on the one run it concerns. -/
theorem instancesAreIndependent : Obligations.InstancesAreIndependent :=
  ⟨fun ms sys => ⟨systemRun_length ms sys, systemRun_getElem? ms sys⟩,
    fun _ s => ⟨stepRun_next s, resetRun_next s⟩,
    fun _ f => ⟨stepRun_fault f, resetRun_fault f⟩,
    fun _ _ hl => List.getElem?_replicate_of_lt hl⟩

end Sys2Proof.Machine
end

section
/-! SUPPORT. The host's accesses answered by its list of obligations (R273), whole calls in any interleaving (R276, R277), and
the statements of 70_reset_and_hazards.md. -/

namespace Sys2Proof.Machine

/-! ## Reset (R270) -/

/-- Settles O14: a running block's reset event is `applyReset`, a faulted one's a new start. -/
theorem resetEventFromAnyState : Obligations.ResetEventFromAnyState :=
  ⟨fun s => ⟨s.applyReset, rfl, rfl⟩, resetRun_fault⟩

/-! ## The results (R275) -/

/-- Settles O9: without `DONE` no limb of `Q` or `R` holds a value, with it exactly those below a limb count do. -/
theorem resultsReadableExactlyWhileDone : Obligations.ResultsReadableExactlyWhileDone := by
  refine fun s hs => ⟨fun hd i => ?unwritten, fun hd => ?committed⟩
  case unwritten =>
    obtain ⟨hq, hr⟩ := hs.no_results hd
    exact ⟨hostRead_of_limb_none (readWord_q s i) (hq ▸ noValue_get i),
      hostRead_of_limb_none (readWord_r s i) (hr ▸ noValue_get i)⟩
  case committed =>
    obtain ⟨w, hq, hr⟩ := hs.results hd
    refine ⟨w, fun i => ⟨fun hi => ?below, fun hi => ?above⟩⟩
    case below =>
      obtain ⟨x, hx⟩ := Option.isSome_iff_exists.mp ((hq i).trans (decide_eq_true hi))
      obtain ⟨y, hy⟩ := Option.isSome_iff_exists.mp ((hr i).trans (decide_eq_true hi))
      exact ⟨x, y, hostRead_of_limb_some (readWord_q s i) hx, hostRead_of_limb_some (readWord_r s i) hy⟩
    case above =>
      have hfree {b : Bank} (hb : b.holdsExactly w.limbs) : b[i.val] = none := by simpa [hi.not_gt] using hb i
      exact ⟨hostRead_of_limb_none (readWord_q s i) (hfree hq), hostRead_of_limb_none (readWord_r s i) (hfree hr)⟩

/-! ## The host's obligations (R273) -/

/-- An access answers with the next state where it is allowed, and with a fault where it is not. -/
def FaultsUnless (allowed : Prop) (o : Host.Outcome State Fault Refusal) : Prop :=
  (allowed ∧ ∃ t, o = .next t) ∨ (¬ allowed ∧ ∃ f, o = .fault f)

theorem FaultsUnless.of_next {allowed : Prop} {o : Host.Outcome State Fault Refusal} {t : State} (h : allowed)
    (ho : o = .next t) : FaultsUnless allowed o := .inl ⟨h, t, ho⟩

theorem FaultsUnless.of_fault {allowed : Prop} {o : Host.Outcome State Fault Refusal} {f : Fault} (h : ¬ allowed)
    (ho : o = .fault f) : FaultsUnless allowed o := .inr ⟨h, f, ho⟩

theorem FaultsUnless.fault_iff {allowed : Prop} {o : Host.Outcome State Fault Refusal} (h : FaultsUnless allowed o) :
    (∃ f, o = .fault f) ↔ ¬ allowed := by
  rcases h with ⟨ha, t, rfl⟩ | ⟨ha, f, rfl⟩ <;> simp [ha]

/-- R241, R244 (b): on a block that is not busy a command faults but for operands with values and a nonzero divisor. -/
theorem exec_faultsUnless {i : Instr} {s : State} (hb : s.busy = false) :
    FaultsUnless (∃ us vs, s.numerator i.limbs = some us ∧ s.divisor i.limbs = some vs ∧ val vs ≠ 0) (exec i s) := by
  by_cases hok : ∃ us vs, s.numerator i.limbs = some us ∧ s.divisor i.limbs = some vs ∧ val vs ≠ 0
  · exact .of_next hok (exec_eq_next.mpr ⟨hb, hok, rfl⟩)
  · cases hu : s.numerator i.limbs with
    | none => exact .of_fault (by simp) (exec_of_operand_none hb (.inl hu))
    | some us =>
      cases hv : s.divisor i.limbs with
      | none => exact .of_fault (by simp) (exec_of_operand_none hb (.inr hv))
      | some vs =>
        have hz : val vs = 0 := by_contra fun hz => hok ⟨us, vs, hu, hv, hz⟩
        exact .of_fault (by simp [hz]) (exec_of_divisor_zero hb hu hv hz)

/-- R73, R273: what the list asks of the word of an instruction. -/
theorem commandAllowed_encode {i : Instr} {s : State} : CommandAllowed (encode i) s ↔
    ∃ us vs, s.numerator i.limbs = some us ∧ s.divisor i.limbs = some vs ∧ val vs ≠ 0 := by
  constructor
  · rintro ⟨k, us, vs, hw, -, hops⟩
    obtain rfl : i = k := by simpa using congrArg decode hw
    exact ⟨us, vs, hops⟩
  · rintro ⟨us, vs, hops⟩
    exact ⟨i, us, vs, rfl, wf_all_widths i, hops⟩

/-- R242, R243, R248: a command write faults on a busy block, and for a word that starts no call. -/
theorem writeCommand_faultsUnless (w : Limb) (s : State) :
    FaultsUnless (s.busy = false ∧ CommandAllowed w s) (writeCommand w s) := by
  cases hb : s.busy with
  | true => exact .of_fault (by simp) (hostWrite_of_busy hb (.inr rfl) w)
  | false =>
    simp only [true_and]
    by_cases hw : ∃ i, w = encode i
    · obtain ⟨i, rfl⟩ := hw
      rw [commandAllowed_encode, writeCommand_of_decode hb (decode_encode i)]
      exact exec_faultsUnless hb
    · exact .of_fault (fun ⟨i, _, _, hi, _⟩ => hw ⟨i, hi⟩)
        (reservedCommandFaults.1 s w hb (not_exists.mp hw))

/-- R186, R273: a host write faults but to an operand limb or with a command that starts a call, on a block not busy. -/
theorem hostWrite_faultsUnless (a : Nat) (x : Limb) (s : State) :
    FaultsUnless (HostAllowed (.write a x) s) (hostWrite a x s) := by
  unfold HostAllowed hostWrite
  dsimp only
  cases regAt a with
  | none => exact .of_fault not_false rfl
  | some reg =>
    cases reg with
    | cmd => exact writeCommand_faultsUnless x s
    | q i | r i | status => exact .of_fault not_false rfl
    | u i | v i =>
      cases s.busy with
      | true => exact .of_fault Bool.noConfusion rfl
      | false => exact .of_next rfl rfl

/-- R187, R273: a host read faults but of `STATUS` and of a limb that holds a value. -/
theorem hostRead_faultsUnless (a : Nat) (s : State) :
    FaultsUnless (HostAllowed (.read a) s) (hostRead a s) := by
  have hlimb {limb : Option Limb} (hread : s.readWord a = limbOrUninit limb) :
      FaultsUnless (limb.isSome = true) (hostRead a s) := by
    cases hl : limb with
    | none => exact .of_fault Bool.noConfusion (hostRead_of_limb_none hread hl)
    | some x => exact .of_next rfl (hostRead_of_limb_some hread hl)
  unfold HostAllowed
  dsimp only
  cases hreg : regAt a with
  | none => exact .of_fault not_false (hostRead_eq_fault.mpr (by rw [State.readWord, hreg]))
  | some reg =>
    obtain rfl := addr_of_regAt hreg
    cases reg with
    | cmd => exact .of_fault not_false rfl
    | status => exact .of_next trivial rfl
    | u i => exact hlimb (by rw [State.readWord, hreg]; rfl)
    | v i => exact hlimb (readWord_v s i)
    | q i => exact hlimb (readWord_q s i)
    | r i => exact hlimb (readWord_r s i)

/-- R273: an item of the host's faults exactly where the list does not allow it. -/
theorem hostStep_faultsUnless (op : HostOp) (s : State) : FaultsUnless (HostAllowed op s) (hostStep op s) := by
  cases op with
  | write a x => exact hostWrite_faultsUnless a x s
  | read a => exact hostRead_faultsUnless a s
  | wait => exact .of_next trivial (hostWait_eq s)
  | reset => exact .of_next trivial rfl

/-- Settles O56: in a state of the invariant the engine completes its step, and a host step answers by the list. -/
theorem faultsExactlyWhereTheHostBreaksAnObligation : Obligations.FaultsExactlyWhereTheHostBreaksAnObligation := by
  intro s hs
  rw [step_eq]
  rcases nextMove_cases s with ⟨hm, -, -⟩ | ⟨_, hm, hp, ts, rfl⟩ | ⟨op, rest, ts, -, hm⟩
  · simp [hm, Move.run]
  · obtain ⟨t, ht, -⟩ := (hs.withEnvironment s.pending ts s.reads).exists_engineStep hp
    simp [hm, Move.run, ht]
  · rw [hm, Move.run, (hostStep_faultsUnless op _).fault_iff]
    exact ⟨fun h => ⟨op, _, rfl, h⟩, fun ⟨_, _, hmove, h⟩ => by cases hmove; exact h⟩

/-! ## A call beside its host (R277) -/

/-- R58, R277: during a call the engine moves, or the host takes a turn that the schedule gives it. -/
theorem nextMove_in_call {s : State} (hp : s.phase ≠ .idle) :
    (∃ ts, ts.length ≤ s.turns.length ∧ s.nextMove = .engine { s with turns := ts }) ∨
    (∃ op rest ts, s.pending = op :: rest ∧ s.turns = .host :: ts ∧
      s.nextMove = .host op { s with pending := rest, turns := ts }) := by
  cases hq : s.pending with
  | nil => exact .inl ⟨s.turns, le_rfl, by simp only [State.nextMove, hq, if_neg hp]; rw [← hq]⟩
  | cons op rest =>
    cases ht : s.turns with
    | nil => exact .inl ⟨[], le_rfl, by simp only [State.nextMove, hq, if_neg hp, ht]; rw [← hq, ← ht]⟩
    | cons agent ts =>
      cases agent with
      | engine => exact .inl ⟨ts, by simp, by simp [State.nextMove, hq, hp, ht]⟩
      | host => exact .inr ⟨op, rest, ts, rfl, rfl, by simp [State.nextMove, hp, hq, ht]⟩

/-- R243: during a call an access of the host's, reset aside, changes nothing of the block. -/
theorem hostStep_in_call {op : HostOp} {s t : State} (hb : s.busy = true) (hop : op ≠ .reset)
    (h : hostStep op s = .next t) : ∃ ops xs, t = { s with pending := ops, reads := xs } := by
  rcases hostStep_update h with ⟨hr, -⟩ | ⟨hb', -⟩ | ⟨hb', -⟩ | hseen
  · exact absurd hr hop
  · simp [hb] at hb'
  · simp [hb] at hb'
  · exact hseen

/-- R276: the rows left are the block's, whatever the environment holds. -/
theorem rowsLeft_withEnvironment (s : State) (ops : List HostOp) (ts : List Agent) (xs : List Limb) :
    { s with pending := ops, turns := ts, reads := xs }.rowsLeft = s.rowsLeft := rfl

/-- R276: the engine's step takes a row whatever the turns, and the host's accesses none. -/
theorem step_in_call_rowsLeft {s t : State} (hs : s.Inv) (hp : s.phase ≠ .idle) (h : step s = .next t) :
    (∀ e, s.nextMove = .engine e → t.rowsLeft + 1 = s.rowsLeft) ∧
    (∀ op e, s.nextMove = .host op e → op ≠ .reset → t.rowsLeft = s.rowsLeft) := by
  rw [step_eq] at h
  rcases nextMove_in_call hp with ⟨ts, -, hm⟩ | ⟨op, rest, ts, -, -, hm⟩ <;> rw [hm] at h ⊢
  · have hrow := engineStep_takes_one_row (s := { s with turns := ts }) hp h
    exact ⟨fun _ _ => hrow.trans (rowsLeft_withEnvironment s s.pending ts s.reads), fun _ _ hmove => nomatch hmove⟩
  · refine ⟨fun _ hmove => (nomatch hmove), fun _ _ hmove hop => ?_⟩
    cases hmove
    obtain ⟨ops, xs, rfl⟩ := hostStep_in_call (s := { s with pending := rest, turns := ts }) (hs.busy_iff.mpr hp) hop h
    exact rowsLeft_withEnvironment s ops ts xs

/-- R277: where a call's run is about to leave the call: at a fault of the host's, at its reset, or at the commit. -/
def LeavesCall (s : State) : Prop :=
  (∃ f, step s = .fault f) ∨ (∃ rest ts, s.pending = .reset :: rest ∧ s.turns = .host :: ts) ∨
    (s.phase = .commit ∧ ∃ t, step s = .next t ∧ t.phase = .idle ∧ t.busy = false ∧ t.done = true)

/-- R277: each step that stays in the call uses up a row or a turn. -/
theorem State.Inv.step_in_call {s : State} (h : s.Inv) (hp : s.phase ≠ .idle) :
    LeavesCall s ∨ ∃ t, step s = .next t ∧ t.phase ≠ .idle ∧
      t.rowsLeft + t.turns.length < s.rowsLeft + s.turns.length := by
  have hb : s.busy = true := h.busy_iff.mpr hp
  rcases nextMove_in_call hp with ⟨ts, hlen, hm⟩ | ⟨op, rest, ts, hq, hturn, hm⟩
  · obtain ⟨t, hengine, ht⟩ := (h.withEnvironment s.pending ts s.reads).exists_engineStep hp
    have hstep : step s = .next t := by rw [step_eq, hm]; exact hengine
    have hrow : t.rowsLeft + 1 = s.rowsLeft := (step_in_call_rowsLeft h hp hstep).1 _ hm
    obtain ⟨⟨-, -, -, hturns, -⟩, hframe⟩ := engineStepFrame _ t hengine
    rcases engineStep_update hengine with ⟨hcommit, -⟩ | ⟨hcommit, q, r, rfl⟩
    · obtain ⟨-, -, hbusy, -⟩ := hframe hcommit
      exact .inr ⟨t, hstep, ht.busy_iff.mp (hbusy.trans hb), by rw [hturns]; dsimp only; omega⟩
    · exact .inl (.inr (.inr ⟨hcommit, _, hstep, rfl, rfl, rfl⟩))
  · by_cases hop : op = .reset
    · exact .inl (.inr (.inl ⟨rest, ts, hop ▸ hq, hturn⟩))
    have hstep : step s = hostStep op { s with pending := rest, turns := ts } := by rw [step_eq, hm]; rfl
    rcases hostStep_faultsUnless op { s with pending := rest, turns := ts } with ⟨-, t, ht⟩ | ⟨-, f, hf⟩
    · obtain ⟨ops, xs, rfl⟩ := hostStep_in_call (s := { s with pending := rest, turns := ts }) hb hop ht
      have hrow := (step_in_call_rowsLeft h hp (hstep.trans ht)).2 _ _ hm hop
      exact .inr ⟨_, hstep.trans ht, hp, by rw [hrow, hturn]; simp⟩
    · exact .inl (.inl ⟨f, hstep.trans hf⟩)

/-- R276: a call in progress has its commit still to take. -/
theorem State.Inv.rowsLeft_pos {s : State} (h : s.Inv) (hp : s.phase ≠ .idle) : 0 < s.rowsLeft := by
  obtain ⟨t, ht, -⟩ := h.exists_engineStep hp
  have := engineStep_takes_one_row hp ht
  omega

/-- R277: whatever is pending, a call's run leaves it within as many steps as rows and turns are left. -/
theorem State.Inv.run_leaves_call {s : State} (h : s.Inv) (hp : s.phase ≠ .idle) :
    ∃ (k : Nat) (e : State), k < s.rowsLeft + s.turns.length ∧ Sys2Proof.core.run k s = .next e ∧ e.phase ≠ .idle ∧
      LeavesCall e := by
  rcases h.step_in_call hp with hleaves | ⟨t, hstep, ht, hless⟩
  · exact ⟨0, s, Nat.add_pos_left (h.rowsLeft_pos hp) _, rfl, hp, hleaves⟩
  · obtain ⟨k, e, hk, hrun, he⟩ := (stepKeepsTheInvariant s t h hstep).run_leaves_call ht
    exact ⟨k + 1, e, by omega, (run_succ_of_next (M := Sys2Proof.core) hstep k).trans hrun, he⟩
termination_by s.rowsLeft + s.turns.length

/-! ## The steps of a call (R276) -/

/-- R276: the listed number of steps of each path. -/
theorem callSteps_listed {n : Nat} (hn : 1 ≤ n) (m : Nat) :
    (m < n → callSteps n m = 2) ∧ (n = 1 → 1 ≤ m → callSteps n m = m + 2) ∧
    (n = 2 → 2 ≤ m → m ≠ 4 → callSteps n m = m + 1) ∧ (n = 2 → m = 4 → callSteps n m = 3) ∧
    (n = 4 → 4 ≤ m → m ≤ 6 → callSteps n m = 3) ∧
    ((n = 3 ∨ (n = 4 ∧ 7 ≤ m) ∨ 5 ≤ n) → n ≤ m → callSteps n m = m - n + 3) := by
  rcases selectRoute_cases (m := m) hn with ⟨hr, _⟩ | ⟨hr, _⟩ | ⟨hr, _⟩ | ⟨hr, _⟩ | ⟨hr, _⟩ | ⟨hr, _⟩
  all_goals
    rw [callSteps, hr]
    dsimp only
    omega

/-- R276: an idle block has no row left. -/
theorem rowsLeft_of_idle {s : State} (hp : s.phase = .idle) : s.rowsLeft = 0 := by
  simp only [State.rowsLeft, hp]

/-- R28, R276: with nothing pending from the host, `BUSY` stays 1 as long as rows are left. -/
theorem State.Inv.run_busy {s : State} {k : Nat} (h : s.Inv) (hq : s.pending = []) (hk : k < s.rowsLeft) :
    ∃ t, Sys2Proof.core.run k s = .next t ∧ t.busy = true := by
  have hp : s.phase ≠ .idle := fun hp => by simp [rowsLeft_of_idle hp] at hk
  induction k generalizing s with
  | zero => exact ⟨s, rfl, h.busy_iff.mpr hp⟩
  | succ k ih =>
    obtain ⟨t, hstep, ht⟩ := h.exists_engineStep hp
    have hrow := engineStep_takes_one_row hp hstep
    obtain ⟨⟨-, -, hq', -⟩, -⟩ := engineStepFrame s t hstep
    have hkt : k < t.rowsLeft := by omega
    rw [run_succ_of_next (M := Sys2Proof.core) ((step_of_busy_alone hp hq).trans hstep)]
    exact ih ht (hq'.trans hq) hkt fun hidle => by simp [rowsLeft_of_idle hidle] at hkt

/-- R178, R276: with nothing pending from the host, a call has committed once its rows are taken. -/
theorem State.Inv.run_rowsLeft {s : State} (h : s.Inv) (hp : s.phase ≠ .idle) (hq : s.pending = []) :
    ∃ t, Sys2Proof.core.run s.rowsLeft s = .next t ∧ t.busy = false ∧ t.done = true := by
  obtain ⟨k, c, hk, hrun, hcommit⟩ := h.run_to_commit hp hq
  obtain ⟨t, hlast, -⟩ := hcommit.exists_commitStep rfl
  have hend := run_one_of_next (M := Sys2Proof.core)
    ((step_of_busy_alone (s := { s with ctx := c, phase := .commit }) nofun hq).trans hlast)
  rcases engineStep_update hlast with ⟨hne, -⟩ | ⟨-, q, r, rfl⟩
  · exact absurd rfl hne
  · exact ⟨_, hk ▸ (run_add hrun 1).trans hend, rfl, rfl⟩

/-- R276: an accepted command is at `NORM` with the rows of its counts still to take. -/
theorem rowsLeft_of_exec {i : Instr} {s t : State} {us vs : List Limb} {c : Context} (hu : s.numerator i.limbs = some us)
    (hv : s.divisor i.limbs = some vs) (hbuilt : normalize us vs = some c) (hexec : exec i s = .next t) :
    t.phase = .norm ∧ t.rowsLeft = callSteps c.nd c.m ∧ t.rowsLeft ≤ i.limbs + 3 := by
  obtain ⟨-, ⟨_, _, -, hv', hz⟩, rfl⟩ := exec_eq_next.mp hexec
  obtain rfl := Option.some.inj (hv.symm.trans hv')
  exact ⟨rfl, rowsLeft_of_norm (len := i.limbs) rfl rfl hu hv hbuilt, rowsLeft_of_norm_le rfl rfl hu hv hz⟩

/-- Settles O57: the accepted command's rows are the listed ones and its run takes them all, each step of a call takes a row or
none, and the rows and turns left bound the call in any interleaving. -/
theorem callTakesTheListedSteps : Obligations.CallTakesTheListedSteps := by
  refine ⟨fun i s t us vs c hs hu hv hbuilt hexec => ?_, fun _ _ => step_in_call_rowsLeft,
    fun _ => State.Inv.run_leaves_call⟩
  obtain ⟨hp, hrows, hbound⟩ := rowsLeft_of_exec hu hv hbuilt hexec
  obtain ⟨-, -, -, hn, -⟩ := normalize_ranges hbuilt
  obtain ⟨hearly, hby1, hby2, hcf42, hcf64, hknuth⟩ := callSteps_listed hn c.m
  have hcall := (hs.of_exec hexec).withEnvironment [] t.turns t.reads
  have hleft := (rowsLeft_withEnvironment t [] t.turns t.reads).trans hrows
  exact ⟨_, hearly, hby1, hby2, hcf42, hcf64, hknuth, hrows ▸ hbound, hrows,
    fun k hk => hcall.run_busy rfl (hleft ▸ hk),
    hleft ▸ hcall.run_rowsLeft (fun hidle => nomatch hp.symm.trans hidle) rfl⟩

end Sys2Proof.Machine
end
